-- ==== Sys2Proof/Word.lean ====
section
/-! DEFINITION. The value types of CORE: 256-bit words, 32-bit command words, register indices,
field elements and curve points (00_scope.md R4, R6, R8). -/

namespace Sys2Proof

/-- A `W`-bit unsigned integer, `W = 256` (R4): the content of a K register, of `DIN`, of `DOUT`,
of a draw, and of every field of a field element or a point. -/
abbrev Word := BitVec 256

/-- A command word (R80). -/
abbrev CmdWord := BitVec 32

/-- The index of a K register; all 16 exist (R61). -/
abbrev KReg := BitVec 4

/-- The index of an F register. -/
abbrev FReg := BitVec 4

/-- The index of a P register. -/
abbrev PReg := BitVec 4

/-- A field element (R8): a value and the modulus it travels with. -/
structure FE where
  value : Word
  modulus : Word
  deriving DecidableEq, Repr

/-- A curve point (R8, R22): Infinity or an affine point. Both carry the coefficients `a`, `b` and the
one modulus `m` of all their fields; Infinity has no coordinates. -/
inductive Pt where
  | inf (a b m : Word)
  | aff (x y a b m : Word)
  deriving DecidableEq, Repr

/-- `p.inf` of R8. -/
def Pt.isInf : Pt → Bool
  | .inf _ _ _ => true
  | .aff _ _ _ _ _ => false

/-- The coefficient `a` a point carries. -/
def Pt.a : Pt → Word
  | .inf a _ _ => a
  | .aff _ _ a _ _ => a

/-- The coefficient `b` a point carries. -/
def Pt.b : Pt → Word
  | .inf _ b _ => b
  | .aff _ _ _ b _ => b

/-- The modulus a point carries. -/
def Pt.m : Pt → Word
  | .inf _ _ m => m
  | .aff _ _ _ _ m => m

/-- `curve(p)` of R8. -/
def Pt.curve (p : Pt) : Word × Word × Word := (p.a, p.b, p.m)

end Sys2Proof
end

