-- ==== Sys2Proof/Config.lean ====
section
/-! DEFINITION. The parameters of the block (00_scope.md R4) and its constant ROM (48_curve_parameters.md R235):
fixed for every instance, not state (R12, R34). -/

namespace Sys2Proof.Config

/-- The Montgomery radix `R = 2^256` (R4, R150). -/
def montR : Nat := 2 ^ 256

/-- `CP.p = 2^256 - 2^32 - 977` (R235). -/
def cpP : Word := 0xFFFFFFFFFFFFFFFFFFFFFFFFFFFFFFFFFFFFFFFFFFFFFFFFFFFFFFFEFFFFFC2F#256

/-- `CP.n`, the order of the generator (R235). UNVERIFIED literal, log 9. -/
def cpN : Word := 0xFFFFFFFFFFFFFFFFFFFFFFFFFFFFFFFEBAAEDCE6AF48A03BBFD25E8CD0364141#256

/-- `Gx` (R235). UNVERIFIED literal, log 9. -/
def gx : Word := 0x79BE667EF9DCBBAC55A06295CE870B07029BFCDB2DCE28D959F2815B16F81798#256

/-- `Gy` (R235). UNVERIFIED literal, log 9. -/
def gy : Word := 0x483ADA7726A3C4655DA4FBFC0E1108A8FD17B448A68554199C47D08FFB10D4B8#256

/-- `CP.a` as a field element (R235). -/
def cpA : FE := ⟨0, cpP⟩

/-- `CP.b` as a field element (R235). -/
def cpB : FE := ⟨7, cpP⟩

/-- `CP.g`, the generator (R235). -/
def cpG : Pt := .aff gx gy 0 7 cpP

end Sys2Proof.Config
end

