-- ==== Sys2Proof/Machine/State.lean ====
section
/-! DEFINITION. The state of CORE (10_state.md), the failure kinds (60_exceptions.md R290) and the state after reset (R39). -/

namespace Sys2Proof.Machine

/-- The failure kinds that are completion codes (R290). Code 8 is never one (R291); 14 and 15 are unassigned (U11). -/
inductive Failure where
  | fieldMismatch
  | notInvertible
  | notOnCurve
  | invalidPointShape
  | curveMismatch
  | noSquareRoot
  | unsupportedModulus
  | illegalCommand
  | regInvalid
  | badModulus
  | invalidScalar
  | noCoordinate
  deriving DecidableEq, Repr

/-- How a command ended (R290): success, or one failure kind. -/
inductive CC where
  | ok
  | fail (k : Failure)
  deriving DecidableEq, Repr

/-- The fields of STATUS (R30) that have storage; the 32-bit view is `Status.word`. -/
structure Status where
  cc : CC
  flag : Bool
  vres : BitVec 2
  errs : BitVec 16
  deriving DecidableEq, Repr

/-- The response to one command (R64): `rsp_cc`, `rsp_flag` and `dout` of R35. -/
structure Response where
  cc : CC
  flag : Bool
  dout : Word
  deriving DecidableEq, Repr

/-- What the host can do to the block (R64, R74). -/
inductive HostMove where
  /-- Present a command word with its `DIN` and wait for the response. -/
  | command (word : CmdWord) (din : Word)
  /-- Raise and lower `rst` (R37). -/
  | reset
  /-- Present a command and raise `rst` before its response, after the command has taken up to `taken` of its draws; if
  a command is in hand it is that one (R37, R323; logs 4, 18). -/
  | abandon (word : CmdWord) (din : Word) (taken : Nat)
  deriving DecidableEq, Repr

/-- The state. A register whose valid bit is 0 is `none`: its other fields are not architectural (R24). -/
structure State where
  /-- K file: plain integers (R20). -/
  k : Vector (Option Word) 16
  /-- F file: field elements (R21). -/
  f : Vector (Option FE) 16
  /-- P file: curve points (R22). -/
  p : Vector (Option Pt) 16
  /-- STATUS (R30). -/
  status : Status
  /-- The command word in hand, between its taking and its response (R28); `none` is `cmd_ready = 1`. -/
  cmd : Option CmdWord
  /-- The `din` port, sampled with the command (R35). -/
  din : Word
  /-- The response port: the response to the last command, `none` is `rsp_valid = 0` (R35, R64). -/
  rsp : Option Response
  /-- The `rng_req` port: the command in hand waits for a draw (R36). -/
  rngReq : Bool
  /-- The values the random source will still deliver, oldest first (R36, U16): an input. -/
  draws : List Word
  /-- The moves the host has still to make, oldest first (R13, R70): an input. -/
  host : List HostMove
  deriving DecidableEq, Repr

/-- Reasons the machine stops with a fault: none. Every failure is a completion code, and no input makes
the block stop accepting commands (R292). An empty type is safe: no step can hide behind a fault. -/
inductive Fault where
  deriving DecidableEq, Repr

/-- Reasons `exec` has no meaning for a command. -/
inductive Refusal where
  /-- Raised by `exec`'s arm of a command that has no meaning yet (no arm raises it now); safe: the machine stops. -/
  | notModelled (mnemonic : String)
  deriving DecidableEq, Repr

/-- The state after reset (R39, R321): every register invalid, STATUS 0, the interface idle. `din`, `draws` and
`host` are inputs the spec gives no reset value for: DESIGN CHOICE 0 and empty (logs 1, 2, 7). -/
def State.reset : State where
  k := Vector.replicate 16 none
  f := Vector.replicate 16 none
  p := Vector.replicate 16 none
  status := ⟨.ok, false, 0, 0⟩
  cmd := none
  din := 0
  rsp := none
  rngReq := false
  draws := []
  host := []

end Sys2Proof.Machine
end

