-- ==== Sys2Proof/Machine/Flags.lean ====
section
/-! DEFINITION. Completion codes and the STATUS register: packing, update at the end of a command, FLAG and VRES
(10_state.md R29 to R32, 60_exceptions.md R290). -/

namespace Sys2Proof.Machine

/-- The number of a failure kind (R290). -/
def Failure.code : Failure → BitVec 4
  | .fieldMismatch => 1
  | .notInvertible => 2
  | .notOnCurve => 3
  | .invalidPointShape => 4
  | .curveMismatch => 5
  | .noSquareRoot => 6
  | .unsupportedModulus => 7
  | .illegalCommand => 9
  | .regInvalid => 10
  | .badModulus => 11
  | .invalidScalar => 12
  | .noCoordinate => 13

/-- The 4-bit completion code (R290): 0 is success. -/
def CC.code : CC → BitVec 4
  | .ok => 0
  | .fail k => k.code

/-- The ERRS bits that are not hardwired 0: all but 0, 8, 14, 15 (R30). -/
def errsMask : BitVec 16 := 0x3EFE#16

/-- The 32-bit STATUS register (R30): CC 3:0, FLAG 4, VRES 6:5, reserved 7, ERRS 23:8, reserved 31:24. -/
def Status.word (st : Status) : BitVec 32 :=
  0#8 ++ (st.errs &&& errsMask) ++ 0#1 ++ st.vres ++ BitVec.ofBool st.flag ++ st.cc.code

/-- STATUS after a command that ends with `c`, STATRD apart (R31): CC is `c`, and a failure sets its ERRS bit. -/
def Status.ended (st : Status) : CC → Status
  | .ok => { st with cc := .ok }
  | .fail k => { st with cc := .fail k, errs := st.errs ||| (1#16 <<< k.code.toNat) }

/-- What a VERIFY that completes found (R32). -/
inductive VerifyResult where
  | valid
  | badShape
  | atInfinity
  | unequal
  deriving DecidableEq, Repr

/-- The VRES value of a result (R32). -/
def VerifyResult.vres : VerifyResult → BitVec 2
  | .valid => 0
  | .badShape => 1
  | .atInfinity => 2
  | .unequal => 3

/-- The FLAG value of a result (R32): 1 only for a valid signature. -/
def VerifyResult.flag : VerifyResult → Bool
  | .valid => true
  | .badShape | .atInfinity | .unequal => false

/-- `FLAG <- b` (R9, R29). -/
def State.setFlag (s : State) (b : Bool) : State :=
  { s with status := { s.status with flag := b } }

/-- `FLAG` and `VRES` of a VERIFY (R29, R32). -/
def State.setVerify (s : State) (r : VerifyResult) : State :=
  { s with status := { s.status with flag := r.flag, vres := r.vres } }

/-- `STATUS.ERRS <- 0` (R105). -/
def State.clearErrs (s : State) : State :=
  { s with status := { s.status with errs := 0 } }

end Sys2Proof.Machine
end

