-- ==== Sys2Proof/Machine/Ops.lean ====
section
/-! DEFINITION. The named operations on the state: register reads and writes (00_scope.md R7), the ways a command
ends (success, failure, waiting for a draw), and reset. -/

namespace Sys2Proof.Machine

/-- The outcome of a step of CORE. -/
abbrev Outcome := Host.Outcome State Fault Refusal

/-- The content of a register whose valid bit may be 0; reading an invalid one raises `RegInvalid` (R7, R24). -/
def validOr {α : Type} : Option α → Except Failure α
  | none => .error .regInvalid
  | some v => .ok v

/-- `K[i]` (R7). -/
def State.readK (s : State) (i : KReg) : Except Failure Word := validOr (s.k[i.toNat]'i.isLt)

/-- `F[i]` (R7). -/
def State.readF (s : State) (i : FReg) : Except Failure FE := validOr (s.f[i.toNat]'i.isLt)

/-- `P[i]` (R7). -/
def State.readP (s : State) (i : PReg) : Except Failure Pt := validOr (s.p[i.toNat]'i.isLt)

/-- `K[i] <- v`: the whole register, valid afterwards (R7, R24). -/
def State.writeK (s : State) (i : KReg) (v : Word) : State :=
  { s with k := s.k.set i.toNat (some v) i.isLt }

/-- `F[i] <- e` (R7, R24). -/
def State.writeF (s : State) (i : FReg) (e : FE) : State :=
  { s with f := s.f.set i.toNat (some e) i.isLt }

/-- `P[i] <- t` (R7, R24). -/
def State.writeP (s : State) (i : PReg) (t : Pt) : State :=
  { s with p := s.p.set i.toNat (some t) i.isLt }

/-- The response `(CC, FLAG, DOUT)` with FLAG as STATUS has it now (R64); the block is idle again. -/
def State.respond (s : State) (c : CC) (dout : Word) : State :=
  { s with rsp := some ⟨c, s.status.flag, dout⟩, cmd := none, rngReq := false }

/-- The end of a command other than STATRD (R31): STATUS is updated, then the response is given. -/
def State.ended (s : State) (c : CC) (dout : Word) : State :=
  State.respond { s with status := s.status.ended c } c dout

/-- Success with a data-out value (R64, R65). -/
def State.completeWith (s : State) (dout : Word) : State := s.ended .ok dout

/-- Success of a command that sets no `DOUT` (R64). -/
def State.complete (s : State) : State := s.completeWith 0

/-- Taking a failure, the block's whole "trap entry" (R293): no register written, `CC` and the sticky bit set,
FLAG and VRES kept, `DOUT = 0`. There is nothing to return from (R296). -/
def State.raise (s : State) (k : Failure) : State := s.ended (.fail k) 0

/-- The command in hand has consumed every draw there is and asks for one more (R36, R336): `rng_req = 1`, no
response, no register written. DEDUCED, log 3. -/
def State.awaitDraw (s : State) : State := { s with rngReq := true, draws := [] }

/-- The draws still to come, after a command took some (R36). -/
def State.withDraws (s : State) (rest : List Word) : State := { s with draws := rest }

/-- The end of a command whose rule ran to the state `t` or raised a failure (R65): all its writes and success, or
none of them and the failure. -/
def finish (s : State) : Except Failure State → Outcome
  | .ok t => .next t.complete
  | .error k => .next (s.raise k)

/-- The end of a command whose rule yields a `DOUT` value or raises (R64, R102). -/
def finishOut (s : State) : Except Failure Word → Outcome
  | .ok v => .next (s.completeWith v)
  | .error k => .next (s.raise k)

/-- The state when `rst` falls (R37, R39, R323): everything of the block at its reset value, whatever it was; the
host's further moves and the random source's further values are not the block's. -/
def State.afterReset (s : State) : State :=
  { State.reset with draws := s.draws, host := s.host }

end Sys2Proof.Machine
end

