-- ==== Sys2Proof/Machine/Arith.lean ====
section
/-! DEFINITION. The integer arithmetic of the field units: reduction (00_scope.md R5), construction (41 R120, R121),
`field_adder` and `field_subtracter` (42 R140, R141). -/

namespace Sys2Proof.Machine

/-- `u mod m` of R5 as a word: the value in `[0, m)` congruent to `u`, for negative `u` as well. Operands are exact
integers, and the result is narrowed here only. (For `m = 0`, which no valid register holds, see log 12.) -/
def reduce (u : Int) (m : Word) : Word := BitVec.ofInt 256 (u % (m.toNat : Int))

/-- `ModulusOk(m)` (R120): odd and at least 3. -/
def modulusOk (m : Word) : Bool := m.toNat % 2 == 1 && decide (3 ≤ m.toNat)

/-- `FNew(v, m)` (R121). -/
def fNew (v m : Word) : Except Failure FE :=
  if modulusOk m then .ok ⟨reduce v.toNat m, m⟩ else .error .badModulus

/-- `SameField(a, b)` (R121). -/
def sameField (a b : FE) : Bool := a.modulus == b.modulus

/-- `FAdd(a, b)` (R140). -/
def fAdd (a b : FE) : Except Failure FE :=
  if sameField a b then .ok ⟨reduce ((a.value.toNat : Int) + b.value.toNat) a.modulus, a.modulus⟩
  else .error .fieldMismatch

/-- `FSub(a, b)` (R141). -/
def fSub (a b : FE) : Except Failure FE :=
  if sameField a b then .ok ⟨reduce ((a.value.toNat : Int) - b.value.toNat) a.modulus, a.modulus⟩
  else .error .fieldMismatch

/-- The value `field_adder` forms: one addition in 257 bits and one conditional subtraction (R140). -/
def adderUnit (a b m : Nat) : Nat := if a + b ≥ m then a + b - m else a + b

/-- The value `field_subtracter` forms: one subtraction and one conditional addition (R141). -/
def subtracterUnit (a b m : Nat) : Int := if (a : Int) - b < 0 then (a : Int) - b + m else (a : Int) - b

end Sys2Proof.Machine
end

