-- ==== Sys2Proof/Machine/Montgomery.lean ====
section
/-! DEFINITION. The unit `montgomery_modular_mult` (43_montgomery_modular_mult.md): the mechanism (R151 to R153) and the
contract functions `FMul`, `FPow` (R154, R155). -/

namespace Sys2Proof.Machine

/-- `n` steps `inv = (inv * (2 - m * inv)) mod R` of R151; word arithmetic is arithmetic modulo `R`. -/
def newton (m : Word) : Nat → Word → Word
  | 0, inv => inv
  | n + 1, inv => newton m n (inv * (2 - m * inv))

/-- `m' = (-(m^-1)) mod R` (R151): eight steps from 1, then negated. -/
def montNegInv (m : Word) : Word := -(newton m 8 1)

/-- `R2 = 2^512 mod m` (R151). -/
def montR2 (m : Word) : Nat := 2 ^ 512 % m.toNat

/-- `REDC(T, m)` (R152). -/
def redc (t : Nat) (m : Word) : Nat :=
  let q := (t % Config.montR * (montNegInv m).toNat) % Config.montR
  let u := (t + q * m.toNat) / Config.montR
  if u ≥ m.toNat then u - m.toNat else u

/-- `MontMul(x, y, m) = REDC(x * y, m)` (R153). -/
def montMul (x y : Nat) (m : Word) : Nat := redc (x * y) m

/-- `FMul(a, b)` by its contract, the first sentence of R154. -/
def fMul (a b : FE) : Except Failure FE :=
  if sameField a b then .ok ⟨reduce ((a.value.toNat : Int) * b.value.toNat) a.modulus, a.modulus⟩
  else .error .fieldMismatch

/-- The value the unit reaches for `FMul` in two Montgomery passes (R154). -/
def fMulTwoPass (a b : FE) : Nat :=
  montMul (montMul a.value.toNat b.value.toNat a.modulus) (montR2 a.modulus) a.modulus

/-- FMONT's result (R157): one raw pass. -/
def fMont (a b : FE) : Except Failure FE :=
  if sameField a b then .ok ⟨BitVec.ofNat 256 (montMul a.value.toNat b.value.toNat a.modulus), a.modulus⟩
  else .error .fieldMismatch

/-- The square-and-multiply loop of R155 in plain residues, least significant exponent bit first; the first
argument bounds the passes. -/
def powLoop (m : Nat) : Nat → Nat → Nat → Nat → Nat
  | 0, acc, _, _ => acc
  | n + 1, acc, base, e =>
    if e = 0 then acc
    else powLoop m n (if e % 2 = 1 then acc * base % m else acc) (base * base % m) (e / 2)

/-- `x ^ e mod m` by repeated squaring; an exponent of 256 bits needs at most 256 passes (R155). -/
def powMod (x e m : Nat) : Nat := powLoop m 256 (1 % m) (x % m) e

/-- `FPow(a, e)` (R155). DEDUCED (log 10): plain residues where the unit keeps Montgomery forms; the value is the
contract's. -/
def fPow (a : FE) (e : Word) : FE :=
  ⟨BitVec.ofNat 256 (powMod a.value.toNat e.toNat a.modulus.toNat), a.modulus⟩

/-- The loop of R155 as the unit runs it, in Montgomery form. -/
def powLoopMont (m : Word) : Nat → Nat → Nat → Nat → Nat
  | 0, acc, _, _ => acc
  | n + 1, acc, base, e =>
    if e = 0 then acc
    else powLoopMont m n (if e % 2 = 1 then montMul acc base m else acc) (montMul base base m) (e / 2)

/-- The value the unit reaches for `FPow` (R155): into Montgomery form, the loop, and back. -/
def fPowMont (a : FE) (e : Word) : Nat :=
  montMul (powLoopMont a.modulus 256 (montMul 1 (montR2 a.modulus) a.modulus)
    (montMul a.value.toNat (montR2 a.modulus) a.modulus) e.toNat) 1 a.modulus

end Sys2Proof.Machine
end

