-- ==== Sys2Proof/Machine/Inverter.lean ====
section
/-! DEFINITION. The unit `modular_inverter` (44_modular_inverter.md): `FInv` by Euclid's loop (R171) and `FDiv` (R174). -/

namespace Sys2Proof.Machine

/-- The loop of R171 on `(old_r, r)` and `(old_x, x)`, answering `(old_r, old_x)` when `r = 0`. `r` strictly
decreases, so more passes than `r` (the first argument) never run out. -/
def euclidLoop : Nat → Nat → Nat → Int → Int → Nat × Int
  | 0, oldR, _, oldX, _ => (oldR, oldX)
  | n + 1, oldR, r, oldX, x =>
    if r = 0 then (oldR, oldX)
    else euclidLoop n r (oldR - oldR / r * r) x (oldX - (oldR / r : Nat) * x)

/-- `gcd(v, m)` and a coefficient `x` with `v * x = gcd (mod m)` (R171). -/
def euclid (v m : Nat) : Nat × Int := euclidLoop (m + 1) v m 1 0

/-- `FInv(a)` (R171): `NotInvertible` unless the gcd is 1, else the coefficient brought into `[0, m)` (log 11). -/
def fInv (a : FE) : Except Failure FE :=
  match euclid a.value.toNat a.modulus.toNat with
  | (g, x) => if g = 1 then .ok ⟨reduce x a.modulus, a.modulus⟩ else .error .notInvertible

/-- `FDiv(a, b)` (R174): the field check comes first. -/
def fDiv (a b : FE) : Except Failure FE :=
  if sameField a b then do
    let c ← fInv b
    fMul a c
  else .error .fieldMismatch

end Sys2Proof.Machine
end

