-- ==== Sys2Proof/Machine/Curve.lean ====
section
/-! DEFINITION. The curve units: the curve equation and point equality (45_point_regs.md R185, R186),
`elliptic_curve_point_adder` (46 R206) and `scalar_multiplier` (47 R221). -/

namespace Sys2Proof.Machine

/-- `OnCurve(x, y, a, b, m)` (R185). -/
def onCurve (x y a b m : Word) : Bool :=
  reduce ((y.toNat : Int) * y.toNat) m
    == reduce ((x.toNat : Int) * x.toNat * x.toNat + a.toNat * x.toNat + b.toNat) m

/-- `PtEq(p, q)` (R186): the same record, the modulus included; total. -/
def ptEq (p q : Pt) : Bool := decide (p = q)

/-- The tail of cases 3 and 4 of R206: the slope `num / den` and the third point of the line. -/
def chord (num den : Word) (x1 y1 x2 a b m : Word) : Except Failure Pt := do
  let i ← fInv ⟨den, m⟩
  let lam := reduce ((num.toNat : Int) * i.value.toNat) m
  let x3 := reduce ((lam.toNat : Int) * lam.toNat - x1.toNat - x2.toNat) m
  let y3 := reduce ((lam.toNat : Int) * ((x1.toNat : Int) - x3.toNat) - y1.toNat) m
  pure (.aff x3 y3 a b m)

/-- Cases 2 to 4 of R206, two affine points of one curve; doubling at `y1 = 0` is Infinity (R208). -/
def addAffine (x1 y1 x2 y2 a b m : Word) : Except Failure Pt :=
  if x1 = x2 then
    if y1 ≠ y2 then .ok (.inf a b m)
    else if y1 = 0 then .ok (.inf a b m)
    else chord (reduce (3 * (x1.toNat : Int) * x1.toNat + a.toNat) m) (reduce (2 * (y1.toNat : Int)) m)
      x1 y1 x2 a b m
  else chord (reduce ((y2.toNat : Int) - y1.toNat) m) (reduce ((x2.toNat : Int) - x1.toNat) m)
    x1 y1 x2 a b m

/-- `PAdd(p, q)` (R206): compatibility first, then the identity cases, then cases 2 to 4. -/
def pAdd (p q : Pt) : Except Failure Pt :=
  if p.m ≠ q.m ∨ p.a ≠ q.a ∨ p.b ≠ q.b then .error .curveMismatch
  else
    match p, q with
    | .inf _ _ _, _ => .ok q
    | .aff _ _ _ _ _, .inf _ _ _ => .ok p
    | .aff x1 y1 a b m, .aff x2 y2 _ _ _ => addAffine x1 y1 x2 y2 a b m

/-- The addition of one pass of R221: only when the scalar's low bit is 1. -/
def addOnBit (k : Nat) (acc base : Pt) : Except Failure Pt := if k % 2 = 1 then pAdd acc base else .ok acc

/-- The loop of R221: add when the low bit is 1, double always (the last doubling included, R223), shift. The first
argument bounds the passes. -/
def scalarLoop : Nat → Pt → Pt → Nat → Except Failure Pt
  | 0, acc, _, _ => .ok acc
  | n + 1, acc, base, k =>
    if k = 0 then .ok acc
    else do
      let acc' ← addOnBit k acc base
      let base' ← pAdd base base
      scalarLoop n acc' base' (k / 2)

/-- `ScalarMul(p, k)` (R221); a 256-bit scalar needs at most 256 passes. -/
def scalarMul (p : Pt) (k : Word) : Except Failure Pt :=
  scalarLoop 256 (.inf p.a p.b p.m) p k.toNat

end Sys2Proof.Machine
end

