-- ==== Sys2Proof/Machine/Operands.lean ====
section
/-! DEFINITION. The operand forms of the commands: which sources a command reads together, before anything else is
checked (20_memory.md R66, 60_exceptions.md R294 step 3). -/

namespace Sys2Proof.Machine

/-- Two K sources. -/
def State.readKK (s : State) (i j : KReg) : Except Failure (Word × Word) := do
  let x ← s.readK i
  let y ← s.readK j
  pure (x, y)

/-- Two F sources. -/
def State.readFF (s : State) (i j : FReg) : Except Failure (FE × FE) := do
  let x ← s.readF i
  let y ← s.readF j
  pure (x, y)

/-- An F and a K source (FPOW). -/
def State.readFK (s : State) (i : FReg) (j : KReg) : Except Failure (FE × Word) := do
  let x ← s.readF i
  let y ← s.readK j
  pure (x, y)

/-- Two P sources. -/
def State.readPP (s : State) (i j : PReg) : Except Failure (Pt × Pt) := do
  let x ← s.readP i
  let y ← s.readP j
  pure (x, y)

/-- A P and a K source (PMUL). -/
def State.readPK (s : State) (i : PReg) (j : KReg) : Except Failure (Pt × Word) := do
  let x ← s.readP i
  let y ← s.readK j
  pure (x, y)

/-- The four F sources of PNEW's affine form. -/
def State.readFFFF (s : State) (i j u v : FReg) : Except Failure (FE × FE × FE × FE) := do
  let x ← s.readF i
  let y ← s.readF j
  let a ← s.readF u
  let b ← s.readF v
  pure (x, y, a, b)

/-- VERIFY's three K sources and its P source. -/
def State.readKKKP (s : State) (i j u : KReg) (v : PReg) : Except Failure (Word × Word × Word × Pt) := do
  let x ← s.readK i
  let y ← s.readK j
  let z ← s.readK u
  let q ← s.readP v
  pure (x, y, z, q)

end Sys2Proof.Machine
end

