-- ==== Sys2Proof/Machine/CurveParams.lean ====
section
/-! DEFINITION. The commands on the constant ROM (48_curve_parameters.md): CPP, CPN, CPA, CPB, CPG, CPPOINT, LIFTX. -/

namespace Sys2Proof.Machine

open Sys2Proof.Config

/-- CPP (R236). -/
def execCpp (kd : KReg) (s : State) : Outcome := .next (s.writeK kd cpP).complete

/-- CPN (R237). -/
def execCpn (kd : KReg) (s : State) : Outcome := .next (s.writeK kd cpN).complete

/-- CPA (R238). -/
def execCpa (fd : FReg) (s : State) : Outcome := .next (s.writeF fd cpA).complete

/-- CPB (R239). -/
def execCpb (fd : FReg) (s : State) : Outcome := .next (s.writeF fd cpB).complete

/-- CPG (R240): the copy is not re-validated. -/
def execCpg (pd : PReg) (s : State) : Outcome := .next (s.writeP pd cpG).complete

/-- The affine point of the ROM's curve with reduced coordinates, if it is on it (R241). -/
def romPoint (x y : Word) : Except Failure Pt :=
  if onCurve x y 0 7 cpP then .ok (.aff x y 0 7 cpP) else .error .notOnCurve

/-- CPPOINT (R241): both integers are reduced modulo `p` first. -/
def execCppoint (pd : PReg) (kx ky : KReg) (s : State) : Outcome :=
  finish s do
    let (x, y) ← s.readKK kx ky
    let t ← romPoint (reduce x.toNat cpP) (reduce y.toNat cpP)
    pure (s.writeP pd t)

/-- `w = x^3 + a*x + b mod p` of R242, for a reduced `x`. -/
def liftW (x : Word) : Word := reduce ((x.toNat : Int) * x.toNat * x.toNat + 0 * x.toNat + 7) cpP

/-- The point LIFTX yields for a K value (R242): the modulus test, the Legendre test, the root, the curve check. -/
def liftX (v : Word) : Except Failure Pt :=
  let x := reduce v.toNat cpP
  let w : FE := ⟨liftW x, cpP⟩
  if cpP.toNat % 4 ≠ 3 then .error .unsupportedModulus
  else if (fPow w (BitVec.ofNat 256 ((cpP.toNat - 1) / 2))).value ≠ 1 then .error .noSquareRoot
  else romPoint x (fPow w (BitVec.ofNat 256 ((cpP.toNat + 1) / 4))).value

/-- LIFTX (R242). -/
def execLiftx (pd : PReg) (kx : KReg) (s : State) : Outcome :=
  finish s do
    let v ← s.readK kx
    let t ← liftX v
    pure (s.writeP pd t)

end Sys2Proof.Machine
end

