-- ==== Sys2Proof/Machine/Ecdsa.lean ====
section
/-! DEFINITION. `ecdsa_sign_engine` and `ecdsa_verify_engine` (49_ecdsa_engines.md): KEYPAIR, KEYGEN, SIGN, VERIFY. -/

namespace Sys2Proof.Machine

open Sys2Proof.Config

/-- Membership of `[1, n-1]`: the test of R256, R257, R260 and, for `r` and `s`, R262. -/
def inScalarRange (c : Word) : Bool := decide (c ≠ 0) && decide (c.toNat < cpN.toNat)

/-- `SampleScalar()` (R256) on the values the random source will deliver: rejected draws are consumed, and so is the
accepted one; `none` when the source gives no acceptable value. -/
def sampleScalar : List Word → Option (Word × List Word)
  | [] => none
  | c :: rest => if inScalarRange c then some (c, rest) else sampleScalar rest

/-- KEYPAIR's point (R257). -/
def keyPair (d : Word) : Except Failure Pt :=
  if inScalarRange d then scalarMul cpG d else .error .invalidScalar

/-- KEYPAIR (R257). -/
def execKeypair (pq : PReg) (kd : KReg) (s : State) : Outcome :=
  finish s do
    let d ← s.readK kd
    let q ← keyPair d
    pure (s.writeP pq q)

/-- KEYGEN (R258): both registers are written together. Without an acceptable draw the command waits (R336, log 3). -/
def execKeygen (pq : PReg) (kd : KReg) (s : State) : Outcome :=
  match sampleScalar s.draws with
  | none => .next s.awaitDraw
  | some (d, rest) =>
    finish (s.withDraws rest) do
      let q ← scalarMul cpG d
      pure (((s.withDraws rest).writeP pq q).writeK kd d)

/-- The product `x *n y` of R260. -/
def mulN (x y : Word) : Word := reduce ((x.toNat : Int) * y.toNat) cpN

/-- The sum `x +n y` of R260. -/
def addN (x y : Word) : Word := reduce ((x.toNat : Int) + y.toNat) cpN

/-- One pass of SIGN's loop with the nonce `k` (R260, steps 3 and 4): the signature, or `none` to resample. -/
def signPass (z d k : Word) : Except Failure (Option (Word × Word)) := do
  let pt ← scalarMul cpG k
  match pt with
  | .inf _ _ _ => pure none
  | .aff x _ _ _ _ =>
    let r := reduce x.toNat cpN
    if r = 0 then pure none
    else do
      let kinv ← fInv ⟨k, cpN⟩
      let e := addN (reduce z.toNat cpN) (mulN r d)
      let t := mulN kinv.value e
      if t = 0 then pure none else pure (some (r, t))

/-- How SIGN's loop ends: a signature, a failure (unreachable, R302), or no draw left; the first two with the draws
not taken. -/
inductive SignEnd where
  | signed (r t : Word) (rest : List Word)
  | failed (k : Failure) (rest : List Word)
  | starved
  deriving DecidableEq, Repr

/-- SIGN's loop (R260): each draw is rejected, or is the nonce of one pass; a pass without a signature resamples. -/
def signLoop (z d : Word) : List Word → SignEnd
  | [] => .starved
  | c :: rest =>
    if inScalarRange c then
      match signPass z d c with
      | .error k => .failed k rest
      | .ok (some (r, t)) => .signed r t rest
      | .ok none => signLoop z d rest
    else signLoop z d rest

/-- The operands of SIGN after every check that precedes the loop (R260): the digest and the private scalar. -/
def signOperands (kr ks kz kd : KReg) (s : State) : Except Failure (Word × Word) :=
  if kr = ks then .error .illegalCommand
  else do
    let (z, d) ← s.readKK kz kd
    if inScalarRange d then pure (z, d) else .error .invalidScalar

/-- SIGN (R260): draws taken stay taken whatever the end (R293). -/
def execSign (kr ks kz kd : KReg) (s : State) : Outcome :=
  match signOperands kr ks kz kd s with
  | .error k => .next (s.raise k)
  | .ok (z, d) =>
    match signLoop z d s.draws with
    | .signed r t rest => .next (((s.withDraws rest).writeK kr r).writeK ks t).complete
    | .failed k rest => .next ((s.withDraws rest).raise k)
    | .starved => .next s.awaitDraw

/-- Steps 3 to 5 of VERIFY (R262), for a signature of good shape and a point of the ROM's curve. -/
def verifyEquation (z r t : Word) (q : Pt) : Except Failure VerifyResult := do
  let tinv ← fInv ⟨t, cpN⟩
  let u1 := mulN (reduce z.toNat cpN) tinv.value
  let u2 := mulN r tinv.value
  let g1 ← scalarMul cpG u1
  let q2 ← scalarMul q u2
  let sum ← pAdd g1 q2
  match sum with
  | .inf _ _ _ => pure .atInfinity
  | .aff x _ _ _ _ => pure (if r = reduce x.toNat cpN then .valid else .unequal)

/-- VERIFY's result (R262): the shape test, then the curve test, then the equation. -/
def verifySig (z r t : Word) (q : Pt) : Except Failure VerifyResult :=
  if inScalarRange r && inScalarRange t then
    if q.curve ≠ (0, 7, cpP) then .error .curveMismatch else verifyEquation z r t q
  else .ok .badShape

/-- VERIFY (R262). -/
def execVerify (kz kr ks : KReg) (pq : PReg) (s : State) : Outcome :=
  finish s do
    let (z, r, t, q) ← s.readKKKP kz kr ks pq
    let v ← verifySig z r t q
    pure (s.setVerify v)

end Sys2Proof.Machine
end

