-- ==== Sys2Proof/Machine/FieldArith.lean ====
section
/-! DEFINITION. Field arithmetic: FADD, FSUB (42), FMUL, FMONT, FPOW (43), FINV, FDIV (44). -/

namespace Sys2Proof.Machine

/-- A command `F[A] <- op(F[B], F[C])`. -/
def fieldBinary (op : FE → FE → Except Failure FE) (fd fs1 fs2 : FReg) (s : State) : Outcome :=
  finish s do
    let (a, b) ← s.readFF fs1 fs2
    let e ← op a b
    pure (s.writeF fd e)

/-- FADD (R142). -/
def execFadd (fd fs1 fs2 : FReg) (s : State) : Outcome := fieldBinary fAdd fd fs1 fs2 s

/-- FSUB (R143). -/
def execFsub (fd fs1 fs2 : FReg) (s : State) : Outcome := fieldBinary fSub fd fs1 fs2 s

/-- FMUL (R156). -/
def execFmul (fd fs1 fs2 : FReg) (s : State) : Outcome := fieldBinary fMul fd fs1 fs2 s

/-- FMONT (R157). -/
def execFmont (fd fs1 fs2 : FReg) (s : State) : Outcome := fieldBinary fMont fd fs1 fs2 s

/-- FPOW (R158). -/
def execFpow (fd fs : FReg) (ke : KReg) (s : State) : Outcome :=
  finish s do
    let (a, e) ← s.readFK fs ke
    pure (s.writeF fd (fPow a e))

/-- FINV (R175). -/
def execFinv (fd fs : FReg) (s : State) : Outcome :=
  finish s do
    let a ← s.readF fs
    let e ← fInv a
    pure (s.writeF fd e)

/-- FDIV (R176). -/
def execFdiv (fd fs1 fs2 : FReg) (s : State) : Outcome := fieldBinary fDiv fd fs1 fs2 s

end Sys2Proof.Machine
end

