-- ==== Sys2Proof/Machine/FieldRegs.lean ====
section
/-! DEFINITION. Field-element construction and access (41_field_element_regs.md): FNEW, FZERO, FVAL, FMODU, FMOV, FEQ. -/

namespace Sys2Proof.Machine

/-- FNEW (R122). -/
def execFnew (fd : FReg) (kv km : KReg) (s : State) : Outcome :=
  finish s do
    let (v, m) ← s.readKK kv km
    let e ← fNew v m
    pure (s.writeF fd e)

/-- FZERO (R123). -/
def execFzero (fd : FReg) (km : KReg) (s : State) : Outcome :=
  finish s do
    let m ← s.readK km
    let e ← fNew 0 m
    pure (s.writeF fd e)

/-- FVAL (R124). -/
def execFval (kd : KReg) (fs : FReg) (s : State) : Outcome :=
  finish s do
    let e ← s.readF fs
    pure (s.writeK kd e.value)

/-- FMODU (R125). -/
def execFmodu (kd : KReg) (fs : FReg) (s : State) : Outcome :=
  finish s do
    let e ← s.readF fs
    pure (s.writeK kd e.modulus)

/-- FMOV (R126). -/
def execFmov (fd fs : FReg) (s : State) : Outcome :=
  finish s do
    let e ← s.readF fs
    pure (s.writeF fd e)

/-- FEQ's value (R127): comparing across fields is `FieldMismatch`. -/
def fEq (a b : FE) : Except Failure Bool :=
  if sameField a b then .ok (a.value == b.value) else .error .fieldMismatch

/-- FEQ (R127). -/
def execFeq (fs1 fs2 : FReg) (s : State) : Outcome :=
  finish s do
    let (a, b) ← s.readFF fs1 fs2
    let r ← fEq a b
    pure (s.setFlag r)

end Sys2Proof.Machine
end

