-- ==== Sys2Proof/Machine/Interface.lean ====
section
/-! DEFINITION. The interface commands (40_system_and_scalar_regs.md): NOP, KLD, KST, KMOV, STATRD, ERRCLR. -/

namespace Sys2Proof.Machine

/-- NOP (R100): only CC changes. -/
def execNop (s : State) : Outcome := .next s.complete

/-- KLD (R101): `K[A] <- DIN`. -/
def execKld (kd : KReg) (s : State) : Outcome := .next (s.writeK kd s.din).complete

/-- KST (R102): `DOUT <- K[B]`. -/
def execKst (ks : KReg) (s : State) : Outcome := finishOut s (s.readK ks)

/-- KMOV (R103): `K[A] <- K[B]`. -/
def execKmov (kd ks : KReg) (s : State) : Outcome :=
  finish s do
    let v ← s.readK ks
    pure (s.writeK kd v)

/-- STATRD (R104): `DOUT` is STATUS as it stands; STATUS is not changed in any bit, CC included (R31). -/
def execStatrd (s : State) : Outcome := .next (s.respond .ok (s.status.word.setWidth 256))

/-- ERRCLR (R105): `STATUS.ERRS <- 0`. -/
def execErrclr (s : State) : Outcome := .next s.clearErrs.complete

end Sys2Proof.Machine
end

