-- ==== Sys2Proof/Machine/Points.lean ====
section
/-! DEFINITION. Point construction, access and equality (45_point_regs.md), PADD (46 R207) and PMUL (47 R222). -/

namespace Sys2Proof.Machine

/-- PNEW's Infinity form (R187, `XP = YP = 0`): the fields B and C are ignored. -/
def newInf (fa fb : FE) : Except Failure Pt :=
  if fa.modulus ≠ fb.modulus then .error .fieldMismatch
  else .ok (.inf fa.value fb.value fa.modulus)

/-- PNEW's affine form (R187, `XP = YP = 1`): field checks, then the curve equation. -/
def newAff (fx fy fa fb : FE) : Except Failure Pt :=
  if fa.modulus ≠ fb.modulus then .error .fieldMismatch
  else if fx.modulus ≠ fa.modulus ∨ fy.modulus ≠ fa.modulus then .error .fieldMismatch
  else if onCurve fx.value fy.value fa.value fb.value fa.modulus then
    .ok (.aff fx.value fy.value fa.value fb.value fa.modulus)
  else .error .notOnCurve

/-- PNEW (R187): the shape is decided from the mode bits before any register is read. -/
def execPnew (pd : PReg) (fx fy fa fb : FReg) (xp yp : Bool) (s : State) : Outcome :=
  finish s <|
    match xp, yp with
    | false, false => do
      let (a, b) ← s.readFF fa fb
      let t ← newInf a b
      pure (s.writeP pd t)
    | true, true => do
      let (x, y, a, b) ← s.readFFFF fx fy fa fb
      let t ← newAff x y a b
      pure (s.writeP pd t)
    | true, false => .error .invalidPointShape
    | false, true => .error .invalidPointShape

/-- The `x` coordinate of a point; Infinity has none (R188). -/
def coordX : Pt → Except Failure FE
  | .inf _ _ _ => .error .noCoordinate
  | .aff x _ _ _ m => .ok ⟨x, m⟩

/-- The `y` coordinate of a point; Infinity has none (R189). -/
def coordY : Pt → Except Failure FE
  | .inf _ _ _ => .error .noCoordinate
  | .aff _ y _ _ m => .ok ⟨y, m⟩

/-- PGETX (R188). -/
def execPgetx (fd : FReg) (ps : PReg) (s : State) : Outcome :=
  finish s do
    let p ← s.readP ps
    let e ← coordX p
    pure (s.writeF fd e)

/-- PGETY (R189). -/
def execPgety (fd : FReg) (ps : PReg) (s : State) : Outcome :=
  finish s do
    let p ← s.readP ps
    let e ← coordY p
    pure (s.writeF fd e)

/-- PGETA (R190): works for Infinity too. -/
def execPgeta (fd : FReg) (ps : PReg) (s : State) : Outcome :=
  finish s do
    let p ← s.readP ps
    pure (s.writeF fd ⟨p.a, p.m⟩)

/-- PGETB (R191): works for Infinity too. -/
def execPgetb (fd : FReg) (ps : PReg) (s : State) : Outcome :=
  finish s do
    let p ← s.readP ps
    pure (s.writeF fd ⟨p.b, p.m⟩)

/-- PISINF (R192). -/
def execPisinf (ps : PReg) (s : State) : Outcome :=
  finish s do
    let p ← s.readP ps
    pure (s.setFlag p.isInf)

/-- PEQ (R193): never a mismatch failure. -/
def execPeq (ps1 ps2 : PReg) (s : State) : Outcome :=
  finish s do
    let (p, q) ← s.readPP ps1 ps2
    pure (s.setFlag (ptEq p q))

/-- PMOV (R194). -/
def execPmov (pd ps : PReg) (s : State) : Outcome :=
  finish s do
    let p ← s.readP ps
    pure (s.writeP pd p)

/-- PADD (R207). -/
def execPadd (pd ps1 ps2 : PReg) (s : State) : Outcome :=
  finish s do
    let (p, q) ← s.readPP ps1 ps2
    let t ← pAdd p q
    pure (s.writeP pd t)

/-- PMUL (R222): the scalar is not reduced and not range-checked. -/
def execPmul (pd ps : PReg) (kk : KReg) (s : State) : Outcome :=
  finish s do
    let (p, k) ← s.readPK ps kk
    let t ← scalarMul p k
    pure (s.writeP pd t)

end Sys2Proof.Machine
end

