-- ==== Sys2Proof/Syntax.lean ====
section
/-! DEFINITION. The forty commands of CORE-CMD 1.0, one constructor per row of the opcode map (30_encoding.md R84).
Arguments stand in the order of the fields they occupy (A, B, C, D, E, then the mode bits of PNEW). -/

namespace Sys2Proof

/-- A command. The opcode fixes which register file a field names (R81), so the index types differ. -/
inductive Instr where
  -- interface (40)
  | nop
  | kld (kd : KReg)
  | kst (ks : KReg)
  | kmov (kd ks : KReg)
  | statrd
  | errclr
  -- field-element construction and access (41)
  | fnew (fd : FReg) (kv km : KReg)
  | fzero (fd : FReg) (km : KReg)
  | fval (kd : KReg) (fs : FReg)
  | fmodu (kd : KReg) (fs : FReg)
  | fmov (fd fs : FReg)
  | feq (fs1 fs2 : FReg)
  -- field arithmetic (42, 43, 44)
  | fadd (fd fs1 fs2 : FReg)
  | fsub (fd fs1 fs2 : FReg)
  | fmul (fd fs1 fs2 : FReg)
  | fmont (fd fs1 fs2 : FReg)
  | fpow (fd fs : FReg) (ke : KReg)
  | finv (fd fs : FReg)
  | fdiv (fd fs1 fs2 : FReg)
  -- points (45, 46, 47); `xp`, `yp` are the presence bits `M[1]`, `M[0]` of R82
  | pnew (pd : PReg) (fx fy fa fb : FReg) (xp yp : Bool)
  | pgetx (fd : FReg) (ps : PReg)
  | pgety (fd : FReg) (ps : PReg)
  | pgeta (fd : FReg) (ps : PReg)
  | pgetb (fd : FReg) (ps : PReg)
  | pisinf (ps : PReg)
  | peq (ps1 ps2 : PReg)
  | pmov (pd ps : PReg)
  | padd (pd ps1 ps2 : PReg)
  | pmul (pd ps : PReg) (kk : KReg)
  -- curve parameters (48)
  | cpp (kd : KReg)
  | cpn (kd : KReg)
  | cpa (fd : FReg)
  | cpb (fd : FReg)
  | cpg (pd : PReg)
  | cppoint (pd : PReg) (kx ky : KReg)
  | liftx (pd : PReg) (kx : KReg)
  -- ECDSA (49)
  | keypair (pq : PReg) (kd : KReg)
  | keygen (pq : PReg) (kd : KReg)
  | sign (kr ks kz kd : KReg)
  | verify (kz kr ks : KReg) (pq : PReg)
  deriving DecidableEq, Repr

end Sys2Proof
end

