-- ==== Sys2Proof/Machine/Dispatch.lean ====
section
/-! DEFINITION. The meaning of each command: one arm per constructor of `Instr`, each a direct call. -/

namespace Sys2Proof.Machine

def exec (i : Instr) (s : State) : Host.Outcome State Fault Refusal :=
  match i with
  | .nop => Sys2Proof.Machine.execNop s
  | .kld kd => Sys2Proof.Machine.execKld kd s
  | .kst ks => Sys2Proof.Machine.execKst ks s
  | .kmov kd ks => Sys2Proof.Machine.execKmov kd ks s
  | .statrd => Sys2Proof.Machine.execStatrd s
  | .errclr => Sys2Proof.Machine.execErrclr s
  | .fnew fd kv km => Sys2Proof.Machine.execFnew fd kv km s
  | .fzero fd km => Sys2Proof.Machine.execFzero fd km s
  | .fval kd fs => Sys2Proof.Machine.execFval kd fs s
  | .fmodu kd fs => Sys2Proof.Machine.execFmodu kd fs s
  | .fmov fd fs => Sys2Proof.Machine.execFmov fd fs s
  | .feq fs1 fs2 => Sys2Proof.Machine.execFeq fs1 fs2 s
  | .fadd fd fs1 fs2 => Sys2Proof.Machine.execFadd fd fs1 fs2 s
  | .fsub fd fs1 fs2 => Sys2Proof.Machine.execFsub fd fs1 fs2 s
  | .fmul fd fs1 fs2 => Sys2Proof.Machine.execFmul fd fs1 fs2 s
  | .fmont fd fs1 fs2 => Sys2Proof.Machine.execFmont fd fs1 fs2 s
  | .fpow fd fs ke => Sys2Proof.Machine.execFpow fd fs ke s
  | .finv fd fs => Sys2Proof.Machine.execFinv fd fs s
  | .fdiv fd fs1 fs2 => Sys2Proof.Machine.execFdiv fd fs1 fs2 s
  | .pnew pd fx fy fa fb xp yp => Sys2Proof.Machine.execPnew pd fx fy fa fb xp yp s
  | .pgetx fd ps => Sys2Proof.Machine.execPgetx fd ps s
  | .pgety fd ps => Sys2Proof.Machine.execPgety fd ps s
  | .pgeta fd ps => Sys2Proof.Machine.execPgeta fd ps s
  | .pgetb fd ps => Sys2Proof.Machine.execPgetb fd ps s
  | .pisinf ps => Sys2Proof.Machine.execPisinf ps s
  | .peq ps1 ps2 => Sys2Proof.Machine.execPeq ps1 ps2 s
  | .pmov pd ps => Sys2Proof.Machine.execPmov pd ps s
  | .padd pd ps1 ps2 => Sys2Proof.Machine.execPadd pd ps1 ps2 s
  | .pmul pd ps kk => Sys2Proof.Machine.execPmul pd ps kk s
  | .cpp kd => Sys2Proof.Machine.execCpp kd s
  | .cpn kd => Sys2Proof.Machine.execCpn kd s
  | .cpa fd => Sys2Proof.Machine.execCpa fd s
  | .cpb fd => Sys2Proof.Machine.execCpb fd s
  | .cpg pd => Sys2Proof.Machine.execCpg pd s
  | .cppoint pd kx ky => Sys2Proof.Machine.execCppoint pd kx ky s
  | .liftx pd kx => Sys2Proof.Machine.execLiftx pd kx s
  | .keypair pq kd => Sys2Proof.Machine.execKeypair pq kd s
  | .keygen pq kd => Sys2Proof.Machine.execKeygen pq kd s
  | .sign kr ks kz kd => Sys2Proof.Machine.execSign kr ks kz kd s
  | .verify kz kr ks pq => Sys2Proof.Machine.execVerify kz kr ks pq s

end Sys2Proof.Machine
end

