-- ==== Sys2Proof/WellFormed.lean ====
section
/-! DEFINITION. Which commands have a word. Every field of every row is free but for one check (R85 step 3). -/

namespace Sys2Proof

/-- SIGN's two destinations differ (49_ecdsa_engines.md R260); every other command is well formed at
every operand, because each 4-bit index exists in its file (R61). -/
def Instr.wf : Instr → Bool
  | .sign kr ks _ _ => kr != ks
  | .nop | .kld _ | .kst _ | .kmov _ _ | .statrd | .errclr => true
  | .fnew _ _ _ | .fzero _ _ | .fval _ _ | .fmodu _ _ | .fmov _ _ | .feq _ _ => true
  | .fadd _ _ _ | .fsub _ _ _ | .fmul _ _ _ | .fmont _ _ _ | .fpow _ _ _ | .finv _ _ | .fdiv _ _ _ => true
  | .pnew _ _ _ _ _ _ _ | .pgetx _ _ | .pgety _ _ | .pgeta _ _ | .pgetb _ _ => true
  | .pisinf _ | .peq _ _ | .pmov _ _ | .padd _ _ _ | .pmul _ _ _ => true
  | .cpp _ | .cpn _ | .cpa _ | .cpb _ | .cpg _ | .cppoint _ _ _ | .liftx _ _ => true
  | .keypair _ _ | .keygen _ _ | .verify _ _ _ _ => true

end Sys2Proof
end

