-- ==== Sys2Proof/Decode.lean ====
section
/-! DEFINITION. Decoding and encoding of command words (30_encoding.md R80 to R86). A word is a value, not bytes (R80, R63). -/

namespace Sys2Proof

/-- The seven fields of format `C` (R80). -/
structure Fields where
  op : BitVec 8
  a : BitVec 4
  b : BitVec 4
  c : BitVec 4
  d : BitVec 4
  e : BitVec 4
  m : BitVec 4
  deriving DecidableEq, Repr

/-- The fields of a word: `OP = cmd[31:24]`, `A = cmd[23:20]`, down to `M = cmd[3:0]` (R80). -/
def splitWord (w : CmdWord) : Fields where
  op := w.extractLsb' 24 8
  a := w.extractLsb' 20 4
  b := w.extractLsb' 16 4
  c := w.extractLsb' 12 4
  d := w.extractLsb' 8 4
  e := w.extractLsb' 4 4
  m := w.extractLsb' 0 4

/-- The word of seven fields, the opcode most significant (R80). -/
def joinWord (f : Fields) : CmdWord :=
  f.op ++ f.a ++ f.b ++ f.c ++ f.d ++ f.e ++ f.m

/-- Why a word is no command (R85, R86). -/
inductive DecodeError where
  /-- No row has this opcode. -/
  | unassignedOpcode
  /-- A field or mode bit the row does not use is set. -/
  | nonzeroUnusedField
  /-- SIGN names one register for both results. -/
  | signSameDestination
  deriving DecidableEq, Repr

/-- A row of the opcode map (R84): a word is this row's iff `w &&& mask = pattern`. -/
structure OpRow where
  pattern : CmdWord
  mask : CmdWord
  build : Fields → Instr

/-- The interface rows (0x0_). -/
def rowsInterface : List OpRow := [
  ⟨0x00000000#32, 0xFFFFFFFF#32, fun _ => .nop⟩,
  ⟨0x01000000#32, 0xFF0FFFFF#32, fun f => .kld f.a⟩,
  ⟨0x02000000#32, 0xFFF0FFFF#32, fun f => .kst f.b⟩,
  ⟨0x03000000#32, 0xFF00FFFF#32, fun f => .kmov f.a f.b⟩,
  ⟨0x04000000#32, 0xFFFFFFFF#32, fun _ => .statrd⟩,
  ⟨0x05000000#32, 0xFFFFFFFF#32, fun _ => .errclr⟩]

/-- The field-element rows (0x1_ and 0x2_). -/
def rowsField : List OpRow := [
  ⟨0x10000000#32, 0xFF000FFF#32, fun f => .fnew f.a f.b f.c⟩,
  ⟨0x11000000#32, 0xFF0F0FFF#32, fun f => .fzero f.a f.c⟩,
  ⟨0x12000000#32, 0xFF00FFFF#32, fun f => .fval f.a f.b⟩,
  ⟨0x13000000#32, 0xFF00FFFF#32, fun f => .fmodu f.a f.b⟩,
  ⟨0x14000000#32, 0xFF00FFFF#32, fun f => .fmov f.a f.b⟩,
  ⟨0x15000000#32, 0xFFF00FFF#32, fun f => .feq f.b f.c⟩,
  ⟨0x20000000#32, 0xFF000FFF#32, fun f => .fadd f.a f.b f.c⟩,
  ⟨0x21000000#32, 0xFF000FFF#32, fun f => .fsub f.a f.b f.c⟩,
  ⟨0x22000000#32, 0xFF000FFF#32, fun f => .fmul f.a f.b f.c⟩,
  ⟨0x23000000#32, 0xFF000FFF#32, fun f => .fmont f.a f.b f.c⟩,
  ⟨0x24000000#32, 0xFF000FFF#32, fun f => .fpow f.a f.b f.c⟩,
  ⟨0x25000000#32, 0xFF00FFFF#32, fun f => .finv f.a f.b⟩,
  ⟨0x26000000#32, 0xFF000FFF#32, fun f => .fdiv f.a f.b f.c⟩]

/-- The point rows (0x3_). -/
def rowsPoint : List OpRow := [
  ⟨0x30000000#32, 0xFF00000C#32, fun f => .pnew f.a f.b f.c f.d f.e (f.m.getLsbD 1) (f.m.getLsbD 0)⟩,
  ⟨0x31000000#32, 0xFF00FFFF#32, fun f => .pgetx f.a f.b⟩,
  ⟨0x32000000#32, 0xFF00FFFF#32, fun f => .pgety f.a f.b⟩,
  ⟨0x33000000#32, 0xFF00FFFF#32, fun f => .pgeta f.a f.b⟩,
  ⟨0x34000000#32, 0xFF00FFFF#32, fun f => .pgetb f.a f.b⟩,
  ⟨0x35000000#32, 0xFFF0FFFF#32, fun f => .pisinf f.b⟩,
  ⟨0x36000000#32, 0xFFF00FFF#32, fun f => .peq f.b f.c⟩,
  ⟨0x37000000#32, 0xFF00FFFF#32, fun f => .pmov f.a f.b⟩,
  ⟨0x38000000#32, 0xFF000FFF#32, fun f => .padd f.a f.b f.c⟩,
  ⟨0x39000000#32, 0xFF000FFF#32, fun f => .pmul f.a f.b f.c⟩]

/-- The curve-parameter and ECDSA rows (0x4_ and 0x5_). -/
def rowsCurve : List OpRow := [
  ⟨0x40000000#32, 0xFF0FFFFF#32, fun f => .cpp f.a⟩,
  ⟨0x41000000#32, 0xFF0FFFFF#32, fun f => .cpn f.a⟩,
  ⟨0x42000000#32, 0xFF0FFFFF#32, fun f => .cpa f.a⟩,
  ⟨0x43000000#32, 0xFF0FFFFF#32, fun f => .cpb f.a⟩,
  ⟨0x44000000#32, 0xFF0FFFFF#32, fun f => .cpg f.a⟩,
  ⟨0x45000000#32, 0xFF000FFF#32, fun f => .cppoint f.a f.b f.c⟩,
  ⟨0x46000000#32, 0xFF00FFFF#32, fun f => .liftx f.a f.b⟩,
  ⟨0x50000000#32, 0xFF0F0FFF#32, fun f => .keypair f.a f.c⟩,
  ⟨0x51000000#32, 0xFF00FFFF#32, fun f => .keygen f.a f.b⟩,
  ⟨0x52000000#32, 0xFF0000FF#32, fun f => .sign f.a f.b f.c f.d⟩,
  ⟨0x53000000#32, 0xFFF0000F#32, fun f => .verify f.b f.c f.d f.e⟩]

/-- The complete map, forty rows (R84). -/
def opRows : List OpRow := rowsInterface ++ rowsField ++ rowsPoint ++ rowsCurve

/-- The opcode of a row: bits 31:24 of its pattern. -/
def OpRow.op (r : OpRow) : BitVec 8 := r.pattern.extractLsb' 24 8

/-- Decoding (R85), total on every word: find the row of the opcode, check the unused fields, then SIGN's
destinations. -/
def decode (w : CmdWord) : Except DecodeError Instr :=
  match opRows.find? (fun r => r.op == (splitWord w).op) with
  | none => .error .unassignedOpcode
  | some r =>
    if w &&& r.mask = r.pattern then
      let i := r.build (splitWord w)
      if i.wf then .ok i else .error .signSameDestination
    else .error .nonzeroUnusedField

/-- The mode field of PNEW (R82): `M[1] = XP`, `M[0] = YP`. -/
def modeBits (xp yp : Bool) : BitVec 4 := 0#2 ++ BitVec.ofBool xp ++ BitVec.ofBool yp

/-- The fields of a command's word: its opcode, its operands where R84 puts them, 0 elsewhere. -/
def encodeFields : Instr → Fields
  | .nop => ⟨0x00, 0, 0, 0, 0, 0, 0⟩
  | .kld kd => ⟨0x01, kd, 0, 0, 0, 0, 0⟩
  | .kst ks => ⟨0x02, 0, ks, 0, 0, 0, 0⟩
  | .kmov kd ks => ⟨0x03, kd, ks, 0, 0, 0, 0⟩
  | .statrd => ⟨0x04, 0, 0, 0, 0, 0, 0⟩
  | .errclr => ⟨0x05, 0, 0, 0, 0, 0, 0⟩
  | .fnew fd kv km => ⟨0x10, fd, kv, km, 0, 0, 0⟩
  | .fzero fd km => ⟨0x11, fd, 0, km, 0, 0, 0⟩
  | .fval kd fs => ⟨0x12, kd, fs, 0, 0, 0, 0⟩
  | .fmodu kd fs => ⟨0x13, kd, fs, 0, 0, 0, 0⟩
  | .fmov fd fs => ⟨0x14, fd, fs, 0, 0, 0, 0⟩
  | .feq fs1 fs2 => ⟨0x15, 0, fs1, fs2, 0, 0, 0⟩
  | .fadd fd fs1 fs2 => ⟨0x20, fd, fs1, fs2, 0, 0, 0⟩
  | .fsub fd fs1 fs2 => ⟨0x21, fd, fs1, fs2, 0, 0, 0⟩
  | .fmul fd fs1 fs2 => ⟨0x22, fd, fs1, fs2, 0, 0, 0⟩
  | .fmont fd fs1 fs2 => ⟨0x23, fd, fs1, fs2, 0, 0, 0⟩
  | .fpow fd fs ke => ⟨0x24, fd, fs, ke, 0, 0, 0⟩
  | .finv fd fs => ⟨0x25, fd, fs, 0, 0, 0, 0⟩
  | .fdiv fd fs1 fs2 => ⟨0x26, fd, fs1, fs2, 0, 0, 0⟩
  | .pnew pd fx fy fa fb xp yp => ⟨0x30, pd, fx, fy, fa, fb, modeBits xp yp⟩
  | .pgetx fd ps => ⟨0x31, fd, ps, 0, 0, 0, 0⟩
  | .pgety fd ps => ⟨0x32, fd, ps, 0, 0, 0, 0⟩
  | .pgeta fd ps => ⟨0x33, fd, ps, 0, 0, 0, 0⟩
  | .pgetb fd ps => ⟨0x34, fd, ps, 0, 0, 0, 0⟩
  | .pisinf ps => ⟨0x35, 0, ps, 0, 0, 0, 0⟩
  | .peq ps1 ps2 => ⟨0x36, 0, ps1, ps2, 0, 0, 0⟩
  | .pmov pd ps => ⟨0x37, pd, ps, 0, 0, 0, 0⟩
  | .padd pd ps1 ps2 => ⟨0x38, pd, ps1, ps2, 0, 0, 0⟩
  | .pmul pd ps kk => ⟨0x39, pd, ps, kk, 0, 0, 0⟩
  | .cpp kd => ⟨0x40, kd, 0, 0, 0, 0, 0⟩
  | .cpn kd => ⟨0x41, kd, 0, 0, 0, 0, 0⟩
  | .cpa fd => ⟨0x42, fd, 0, 0, 0, 0, 0⟩
  | .cpb fd => ⟨0x43, fd, 0, 0, 0, 0, 0⟩
  | .cpg pd => ⟨0x44, pd, 0, 0, 0, 0, 0⟩
  | .cppoint pd kx ky => ⟨0x45, pd, kx, ky, 0, 0, 0⟩
  | .liftx pd kx => ⟨0x46, pd, kx, 0, 0, 0, 0⟩
  | .keypair pq kd => ⟨0x50, pq, 0, kd, 0, 0, 0⟩
  | .keygen pq kd => ⟨0x51, pq, kd, 0, 0, 0, 0⟩
  | .sign kr ks kz kd => ⟨0x52, kr, ks, kz, kd, 0, 0⟩
  | .verify kz kr ks pq => ⟨0x53, 0, kz, kr, ks, pq, 0⟩

/-- The word of a command (R80, R84). -/
def encode (i : Instr) : CmdWord := joinWord (encodeFields i)

/-- What the decoder reads from an instruction whose bits are `w`, numbered as the opcode table numbers them: every
row is one 32-bit word (R87), and bits above `nbits` are 0 (log 13). -/
def decodeTableWord (nbits w : Nat) : Option Instr :=
  (decode (BitVec.ofNat 32 (w % 2 ^ nbits))).toOption

end Sys2Proof
end

