-- ==== Sys2Proof/Machine/Fetch.lean ====
section
/-! DEFINITION. How the next command comes to run: the host's moves, taking a command, an illegal word, reset, and a
command waiting for a draw (10_state.md R28, R35 to R37; 20_memory.md R64, R74; 30_encoding.md R85). -/

namespace Sys2Proof.Machine

/-- What the next step is. -/
inductive Fetched where
  /-- No command runs: the step ends in this state. -/
  | settled (s : State)
  /-- This command runs, to its end or to a wait. -/
  | run (i : Instr) (s : State)
  /-- This command runs and is abandoned by reset after it took up to `taken` of its draws. -/
  | cut (i : Instr) (s : State) (taken : Nat)

/-- The block takes a word with its `DIN` (R35): the word is in hand, the response port and `rng_req` are low. -/
def State.take (s : State) (word : CmdWord) (din : Word) : State :=
  { s with cmd := some word, din := din, rsp := none, rngReq := false }

/-- Decoding the word in hand (R85): an illegal word ends with `IllegalCommand` and is otherwise a no-op (R293). -/
def issue (word : CmdWord) (din : Word) (s : State) : Fetched :=
  match decode word with
  | .ok i => .run i (s.take word din)
  | .error _ => .settled ((s.take word din).raise .illegalCommand)

/-- The same for a command that reset will abandon; an illegal word takes no draw. -/
def issueCut (word : CmdWord) (din : Word) (taken : Nat) (s : State) : Fetched :=
  match decode word with
  | .ok i => .cut i (s.take word din) taken
  | .error _ => .settled s.afterReset

/-- The command in hand goes on: from its beginning when there is a draw, else the wait goes on (R336, log 3). -/
def resume (word : CmdWord) (s : State) : Fetched :=
  if s.draws = [] then .settled s else issue word s.din s

/-- A block with a command in hand that waits for a draw (R336). Reset is a move in this state as in every other (R323),
and comes before a draw; a move that presents a word and resets presents it in vain and resets during the command in
hand; a command is not taken (R74). Without a reset the command goes on when there is a draw for it (logs 3, 18). -/
def busy (word : CmdWord) (s : State) : Fetched :=
  match s.host with
  | .reset :: rest => .settled (State.afterReset { s with host := rest })
  | .abandon _ _ taken :: rest => issueCut word s.din taken { s with host := rest }
  | .command _ _ :: _ => resume word s
  | [] => resume word s

/-- An idle block (R28, R301): the host's next move, or nothing. -/
def idle (s : State) : Fetched :=
  match s.host with
  | [] => .settled s
  | .command word din :: rest => issue word din { s with host := rest }
  | .reset :: rest => .settled (State.afterReset { s with host := rest })
  | .abandon word din taken :: rest => issueCut word din taken { s with host := rest }

/-- What the next step of `s` is. -/
def fetch (s : State) : Fetched :=
  match s.cmd with
  | none => idle s
  | some word => busy word s

/-- Reset during a command (R323): the state after reset; the draws the command had taken, at most those its whole
execution (to `t`) takes, are gone. -/
def State.abandoned (s t : State) (taken : Nat) : State :=
  { s.afterReset with draws := s.draws.drop (min taken (s.draws.length - t.draws.length)) }

/-- The command a host presents next, in place of any in hand, with the `DIN` the port holds. -/
def State.present (s : State) (word : CmdWord) : State :=
  { s with cmd := none, rngReq := false, host := .command word s.din :: s.host }

end Sys2Proof.Machine
end

