-- ==== Sys2Proof/Machine/Step.lean ====
section
/-! DEFINITION. One step of CORE: one move of the host, executed whole (00_scope.md R13, 20_memory.md R65, R70). -/

namespace Sys2Proof.Machine

/-- One step: a command runs to its response (or to a wait for a draw), a reset happens, or the block idles. -/
def step (s : State) : Host.Outcome State Fault Refusal :=
  match fetch s with
  | .settled t => .next t
  | .run i t => exec i t
  | .cut i t taken =>
    match exec i t with
    | .next u => .next (t.abandoned u taken)
    | .fault r => .fault r
    | .refused r => .refused r

/-- `s` with the word `w` presented by the host as its next command (log 13). -/
def State.withFetchWord (s : State) (nbits w : Nat) : State :=
  s.present (BitVec.ofNat 32 (w % 2 ^ nbits))

end Sys2Proof.Machine
end

