-- ==== Sys2Proof/Safety.lean ====
section
/-! DEFINITION. What claims about CORE are made of: the invariant of reachable states (10_state.md R23, R30, R244), the
sources and destinations of each command (R26), the codes each can end with (60_exceptions.md R295), and what it
is to be a command's encoding (30_encoding.md R84, R85). -/

namespace Sys2Proof.Machine

/-- A field element as a valid F register holds it (R23): the modulus odd and at least 3, the value below it. -/
structure FeOk (e : FE) : Prop where
  odd : e.modulus.toNat % 2 = 1
  three_le : 3 ≤ e.modulus.toNat
  value_lt : e.value.toNat < e.modulus.toNat

/-- All fields of a point are below its modulus (R23). -/
def ptBelow : Pt → Prop
  | .inf a b m => a.toNat < m.toNat ∧ b.toNat < m.toNat
  | .aff x y a b m => x.toNat < m.toNat ∧ y.toNat < m.toNat ∧ a.toNat < m.toNat ∧ b.toNat < m.toNat

/-- A point as a valid P register holds it (R23); the curve equation is no part of it (R210). -/
structure PtOk (q : Pt) : Prop where
  odd : q.m.toNat % 2 = 1
  three_le : 3 ≤ q.m.toNat
  below : ptBelow q

/-- Every valid F and P register holds a value as R23 says. -/
structure FilesOk (s : State) : Prop where
  f : ∀ i e, s.readF i = .ok e → FeOk e
  p : ∀ i q, s.readP i = .ok q → PtOk q

/-- The ERRS bits that never become 1: those hardwired 0 (R30) and bit 7, whose kind is never raised (R244). -/
def ErrsOk (s : State) : Prop := s.status.errs &&& 0xC181#16 = 0

/-- The ports between two steps: `rng_req` is high exactly while a command is in hand, and then no response is
present (R35, R36). -/
structure PortsOk (s : State) : Prop where
  req : s.rngReq = s.cmd.isSome
  quiet : s.cmd.isSome = true → s.rsp = none

/-- The invariant every step keeps. -/
structure Inv (s : State) : Prop where
  files : FilesOk s
  errs : ErrsOk s
  ports : PortsOk s

/-- The curve equation as a property of a record (R185); Infinity is on every curve. -/
def OnCurve : Pt → Prop
  | .inf _ _ _ => True
  | .aff x y a b m => y.toNat * y.toNat % m.toNat =
      (x.toNat * x.toNat * x.toNat + a.toNat * x.toNat + b.toNat) % m.toNat

/-- A point of an elliptic curve over a prime field: the modulus is prime, the discriminant is not 0, and the point is
on the curve. The block checks the last only (45 R185, R187); the others are premises of the group law (R224). -/
structure EllipticOk (q : Pt) : Prop where
  ok : PtOk q
  prime : q.m.toNat.Prime
  disc : (4 * q.a.toNat ^ 3 + 27 * q.b.toNat ^ 2) % q.m.toNat ≠ 0
  onCurve : OnCurve q

/-- Which draws `SampleScalar` accepts (R256). -/
def Accepted (c : Word) : Prop := 1 ≤ c.toNat ∧ c.toNat ≤ Config.cpN.toNat - 1

end Sys2Proof.Machine

namespace Sys2Proof

/-- The K registers a command writes on success (R26, R84). -/
def Instr.destK : Instr → List KReg
  | .kld kd => [kd]
  | .kmov kd _ => [kd]
  | .fval kd _ => [kd]
  | .fmodu kd _ => [kd]
  | .cpp kd => [kd]
  | .cpn kd => [kd]
  | .keygen _ kd => [kd]
  | .sign kr ks _ _ => [kr, ks]
  | _ => []

/-- The F registers a command writes on success. -/
def Instr.destF : Instr → List FReg
  | .fnew fd _ _ => [fd]
  | .fzero fd _ => [fd]
  | .fmov fd _ => [fd]
  | .fadd fd _ _ => [fd]
  | .fsub fd _ _ => [fd]
  | .fmul fd _ _ => [fd]
  | .fmont fd _ _ => [fd]
  | .fpow fd _ _ => [fd]
  | .finv fd _ => [fd]
  | .fdiv fd _ _ => [fd]
  | .pgetx fd _ => [fd]
  | .pgety fd _ => [fd]
  | .pgeta fd _ => [fd]
  | .pgetb fd _ => [fd]
  | .cpa fd => [fd]
  | .cpb fd => [fd]
  | _ => []

/-- The P registers a command writes on success. -/
def Instr.destP : Instr → List PReg
  | .pnew pd _ _ _ _ _ _ => [pd]
  | .pmov pd _ => [pd]
  | .padd pd _ _ => [pd]
  | .pmul pd _ _ => [pd]
  | .cpg pd => [pd]
  | .cppoint pd _ _ => [pd]
  | .liftx pd _ => [pd]
  | .keypair pq _ => [pq]
  | .keygen pq _ => [pq]
  | _ => []

/-- The K registers a command reads. -/
def Instr.srcK : Instr → List KReg
  | .kst ks => [ks]
  | .kmov _ ks => [ks]
  | .fnew _ kv km => [kv, km]
  | .fzero _ km => [km]
  | .fpow _ _ ke => [ke]
  | .pmul _ _ kk => [kk]
  | .cppoint _ kx ky => [kx, ky]
  | .liftx _ kx => [kx]
  | .keypair _ kd => [kd]
  | .sign _ _ kz kd => [kz, kd]
  | .verify kz kr ks _ => [kz, kr, ks]
  | _ => []

/-- The F registers a command reads; PNEW's Infinity form does not read B and C (R187). -/
def Instr.srcF : Instr → List FReg
  | .fval _ fs => [fs]
  | .fmodu _ fs => [fs]
  | .fmov _ fs => [fs]
  | .feq fs1 fs2 => [fs1, fs2]
  | .fadd _ fs1 fs2 => [fs1, fs2]
  | .fsub _ fs1 fs2 => [fs1, fs2]
  | .fmul _ fs1 fs2 => [fs1, fs2]
  | .fmont _ fs1 fs2 => [fs1, fs2]
  | .fpow _ fs _ => [fs]
  | .finv _ fs => [fs]
  | .fdiv _ fs1 fs2 => [fs1, fs2]
  | .pnew _ fx fy fa fb xp yp => if xp && yp then [fx, fy, fa, fb] else if xp || yp then [] else [fa, fb]
  | _ => []

/-- The P registers a command reads. -/
def Instr.srcP : Instr → List PReg
  | .pgetx _ ps => [ps]
  | .pgety _ ps => [ps]
  | .pgeta _ ps => [ps]
  | .pgetb _ ps => [ps]
  | .pisinf ps => [ps]
  | .peq ps1 ps2 => [ps1, ps2]
  | .pmov _ ps => [ps]
  | .padd _ ps1 ps2 => [ps1, ps2]
  | .pmul _ ps _ => [ps]
  | .verify _ _ _ pq => [pq]
  | _ => []

/-- The four commands that write FLAG (R29). -/
def Instr.writesFlag : Instr → Bool
  | .feq _ _ | .pisinf _ | .peq _ _ | .verify _ _ _ _ => true
  | _ => false

/-- The one command that writes VRES (R29). -/
def Instr.writesVres : Instr → Bool
  | .verify _ _ _ _ => true
  | _ => false

/-- The two commands that take draws (R36). -/
def Instr.takesDraws : Instr → Bool
  | .keygen _ _ | .sign _ _ _ _ => true
  | _ => false

/-- The commands whose point arithmetic is on the ROM's curve (R302). -/
def Instr.onRomCurve : Instr → Bool
  | .cppoint _ _ _ | .liftx _ _ | .keypair _ _ | .keygen _ _ | .sign _ _ _ _ | .verify _ _ _ _ => true
  | _ => false

open Machine.Failure in
/-- The failures a command can end with beside `IllegalCommand` at decoding (R295). Where a rule keeps
`NotInvertible` for totality although it is unreachable (R302), it is listed; SIGN's A = B has no word. -/
def Instr.codes : Instr → List Machine.Failure
  | .nop | .statrd | .errclr | .kld _ => []
  | .cpp _ | .cpn _ | .cpa _ | .cpb _ | .cpg _ => []
  | .kst _ | .kmov _ _ | .fval _ _ | .fmodu _ _ | .fmov _ _ => [regInvalid]
  | .pgeta _ _ | .pgetb _ _ | .pisinf _ | .peq _ _ | .pmov _ _ => [regInvalid]
  | .fnew _ _ _ | .fzero _ _ => [regInvalid, badModulus]
  | .feq _ _ | .fadd _ _ _ | .fsub _ _ _ | .fmul _ _ _ | .fmont _ _ _ => [regInvalid, fieldMismatch]
  | .fpow _ _ _ => [regInvalid]
  | .finv _ _ => [regInvalid, notInvertible]
  | .fdiv _ _ _ => [regInvalid, fieldMismatch, notInvertible]
  | .pnew _ _ _ _ _ _ _ => [invalidPointShape, regInvalid, fieldMismatch, notOnCurve]
  | .pgetx _ _ | .pgety _ _ => [regInvalid, noCoordinate]
  | .padd _ _ _ => [regInvalid, curveMismatch, notInvertible]
  | .pmul _ _ _ => [regInvalid, notInvertible]
  | .cppoint _ _ _ => [regInvalid, notOnCurve]
  | .liftx _ _ => [regInvalid, noSquareRoot]
  | .keypair _ _ => [regInvalid, invalidScalar, notInvertible]
  | .keygen _ _ => [notInvertible]
  | .sign _ _ _ _ => [regInvalid, invalidScalar, notInvertible]
  | .verify _ _ _ _ => [regInvalid, curveMismatch, notInvertible]

/-- The words of one row and what they decode to (R84, R85): a word that matches is the command `build` makes of its
fields; a word of the row's opcode that does not match is illegal. -/
structure RowIs (pattern mask : CmdWord) (build : Fields → Instr) : Prop where
  legal : ∀ w, w &&& mask = pattern → decode w = .ok (build (splitWord w))
  illegal : ∀ w, (splitWord w).op = pattern.extractLsb' 24 8 → w &&& mask ≠ pattern →
    decode w = .error .nonzeroUnusedField

end Sys2Proof

namespace Sys2Proof.Machine

/-- What a command leaves unchanged (R26, R29, R31): every register but its destinations, FLAG and VRES unless it
writes them, ERRS unless the command fails or is ERRCLR, `DIN`, the host's moves, and the draws unless it takes
draws. There is no memory (R60). -/
structure Frame (i : Instr) (s t : State) : Prop where
  k : ∀ r, r ∉ i.destK → t.readK r = s.readK r
  f : ∀ r, r ∉ i.destF → t.readF r = s.readF r
  p : ∀ r, r ∉ i.destP → t.readP r = s.readP r
  flag : i.writesFlag = false → t.status.flag = s.status.flag
  vres : i.writesVres = false → t.status.vres = s.status.vres
  errs : t.status.cc = .ok → i ≠ .errclr → t.status.errs = s.status.errs
  din : t.din = s.din
  host : t.host = s.host
  draws : i.takesDraws = false → t.draws = s.draws

/-- The families of the opcode map (R84). -/
inductive Family where
  | interface
  | fieldRegs
  | fieldArith
  | points
  | curveParams
  | ecdsa
  deriving DecidableEq, Repr

/-- The family of a command: the section of the spec that gives its rule. -/
def family : Instr → Family
  | .nop | .kld _ | .kst _ | .kmov _ _ | .statrd | .errclr => .interface
  | .fnew _ _ _ | .fzero _ _ | .fval _ _ | .fmodu _ _ | .fmov _ _ | .feq _ _ => .fieldRegs
  | .fadd _ _ _ | .fsub _ _ _ | .fmul _ _ _ | .fmont _ _ _ | .fpow _ _ _ | .finv _ _ | .fdiv _ _ _ => .fieldArith
  | .pnew _ _ _ _ _ _ _ | .pgetx _ _ | .pgety _ _ | .pgeta _ _ | .pgetb _ _ => .points
  | .pisinf _ | .peq _ _ | .pmov _ _ | .padd _ _ _ | .pmul _ _ _ => .points
  | .cpp _ | .cpn _ | .cpa _ | .cpb _ | .cpg _ | .cppoint _ _ _ | .liftx _ _ => .curveParams
  | .keypair _ _ | .keygen _ _ | .sign _ _ _ _ | .verify _ _ _ _ => .ecdsa

/-- Between two steps, a command in hand is one that takes draws (R36: only KEYGEN and SIGN use the random port). -/
def WaitsOk (s : State) : Prop :=
  ∀ w, s.cmd = some w → ∃ i, decode w = .ok i ∧ i.takesDraws = true

/-- `s` with other FLAG and VRES. -/
def State.withFlags (s : State) (b : Bool) (v : BitVec 2) : State :=
  { s with status := { s.status with flag := b, vres := v } }

/-- `s` with another ERRS record. -/
def State.withErrs (s : State) (e : BitVec 16) : State :=
  { s with status := { s.status with errs := e } }

/-- The two states hold the same registers. -/
structure SameFiles (s t : State) : Prop where
  k : t.k = s.k
  f : t.f = s.f
  p : t.p = s.p

end Sys2Proof.Machine
end

