-- ==== Sys2Proof/Certificates/Slice0/Obligations.lean ====
section
/-! DEFINITION. The statements for the provers, in the order of OBLIGATIONS.json: encoding, stepping and reset, the
invariant, STATUS, registers and frames, then the rules of the commands family by family. -/

open Sys2Proof Sys2Proof.Machine Sys2Proof.Config

/-! ### Encoding -/

/-- Decoding the word of a well-formed command gives it back, every operand at every value (R80, R84, R85). -/
def Obligations.DecodeEncodeRoundTrip : Prop :=
  ∀ i : Instr, i.wf = true → decode (encode i) = .ok i

/-- A legal word is the word of exactly one command: R85's "every 32-bit word is either exactly one command or illegal". -/
def Obligations.EncodeDecodeRoundTrip : Prop :=
  ∀ (w : CmdWord) (i : Instr), decode w = .ok i → encode i = w ∧ i.wf = true

/-- R85, its four cases in order, and what an illegal word does. -/
def Obligations.DecodingFollowsTheOpcodeMap : Prop :=
  (∀ w : CmdWord, (∀ r ∈ opRows, r.op ≠ (splitWord w).op) → decode w = .error .unassignedOpcode) ∧
  (∀ (w : CmdWord), ∀ r ∈ opRows, r.op = (splitWord w).op → w &&& r.mask ≠ r.pattern →
    decode w = .error .nonzeroUnusedField) ∧
  (∀ (w : CmdWord), ∀ r ∈ opRows, w &&& r.mask = r.pattern → r.op = 0x52 →
    (splitWord w).a = (splitWord w).b → decode w = .error .signSameDestination) ∧
  (∀ (w : CmdWord), ∀ r ∈ opRows, w &&& r.mask = r.pattern →
    ¬ (r.op = 0x52 ∧ (splitWord w).a = (splitWord w).b) → decode w = .ok (r.build (splitWord w))) ∧
  (∀ (s : State) (w : CmdWord) (d : Word) (rest : List HostMove) (e : DecodeError),
    s.cmd = none → s.host = .command w d :: rest → decode w = .error e →
    step s = .next ((State.take { s with host := rest } w d).raise .illegalCommand))

/-- The words of R89's examples, written out there, decode to the commands they stand for. -/
def Obligations.SampleWordsDecode : Prop :=
  decode 0x01100000#32 = .ok (.kld 1) ∧
  decode 0x20312000#32 = .ok (.fadd 3 1 2) ∧
  decode 0x30112343#32 = .ok (.pnew 1 1 2 3 4 true true) ∧
  decode 0x30100340#32 = .ok (.pnew 1 0 0 3 4 false false) ∧
  decode 0x39201000#32 = .ok (.pmul 2 0 1) ∧
  decode 0x45112000#32 = .ok (.cppoint 1 1 2) ∧
  decode 0x52451200#32 = .ok (.sign 4 5 1 2) ∧
  decode 0x53014510#32 = .ok (.verify 1 4 5 1)

/-! ### Stepping and reset -/

/-- A step runs the decoded command: one the host presents to an idle block (R64, R65, R85), one in hand for which there
is a draw, and one placed with `present`. Around `exec` the step takes the word and its `DIN` and removes the host's move.
The second and third clause are the model's, not the spec's: that a command in hand runs again from its beginning is
log 3 (and that a reset comes before it, log 18), that `present` stands for handing a word over is log 13. -/
def Obligations.StepRunsTheDecodedCommand : Prop :=
  (∀ (s : State) (w : CmdWord) (d : Word) (rest : List HostMove) (i : Instr),
    s.cmd = none → s.host = .command w d :: rest → decode w = .ok i →
    step s = exec i (State.take { s with host := rest } w d)) ∧
  (∀ (s : State) (w : CmdWord) (i : Instr), s.cmd = some w → s.draws ≠ [] →
    (s.host = [] ∨ ∃ c d rest, s.host = .command c d :: rest) → decode w = .ok i →
    step s = exec i (s.take w s.din)) ∧
  (∀ (s : State) (w : CmdWord) (i : Instr), decode w = .ok i → step (s.present w) = exec i (s.take w s.din))

/-- An illegal word ends with code 9 and is otherwise a no-op (R86, R293): registers, FLAG, VRES and draws are kept,
`ERRS[9]` is set and no other ERRS bit changes, the response is `(9, FLAG, 0)`. -/
def Obligations.IllegalWordIsOnlyRecorded : Prop :=
  ∀ (s : State) (w : CmdWord) (d : Word) (rest : List HostMove) (e : DecodeError),
    s.cmd = none → s.host = .command w d :: rest → decode w = .error e →
    ∃ t, step s = .next t ∧ SameFiles s t ∧ t.status.cc.code = 9 ∧
      (∀ c, t.status.errs.getLsbD c = (s.status.errs.getLsbD c || decide (c = 9))) ∧
      t.status.flag = s.status.flag ∧ t.status.vres = s.status.vres ∧
      t.rsp = some ⟨.fail .illegalCommand, s.status.flag, 0⟩ ∧
      t.cmd = none ∧ t.rngReq = false ∧ t.draws = s.draws ∧ t.host = rest

/-- The host's moves are taken one by one: a command sees the effect of no later one (R70), what follows it in the
host's list changes nothing of its step; an idle block with no move left keeps its whole state. All state of the block
survives idleness (R301); that its response port does, which R35 shows for one cycle only, is the model's choice (log 6),
and so is the list of moves in State (log 1). -/
def Obligations.HostMovesAreTakenOneByOne : Prop :=
  (∀ (s t : State) (w : CmdWord) (d : Word) (rest rest' : List HostMove), s.cmd = none →
    step { s with host := .command w d :: rest } = .next t →
    t.host = rest ∧ step { s with host := .command w d :: rest' } = .next { t with host := rest' }) ∧
  (∀ s : State, s.cmd = none → s.host = [] → step s = .next s)

/-- R39: every valid bit 0, STATUS 0, the interface idle. -/
def Obligations.ResetStateIsAsSpecified : Prop :=
  (∀ i, State.reset.readK i = .error .regInvalid) ∧
  (∀ i, State.reset.readF i = .error .regInvalid) ∧
  (∀ i, State.reset.readP i = .error .regInvalid) ∧
  State.reset.status.word = 0 ∧ State.reset.status = ⟨.ok, false, 0, 0⟩ ∧
  State.reset.cmd = none ∧ State.reset.rsp = none ∧ State.reset.rngReq = false

/-- Reset (R37, R320, R323) is a move in every state, and what it leaves does not depend on the block's state. Reset during
a command, presented to an idle block or in hand: nothing is written, no response is given, and the draws it consumed are
gone, at most those named and none for an illegal word or a command that takes none. The model's choices in it: the moves
and the draws are inputs in State that reset keeps (logs 1, 2), a reset between a command's taking and its response is the
move `abandon` with the number of draws taken (log 4), the `din` field is 0 in `State.reset`, for which R39 gives no
value (log 7), and during a wait a reset comes before a draw (log 18). -/
def Obligations.ResetAbandonsAndResets : Prop :=
  (∀ (s : State) (rest : List HostMove), s.host = .reset :: rest →
    step s = .next { State.reset with draws := s.draws, host := rest }) ∧
  (∀ (s : State) (w : CmdWord) (d : Word) (n : Nat) (rest : List HostMove), s.cmd = none →
    s.host = .abandon w d n :: rest →
    ∃ m, m ≤ n ∧ (∀ e, decode w = .error e → m = 0) ∧ (∀ i, decode w = .ok i → i.takesDraws = false → m = 0) ∧
      (∀ i u, decode w = .ok i → exec i (State.take { s with host := rest } w d) = .next u →
        m = min n (s.draws.length - u.draws.length)) ∧
      step s = .next { State.reset with draws := s.draws.drop m, host := rest }) ∧
  (∀ (s : State) (v w : CmdWord) (d : Word) (n : Nat) (rest : List HostMove), s.cmd = some v →
    s.host = .abandon w d n :: rest →
    ∃ m, m ≤ n ∧ (∀ e, decode v = .error e → m = 0) ∧ (∀ i, decode v = .ok i → i.takesDraws = false → m = 0) ∧
      (∀ i u, decode v = .ok i → exec i (State.take { s with host := rest } v s.din) = .next u →
        m = min n (s.draws.length - u.draws.length)) ∧
      step s = .next { State.reset with draws := s.draws.drop m, host := rest })

/-- No input makes the block stop (R292): every command in every state, and every step, answers a next state. That KEYGEN
and SIGN without an acceptable draw, which R336 gives no end state, answer a next state that waits is the model's
choice (log 3). -/
def Obligations.BlockNeverStops : Prop :=
  (∀ (i : Instr) (s : State), ∃ t, exec i s = .next t) ∧ (∀ s : State, ∃ t, step s = .next t)

/-- Without an acceptable draw KEYGEN and SIGN wait (R336, U15): the rejected draws are gone, nothing else changes but
`rng_req`; the wait goes on while the host does nothing but present commands, which are not taken (R74). The wait as
a next state is the model's (log 3). -/
def Obligations.NoAcceptableDrawMeansWaiting : Prop :=
  (∀ (pq : PReg) (kd : KReg) (s : State), (∀ c ∈ s.draws, ¬ Accepted c) →
    exec (.keygen pq kd) s = .next { s with rngReq := true, draws := [] }) ∧
  (∀ (kr ks kz kd : KReg) (s : State) (z d : Word), kr ≠ ks → s.readK kz = .ok z → s.readK kd = .ok d →
    Accepted d → (∀ c ∈ s.draws, ¬ Accepted c) →
    exec (.sign kr ks kz kd) s = .next { s with rngReq := true, draws := [] }) ∧
  (∀ (s : State) (w : CmdWord), s.cmd = some w → s.draws = [] →
    (s.host = [] ∨ ∃ c d rest, s.host = .command c d :: rest) → step s = .next s)

/-! ### The invariant -/

/-- The invariant holds after reset. -/
def Obligations.InvariantHoldsAtReset : Prop := Inv State.reset

/-- Every step keeps the invariant (R23, R30, R35, R244). -/
def Obligations.StepKeepsInvariant : Prop :=
  ∀ s t : State, Inv s → step s = .next t → Inv t

/-- Only KEYGEN and SIGN are ever in hand between two steps (R36): after reset, and kept by every step. -/
def Obligations.OnlyKeygenAndSignWait : Prop :=
  WaitsOk State.reset ∧ ∀ s t : State, WaitsOk s → step s = .next t → WaitsOk t

/-! ### STATUS -/

/-- The layout of STATUS (R30), the hardwired and reserved bits included, and the numbers of the completion codes (R290):
code 8 is no failure's (R291), and 14 and 15 are unassigned. -/
def Obligations.StatusWordLayout : Prop :=
  ∀ st : Status,
    st.word.extractLsb' 0 4 = st.cc.code ∧ st.word.getLsbD 4 = st.flag ∧ st.word.extractLsb' 5 2 = st.vres ∧
    st.word.getLsbD 7 = false ∧ st.word.extractLsb' 24 8 = 0 ∧
    (∀ c, c < 16 → st.word.getLsbD (8 + c) =
      (if c = 0 ∨ c = 8 ∨ c = 14 ∨ c = 15 then false else st.errs.getLsbD c)) ∧
    CC.ok.code = 0 ∧ (CC.fail .fieldMismatch).code = 1 ∧ (CC.fail .notInvertible).code = 2 ∧
    (CC.fail .notOnCurve).code = 3 ∧ (CC.fail .invalidPointShape).code = 4 ∧ (CC.fail .curveMismatch).code = 5 ∧
    (CC.fail .noSquareRoot).code = 6 ∧ (CC.fail .unsupportedModulus).code = 7 ∧ (CC.fail .illegalCommand).code = 9 ∧
    (CC.fail .regInvalid).code = 10 ∧ (CC.fail .badModulus).code = 11 ∧ (CC.fail .invalidScalar).code = 12 ∧
    (CC.fail .noCoordinate).code = 13 ∧ (∀ c : CC, c.code ≠ 8 ∧ c.code ≠ 14 ∧ c.code ≠ 15)

/-- R31: STATUS at the end of every command. A command has ended when `rng_req` is low. -/
def Obligations.StatusUpdateAfterEveryCommand : Prop :=
  (∀ s t : State, exec .statrd s = .next t → t.status = s.status) ∧
  (∀ (i : Instr) (s t : State), i ≠ .statrd → exec i s = .next t → t.rngReq = false →
    (t.status.cc = .ok ∧ t.status.errs = (if i = .errclr then 0 else s.status.errs) ∧
      (i.writesFlag = false → t.status.flag = s.status.flag) ∧
      (i.writesVres = false → t.status.vres = s.status.vres)) ∨
    (∃ k, t.status.cc = .fail k ∧
      (∀ c, t.status.errs.getLsbD c = (s.status.errs.getLsbD c || decide (c = k.code.toNat))) ∧
      t.status.flag = s.status.flag ∧ t.status.vres = s.status.vres ∧ SameFiles s t))

/-- R29: who writes FLAG and VRES, that no command reads them as an operand, and that the host reads FLAG in every
response and both through STATRD. -/
def Obligations.FlagAndVresWritersAndReaders : Prop :=
  (∀ (i : Instr) (s t : State), exec i s = .next t →
    (t.status.flag ≠ s.status.flag → i.writesFlag = true ∧ t.status.cc = .ok) ∧
    (t.status.vres ≠ s.status.vres → i.writesVres = true ∧ t.status.cc = .ok)) ∧
  (∀ (i : Instr) (s t : State) (b : Bool) (v : BitVec 2), exec i s = .next t →
    ∃ u, exec i (s.withFlags b v) = .next u ∧ SameFiles t u ∧ u.draws = t.draws ∧
      u.status.cc = t.status.cc ∧ u.status.errs = t.status.errs ∧ u.rngReq = t.rngReq ∧
      (i.writesFlag = true → t.status.cc = .ok → t.rngReq = false → u.status.flag = t.status.flag) ∧
      (i.writesVres = true → t.status.cc = .ok → t.rngReq = false → u.status.vres = t.status.vres)) ∧
  (∀ (i : Instr) (s t : State), exec i s = .next t → t.rngReq = false →
    ∃ r, t.rsp = some r ∧ r.flag = t.status.flag) ∧
  (∀ s : State, ∃ t r, exec .statrd s = .next t ∧ t.rsp = some r ∧ r.dout.getLsbD 4 = s.status.flag ∧
    r.dout.extractLsb' 5 2 = s.status.vres)

/-- R33: no command behaves differently because an ERRS bit is set, and a failed command leaves the block idle. -/
def Obligations.ErrsNeverConsulted : Prop :=
  (∀ (i : Instr) (s t : State) (e : BitVec 16), exec i s = .next t →
    ∃ u, exec i (s.withErrs e) = .next u ∧ SameFiles t u ∧ u.draws = t.draws ∧
      u.status.cc = t.status.cc ∧ u.status.flag = t.status.flag ∧ u.status.vres = t.status.vres ∧
      u.rngReq = t.rngReq ∧ u.cmd = t.cmd ∧ (i ≠ .statrd → u.rsp = t.rsp)) ∧
  (∀ (i : Instr) (s t : State) (k : Failure), exec i s = .next t → t.rngReq = false →
    t.rsp.map Response.cc = some (.fail k) → t.cmd = none)

/-- The response (R64): it carries the completion code and FLAG after the command; `DOUT` is 0 unless the command is a
successful KST or STATRD; `DIN` matters to KLD only. -/
def Obligations.ResponseDinAndDout : Prop :=
  (∀ (i : Instr) (s t : State), exec i s = .next t → t.rngReq = false →
    ∃ r, t.rsp = some r ∧ r.flag = t.status.flag ∧ (i ≠ .statrd → r.cc = t.status.cc) ∧
      (i = .statrd → r.cc = .ok ∧ r.dout = s.status.word.setWidth 256) ∧
      (∀ ks, i = .kst ks → r.cc = .ok → s.readK ks = .ok r.dout) ∧
      (r.cc ≠ .ok ∨ (i ≠ .statrd ∧ ∀ ks, i ≠ .kst ks) → r.dout = 0)) ∧
  (∀ (i : Instr) (s t : State) (d : Word), (∀ kd, i ≠ .kld kd) → exec i s = .next t →
    exec i { s with din := d } = .next { t with din := d })

/-- The codes each command can end with (R295, R294), those R302 keeps for totality included; `UnsupportedModulus` is
in no list (R244) and LIFTX's `NotOnCurve` is in none (R243). -/
def Obligations.CodesOfEachCommand : Prop :=
  ∀ (i : Instr) (s t : State) (k : Failure), i.wf = true → exec i s = .next t → t.rngReq = false →
    t.rsp.map Response.cc = some (.fail k) → k ∈ i.codes

/-! ### Registers and frames -/

/-- R24: an invalid source ends a command with `RegInvalid`; a destination is valid after success; no command clears a
valid bit. -/
def Obligations.ValidBits : Prop :=
  (∀ (i : Instr) (s : State), i.wf = true →
    ((∃ r ∈ i.srcK, s.readK r = .error .regInvalid) ∨ (∃ r ∈ i.srcF, s.readF r = .error .regInvalid) ∨
      (∃ r ∈ i.srcP, s.readP r = .error .regInvalid)) →
    exec i s = .next (s.raise .regInvalid)) ∧
  (∀ (i : Instr) (s t : State), exec i s = .next t → t.rngReq = false → t.rsp.map Response.cc = some .ok →
    (∀ r ∈ i.destK, ∃ v, t.readK r = .ok v) ∧ (∀ r ∈ i.destF, ∃ e, t.readF r = .ok e) ∧
    (∀ r ∈ i.destP, ∃ q, t.readP r = .ok q)) ∧
  (∀ (i : Instr) (s t : State), exec i s = .next t →
    (∀ r v, s.readK r = .ok v → ∃ v', t.readK r = .ok v') ∧ (∀ r e, s.readF r = .ok e → ∃ e', t.readF r = .ok e') ∧
    (∀ r q, s.readP r = .ok q → ∃ q', t.readP r = .ok q'))

/-- A register reads back what was written and every other register of the three files is untouched (R7, R61). -/
def Obligations.RegisterWriteReadBack : Prop :=
  (∀ (s : State) (i j : KReg) (v : Word), (s.writeK i v).readK j = if j = i then .ok v else s.readK j) ∧
  (∀ (s : State) (i j : FReg) (e : FE), (s.writeF i e).readF j = if j = i then .ok e else s.readF j) ∧
  (∀ (s : State) (i j : PReg) (q : Pt), (s.writeP i q).readP j = if j = i then .ok q else s.readP j) ∧
  (∀ (s : State) (i : KReg) (v : Word), (s.writeK i v).f = s.f ∧ (s.writeK i v).p = s.p) ∧
  (∀ (s : State) (i : FReg) (e : FE), (s.writeF i e).k = s.k ∧ (s.writeF i e).p = s.p) ∧
  (∀ (s : State) (i : PReg) (q : Pt), (s.writeP i q).k = s.k ∧ (s.writeP i q).f = s.f)

/-- What NOP, KLD, KST, KMOV, STATRD and ERRCLR leave unchanged. -/
def Obligations.FrameOfInterfaceCommands : Prop :=
  ∀ (i : Instr) (s t : State), family i = .interface → exec i s = .next t → Frame i s t

/-- What FNEW, FZERO, FVAL, FMODU, FMOV and FEQ leave unchanged. -/
def Obligations.FrameOfFieldRegisterCommands : Prop :=
  ∀ (i : Instr) (s t : State), family i = .fieldRegs → exec i s = .next t → Frame i s t

/-- What FADD, FSUB, FMUL, FMONT, FPOW, FINV and FDIV leave unchanged. -/
def Obligations.FrameOfFieldArithmetic : Prop :=
  ∀ (i : Instr) (s t : State), family i = .fieldArith → exec i s = .next t → Frame i s t

/-- What PNEW, PGETX, PGETY, PGETA, PGETB, PISINF, PEQ, PMOV, PADD and PMUL leave unchanged. -/
def Obligations.FrameOfPointCommands : Prop :=
  ∀ (i : Instr) (s t : State), family i = .points → exec i s = .next t → Frame i s t

/-- What CPP, CPN, CPA, CPB, CPG, CPPOINT and LIFTX leave unchanged. -/
def Obligations.FrameOfCurveParameterCommands : Prop :=
  ∀ (i : Instr) (s t : State), family i = .curveParams → exec i s = .next t → Frame i s t

/-- What KEYPAIR, KEYGEN, SIGN and VERIFY leave unchanged; KEYGEN and SIGN leave a tail of the draws. -/
def Obligations.FrameOfEcdsaCommands : Prop :=
  ∀ (i : Instr) (s t : State), family i = .ecdsa → exec i s = .next t → Frame i s t ∧ t.draws <:+ s.draws

/-! ### Interface commands -/

/-- R100, R104, R105: NOP, STATRD and ERRCLR; `State.complete` is spelled out in NOP's clause. -/
def Obligations.NopStatrdErrclr : Prop :=
  RowIs 0x00000000#32 0xFFFFFFFF#32 (fun _ => .nop) ∧
  RowIs 0x04000000#32 0xFFFFFFFF#32 (fun _ => .statrd) ∧
  RowIs 0x05000000#32 0xFFFFFFFF#32 (fun _ => .errclr) ∧
  (∀ s : State, exec .nop s = .next { s with
      status := { s.status with cc := .ok }, rsp := some ⟨.ok, s.status.flag, 0⟩, cmd := none, rngReq := false }) ∧
  (∀ s : State, exec .statrd s = .next { s with
      rsp := some ⟨.ok, s.status.flag, s.status.word.setWidth 256⟩, cmd := none, rngReq := false }) ∧
  (∀ s : State, exec .errclr s = .next { s with
      status := { s.status with cc := .ok, errs := 0 }, rsp := some ⟨.ok, s.status.flag, 0⟩, cmd := none,
      rngReq := false })

/-- R101, R102, R103: KLD, KST and KMOV, in every state. -/
def Obligations.KldKstKmov : Prop :=
  RowIs 0x01000000#32 0xFF0FFFFF#32 (fun f => .kld f.a) ∧
  RowIs 0x02000000#32 0xFFF0FFFF#32 (fun f => .kst f.b) ∧
  RowIs 0x03000000#32 0xFF00FFFF#32 (fun f => .kmov f.a f.b) ∧
  (∀ (kd : KReg) (s : State), exec (.kld kd) s = .next (s.writeK kd s.din).complete) ∧
  (∀ (ks : KReg) (s : State) (v : Word), s.readK ks = .ok v → exec (.kst ks) s = .next { s with
      status := { s.status with cc := .ok }, rsp := some ⟨.ok, s.status.flag, v⟩, cmd := none, rngReq := false }) ∧
  (∀ (ks : KReg) (s : State), s.readK ks = .error .regInvalid → exec (.kst ks) s = .next (s.raise .regInvalid)) ∧
  (∀ (kd ks : KReg) (s : State) (v : Word), s.readK ks = .ok v →
    exec (.kmov kd ks) s = .next (s.writeK kd v).complete) ∧
  (∀ (kd ks : KReg) (s : State), s.readK ks = .error .regInvalid →
    exec (.kmov kd ks) s = .next (s.raise .regInvalid))

/-! ### Field elements -/

/-- R122, R123 with R120, R121: FNEW and FZERO reduce, and refuse an even modulus or one below 3. -/
def Obligations.FnewFzeroConstruct : Prop :=
  RowIs 0x10000000#32 0xFF000FFF#32 (fun f => .fnew f.a f.b f.c) ∧
  RowIs 0x11000000#32 0xFF0F0FFF#32 (fun f => .fzero f.a f.c) ∧
  (∀ (fd : FReg) (kv km : KReg) (s : State) (v m : Word), s.readK kv = .ok v → s.readK km = .ok m →
    m.toNat % 2 = 1 → 3 ≤ m.toNat →
    ∃ x : Word, x.toNat = v.toNat % m.toNat ∧ exec (.fnew fd kv km) s = .next (s.writeF fd ⟨x, m⟩).complete) ∧
  (∀ (fd : FReg) (kv km : KReg) (s : State) (v m : Word), s.readK kv = .ok v → s.readK km = .ok m →
    (m.toNat % 2 = 0 ∨ m.toNat < 3) → exec (.fnew fd kv km) s = .next (s.raise .badModulus)) ∧
  (∀ (fd : FReg) (kv km : KReg) (s : State),
    (s.readK kv = .error .regInvalid ∨ s.readK km = .error .regInvalid) →
    exec (.fnew fd kv km) s = .next (s.raise .regInvalid)) ∧
  (∀ (fd : FReg) (km : KReg) (s : State) (m : Word), s.readK km = .ok m → m.toNat % 2 = 1 → 3 ≤ m.toNat →
    exec (.fzero fd km) s = .next (s.writeF fd ⟨0, m⟩).complete) ∧
  (∀ (fd : FReg) (km : KReg) (s : State) (m : Word), s.readK km = .ok m → (m.toNat % 2 = 0 ∨ m.toNat < 3) →
    exec (.fzero fd km) s = .next (s.raise .badModulus)) ∧
  (∀ (fd : FReg) (km : KReg) (s : State), s.readK km = .error .regInvalid →
    exec (.fzero fd km) s = .next (s.raise .regInvalid))

/-- R124, R125, R126: FVAL, FMODU and FMOV copy from a valid F register and fail on an invalid one. -/
def Obligations.FvalFmoduFmovCopy : Prop :=
  RowIs 0x12000000#32 0xFF00FFFF#32 (fun f => .fval f.a f.b) ∧
  RowIs 0x13000000#32 0xFF00FFFF#32 (fun f => .fmodu f.a f.b) ∧
  RowIs 0x14000000#32 0xFF00FFFF#32 (fun f => .fmov f.a f.b) ∧
  (∀ (kd : KReg) (fd fs : FReg) (s : State) (e : FE), s.readF fs = .ok e →
    exec (.fval kd fs) s = .next (s.writeK kd e.value).complete ∧
    exec (.fmodu kd fs) s = .next (s.writeK kd e.modulus).complete ∧
    exec (.fmov fd fs) s = .next (s.writeF fd e).complete) ∧
  (∀ (kd : KReg) (fd fs : FReg) (s : State), s.readF fs = .error .regInvalid →
    exec (.fval kd fs) s = .next (s.raise .regInvalid) ∧
    exec (.fmodu kd fs) s = .next (s.raise .regInvalid) ∧
    exec (.fmov fd fs) s = .next (s.raise .regInvalid))

/-- R127: FEQ. -/
def Obligations.FeqComparesInOneField : Prop :=
  RowIs 0x15000000#32 0xFFF00FFF#32 (fun f => .feq f.b f.c) ∧
  (∀ (fs1 fs2 : FReg) (s : State) (a b : FE), s.readF fs1 = .ok a → s.readF fs2 = .ok b →
    a.modulus = b.modulus → exec (.feq fs1 fs2) s = .next (s.setFlag (decide (a.value = b.value))).complete) ∧
  (∀ (fs1 fs2 : FReg) (s : State) (a b : FE), s.readF fs1 = .ok a → s.readF fs2 = .ok b →
    a.modulus ≠ b.modulus → exec (.feq fs1 fs2) s = .next (s.raise .fieldMismatch)) ∧
  (∀ (fs1 fs2 : FReg) (s : State), (s.readF fs1 = .error .regInvalid ∨ s.readF fs2 = .error .regInvalid) →
    exec (.feq fs1 fs2) s = .next (s.raise .regInvalid))

/-- R142 with R140: FADD, by the remainder and by the unit's one conditional subtraction. -/
def Obligations.FaddAddsModuloM : Prop :=
  RowIs 0x20000000#32 0xFF000FFF#32 (fun f => .fadd f.a f.b f.c) ∧
  (∀ (fd fs1 fs2 : FReg) (s : State) (a b : FE), s.readF fs1 = .ok a → s.readF fs2 = .ok b →
    FeOk a → FeOk b → a.modulus = b.modulus →
    ∃ v : Word, v.toNat = (a.value.toNat + b.value.toNat) % a.modulus.toNat ∧
      v.toNat = adderUnit a.value.toNat b.value.toNat a.modulus.toNat ∧
      exec (.fadd fd fs1 fs2) s = .next (s.writeF fd ⟨v, a.modulus⟩).complete) ∧
  (∀ (fd fs1 fs2 : FReg) (s : State) (a b : FE), s.readF fs1 = .ok a → s.readF fs2 = .ok b →
    a.modulus ≠ b.modulus → exec (.fadd fd fs1 fs2) s = .next (s.raise .fieldMismatch)) ∧
  (∀ (fd fs1 fs2 : FReg) (s : State), (s.readF fs1 = .error .regInvalid ∨ s.readF fs2 = .error .regInvalid) →
    exec (.fadd fd fs1 fs2) s = .next (s.raise .regInvalid))

/-- R143 with R141: FSUB, by the remainder in `[0, m)` and by the unit's one conditional addition. -/
def Obligations.FsubSubtractsModuloM : Prop :=
  RowIs 0x21000000#32 0xFF000FFF#32 (fun f => .fsub f.a f.b f.c) ∧
  (∀ (fd fs1 fs2 : FReg) (s : State) (a b : FE), s.readF fs1 = .ok a → s.readF fs2 = .ok b →
    FeOk a → FeOk b → a.modulus = b.modulus →
    ∃ v : Word, (v.toNat : Int) = ((a.value.toNat : Int) - b.value.toNat) % a.modulus.toNat ∧
      (v.toNat : Int) = subtracterUnit a.value.toNat b.value.toNat a.modulus.toNat ∧
      exec (.fsub fd fs1 fs2) s = .next (s.writeF fd ⟨v, a.modulus⟩).complete) ∧
  (∀ (fd fs1 fs2 : FReg) (s : State) (a b : FE), s.readF fs1 = .ok a → s.readF fs2 = .ok b →
    a.modulus ≠ b.modulus → exec (.fsub fd fs1 fs2) s = .next (s.raise .fieldMismatch)) ∧
  (∀ (fd fs1 fs2 : FReg) (s : State), (s.readF fs1 = .error .regInvalid ∨ s.readF fs2 = .error .regInvalid) →
    exec (.fsub fd fs1 fs2) s = .next (s.raise .regInvalid))

/-- R156: FMUL by its contract. -/
def Obligations.FmulMultipliesModuloM : Prop :=
  RowIs 0x22000000#32 0xFF000FFF#32 (fun f => .fmul f.a f.b f.c) ∧
  (∀ (fd fs1 fs2 : FReg) (s : State) (a b : FE), s.readF fs1 = .ok a → s.readF fs2 = .ok b →
    FeOk a → FeOk b → a.modulus = b.modulus →
    ∃ v : Word, v.toNat = a.value.toNat * b.value.toNat % a.modulus.toNat ∧
      exec (.fmul fd fs1 fs2) s = .next (s.writeF fd ⟨v, a.modulus⟩).complete) ∧
  (∀ (fd fs1 fs2 : FReg) (s : State) (a b : FE), s.readF fs1 = .ok a → s.readF fs2 = .ok b →
    a.modulus ≠ b.modulus → exec (.fmul fd fs1 fs2) s = .next (s.raise .fieldMismatch)) ∧
  (∀ (fd fs1 fs2 : FReg) (s : State), (s.readF fs1 = .error .regInvalid ∨ s.readF fs2 = .error .regInvalid) →
    exec (.fmul fd fs1 fs2) s = .next (s.raise .regInvalid))

/-- The per-modulus constants of R151, for every accepted modulus: `m * m' mod R = R - 1`, `R2 = R^2 mod m`. -/
def Obligations.MontgomeryConstants : Prop :=
  ∀ m : Word, m.toNat % 2 = 1 → 3 ≤ m.toNat →
    m.toNat * (montNegInv m).toNat % montR = montR - 1 ∧ montR2 m = montR * montR % m.toNat

/-- R152: `REDC(T, m)` is below `m` and is `T * R^-1 mod m`; its division is exact. -/
def Obligations.RedcDividesByTheRadix : Prop :=
  ∀ (m : Word) (t : Nat), m.toNat % 2 = 1 → 3 ≤ m.toNat → t < m.toNat * montR →
    redc t m < m.toNat ∧ redc t m * montR % m.toNat = t % m.toNat ∧
    montR ∣ t + (t % montR * (montNegInv m).toNat) % montR * m.toNat

/-- R157: FMONT's result `v` is the residue with `v * 2^256 = a * b (mod m)`. -/
def Obligations.FmontIsOneMontgomeryPass : Prop :=
  RowIs 0x23000000#32 0xFF000FFF#32 (fun f => .fmont f.a f.b f.c) ∧
  (∀ (fd fs1 fs2 : FReg) (s : State) (a b : FE), s.readF fs1 = .ok a → s.readF fs2 = .ok b →
    FeOk a → FeOk b → a.modulus = b.modulus →
    ∃ v : Word, v.toNat < a.modulus.toNat ∧
      v.toNat * 2 ^ 256 % a.modulus.toNat = a.value.toNat * b.value.toNat % a.modulus.toNat ∧
      exec (.fmont fd fs1 fs2) s = .next (s.writeF fd ⟨v, a.modulus⟩).complete) ∧
  (∀ (fd fs1 fs2 : FReg) (s : State) (a b : FE), s.readF fs1 = .ok a → s.readF fs2 = .ok b →
    a.modulus ≠ b.modulus → exec (.fmont fd fs1 fs2) s = .next (s.raise .fieldMismatch)) ∧
  (∀ (fd fs1 fs2 : FReg) (s : State), (s.readF fs1 = .error .regInvalid ∨ s.readF fs2 = .error .regInvalid) →
    exec (.fmont fd fs1 fs2) s = .next (s.raise .regInvalid))

/-- R158: FPOW's value is the power modulo `m`, `x^0 = 1` for every `x`. -/
def Obligations.FpowRaisesToThePower : Prop :=
  RowIs 0x24000000#32 0xFF000FFF#32 (fun f => .fpow f.a f.b f.c) ∧
  (∀ (fd fs : FReg) (ke : KReg) (s : State) (a : FE) (e : Word), s.readF fs = .ok a → s.readK ke = .ok e →
    FeOk a →
    ∃ v : Word, v.toNat = a.value.toNat ^ e.toNat % a.modulus.toNat ∧
      exec (.fpow fd fs ke) s = .next (s.writeF fd ⟨v, a.modulus⟩).complete) ∧
  (∀ (fd fs : FReg) (ke : KReg) (s : State), (s.readF fs = .error .regInvalid ∨ s.readK ke = .error .regInvalid) →
    exec (.fpow fd fs ke) s = .next (s.raise .regInvalid))

/-- The unit reaches what the contracts promise: two Montgomery passes give the plain product (R154), and the loop in
Montgomery form gives the power (R155). -/
def Obligations.MontgomeryFormsReachTheContracts : Prop :=
  (∀ a b : FE, FeOk a → FeOk b → a.modulus = b.modulus →
    fMulTwoPass a b = a.value.toNat * b.value.toNat % a.modulus.toNat) ∧
  (∀ (a : FE) (e : Word), FeOk a → fPowMont a e = a.value.toNat ^ e.toNat % a.modulus.toNat)

/-- R175 with R170, R171: FINV gives the inverse in `[0, m)` exactly when `gcd(value, m) = 1`, else `NotInvertible`. -/
def Obligations.FinvInvertsUnitsOnly : Prop :=
  RowIs 0x25000000#32 0xFF00FFFF#32 (fun f => .finv f.a f.b) ∧
  (∀ (fd fs : FReg) (s : State) (a : FE), s.readF fs = .ok a → FeOk a →
    Nat.gcd a.value.toNat a.modulus.toNat = 1 →
    ∃ v : Word, v.toNat < a.modulus.toNat ∧ a.value.toNat * v.toNat % a.modulus.toNat = 1 ∧
      exec (.finv fd fs) s = .next (s.writeF fd ⟨v, a.modulus⟩).complete) ∧
  (∀ (fd fs : FReg) (s : State) (a : FE), s.readF fs = .ok a → FeOk a →
    Nat.gcd a.value.toNat a.modulus.toNat ≠ 1 → exec (.finv fd fs) s = .next (s.raise .notInvertible)) ∧
  (∀ (fd fs : FReg) (s : State), s.readF fs = .error .regInvalid →
    exec (.finv fd fs) s = .next (s.raise .regInvalid))

/-- R176 with R174: FDIV's value times the divisor is the dividend; the field check comes before the inversion. -/
def Obligations.FdivDividesByUnitsOnly : Prop :=
  RowIs 0x26000000#32 0xFF000FFF#32 (fun f => .fdiv f.a f.b f.c) ∧
  (∀ (fd fs1 fs2 : FReg) (s : State) (a b : FE), s.readF fs1 = .ok a → s.readF fs2 = .ok b →
    FeOk a → FeOk b → a.modulus = b.modulus → Nat.gcd b.value.toNat b.modulus.toNat = 1 →
    ∃ v : Word, v.toNat < a.modulus.toNat ∧ v.toNat * b.value.toNat % a.modulus.toNat = a.value.toNat ∧
      exec (.fdiv fd fs1 fs2) s = .next (s.writeF fd ⟨v, a.modulus⟩).complete) ∧
  (∀ (fd fs1 fs2 : FReg) (s : State) (a b : FE), s.readF fs1 = .ok a → s.readF fs2 = .ok b →
    FeOk a → FeOk b → a.modulus = b.modulus → Nat.gcd b.value.toNat b.modulus.toNat ≠ 1 →
    exec (.fdiv fd fs1 fs2) s = .next (s.raise .notInvertible)) ∧
  (∀ (fd fs1 fs2 : FReg) (s : State) (a b : FE), s.readF fs1 = .ok a → s.readF fs2 = .ok b →
    a.modulus ≠ b.modulus → exec (.fdiv fd fs1 fs2) s = .next (s.raise .fieldMismatch)) ∧
  (∀ (fd fs1 fs2 : FReg) (s : State), (s.readF fs1 = .error .regInvalid ∨ s.readF fs2 = .error .regInvalid) →
    exec (.fdiv fd fs1 fs2) s = .next (s.raise .regInvalid))

/-! ### Points -/

/-- R187 with R185: PNEW's forms and the order of its failures. -/
def Obligations.PnewConstructsAndValidates : Prop :=
  RowIs 0x30000000#32 0xFF00000C#32
    (fun f => .pnew f.a f.b f.c f.d f.e (f.m.getLsbD 1) (f.m.getLsbD 0)) ∧
  (∀ (pd : PReg) (fx fy fa fb : FReg) (xp yp : Bool) (s : State), xp ≠ yp →
    exec (.pnew pd fx fy fa fb xp yp) s = .next (s.raise .invalidPointShape)) ∧
  (∀ (pd : PReg) (fx fy fa fb : FReg) (s : State),
    (s.readF fa = .error .regInvalid ∨ s.readF fb = .error .regInvalid) →
    exec (.pnew pd fx fy fa fb false false) s = .next (s.raise .regInvalid)) ∧
  (∀ (pd : PReg) (fx fy fa fb : FReg) (s : State) (a b : FE), s.readF fa = .ok a → s.readF fb = .ok b →
    (a.modulus = b.modulus → exec (.pnew pd fx fy fa fb false false) s =
      .next (s.writeP pd (.inf a.value b.value a.modulus)).complete) ∧
    (a.modulus ≠ b.modulus → exec (.pnew pd fx fy fa fb false false) s = .next (s.raise .fieldMismatch))) ∧
  (∀ (pd : PReg) (fx fy fa fb : FReg) (s : State),
    (s.readF fx = .error .regInvalid ∨ s.readF fy = .error .regInvalid ∨ s.readF fa = .error .regInvalid ∨
      s.readF fb = .error .regInvalid) →
    exec (.pnew pd fx fy fa fb true true) s = .next (s.raise .regInvalid)) ∧
  (∀ (pd : PReg) (fx fy fa fb : FReg) (s : State) (x y a b : FE), s.readF fx = .ok x → s.readF fy = .ok y →
    s.readF fa = .ok a → s.readF fb = .ok b → FeOk a →
    (¬ (b.modulus = a.modulus ∧ x.modulus = a.modulus ∧ y.modulus = a.modulus) →
      exec (.pnew pd fx fy fa fb true true) s = .next (s.raise .fieldMismatch)) ∧
    (b.modulus = a.modulus → x.modulus = a.modulus → y.modulus = a.modulus →
      y.value.toNat * y.value.toNat % a.modulus.toNat =
        (x.value.toNat * x.value.toNat * x.value.toNat + a.value.toNat * x.value.toNat + b.value.toNat)
          % a.modulus.toNat →
      exec (.pnew pd fx fy fa fb true true) s =
        .next (s.writeP pd (.aff x.value y.value a.value b.value a.modulus)).complete) ∧
    (b.modulus = a.modulus → x.modulus = a.modulus → y.modulus = a.modulus →
      y.value.toNat * y.value.toNat % a.modulus.toNat ≠
        (x.value.toNat * x.value.toNat * x.value.toNat + a.value.toNat * x.value.toNat + b.value.toNat)
          % a.modulus.toNat →
      exec (.pnew pd fx fy fa fb true true) s = .next (s.raise .notOnCurve)))

/-- R188 to R191: the four accessors; a coordinate of Infinity is `NoCoordinate`. -/
def Obligations.PointAccessors : Prop :=
  RowIs 0x31000000#32 0xFF00FFFF#32 (fun f => .pgetx f.a f.b) ∧
  RowIs 0x32000000#32 0xFF00FFFF#32 (fun f => .pgety f.a f.b) ∧
  RowIs 0x33000000#32 0xFF00FFFF#32 (fun f => .pgeta f.a f.b) ∧
  RowIs 0x34000000#32 0xFF00FFFF#32 (fun f => .pgetb f.a f.b) ∧
  (∀ (fd : FReg) (ps : PReg) (s : State) (x y a b m : Word), s.readP ps = .ok (.aff x y a b m) →
    exec (.pgetx fd ps) s = .next (s.writeF fd ⟨x, m⟩).complete ∧
    exec (.pgety fd ps) s = .next (s.writeF fd ⟨y, m⟩).complete ∧
    exec (.pgeta fd ps) s = .next (s.writeF fd ⟨a, m⟩).complete ∧
    exec (.pgetb fd ps) s = .next (s.writeF fd ⟨b, m⟩).complete) ∧
  (∀ (fd : FReg) (ps : PReg) (s : State) (a b m : Word), s.readP ps = .ok (.inf a b m) →
    exec (.pgetx fd ps) s = .next (s.raise .noCoordinate) ∧
    exec (.pgety fd ps) s = .next (s.raise .noCoordinate) ∧
    exec (.pgeta fd ps) s = .next (s.writeF fd ⟨a, m⟩).complete ∧
    exec (.pgetb fd ps) s = .next (s.writeF fd ⟨b, m⟩).complete) ∧
  (∀ (fd : FReg) (ps : PReg) (s : State), s.readP ps = .error .regInvalid →
    exec (.pgetx fd ps) s = .next (s.raise .regInvalid) ∧ exec (.pgety fd ps) s = .next (s.raise .regInvalid) ∧
    exec (.pgeta fd ps) s = .next (s.raise .regInvalid) ∧ exec (.pgetb fd ps) s = .next (s.raise .regInvalid))

/-- R192, R193, R194: PISINF, PEQ (structural and total, R186) and PMOV. -/
def Obligations.PisinfPeqPmov : Prop :=
  RowIs 0x35000000#32 0xFFF0FFFF#32 (fun f => .pisinf f.b) ∧
  RowIs 0x36000000#32 0xFFF00FFF#32 (fun f => .peq f.b f.c) ∧
  RowIs 0x37000000#32 0xFF00FFFF#32 (fun f => .pmov f.a f.b) ∧
  (∀ (ps : PReg) (s : State) (q : Pt), s.readP ps = .ok q →
    exec (.pisinf ps) s = .next (s.setFlag q.isInf).complete) ∧
  (∀ (ps1 ps2 : PReg) (s : State) (p q : Pt), s.readP ps1 = .ok p → s.readP ps2 = .ok q →
    exec (.peq ps1 ps2) s = .next (s.setFlag (decide (p = q))).complete) ∧
  (∀ (pd ps : PReg) (s : State) (q : Pt), s.readP ps = .ok q →
    exec (.pmov pd ps) s = .next (s.writeP pd q).complete) ∧
  (∀ (pd ps : PReg) (s : State), s.readP ps = .error .regInvalid →
    exec (.pisinf ps) s = .next (s.raise .regInvalid) ∧ exec (.pmov pd ps) s = .next (s.raise .regInvalid)) ∧
  (∀ (ps1 ps2 : PReg) (s : State), (s.readP ps1 = .error .regInvalid ∨ s.readP ps2 = .error .regInvalid) →
    exec (.peq ps1 ps2) s = .next (s.raise .regInvalid))

/-- PADD (R207) in the cases of R206 that need no slope: different curves fail, Infinity is the identity, points with
one `x` and different `y` give Infinity, and so does doubling at `y = 0` (R208); otherwise the sum of `pAdd`. -/
def Obligations.PaddCases : Prop :=
  RowIs 0x38000000#32 0xFF000FFF#32 (fun f => .padd f.a f.b f.c) ∧
  (∀ (pd ps1 ps2 : PReg) (s : State), (s.readP ps1 = .error .regInvalid ∨ s.readP ps2 = .error .regInvalid) →
    exec (.padd pd ps1 ps2) s = .next (s.raise .regInvalid)) ∧
  (∀ (pd ps1 ps2 : PReg) (s : State) (p q : Pt), s.readP ps1 = .ok p → s.readP ps2 = .ok q →
    (p.curve ≠ q.curve → exec (.padd pd ps1 ps2) s = .next (s.raise .curveMismatch)) ∧
    (p.curve = q.curve → p.isInf = true → exec (.padd pd ps1 ps2) s = .next (s.writeP pd q).complete) ∧
    (p.curve = q.curve → q.isInf = true → p.isInf = false →
      exec (.padd pd ps1 ps2) s = .next (s.writeP pd p).complete) ∧
    (∀ t, pAdd p q = .ok t → exec (.padd pd ps1 ps2) s = .next (s.writeP pd t).complete) ∧
    (∀ k, pAdd p q = .error k → exec (.padd pd ps1 ps2) s = .next (s.raise k))) ∧
  (∀ (pd ps1 ps2 : PReg) (s : State) (x y1 y2 a b m : Word), s.readP ps1 = .ok (.aff x y1 a b m) →
    s.readP ps2 = .ok (.aff x y2 a b m) → (y1 ≠ y2 ∨ (y1 = 0 ∧ y2 = 0)) →
    exec (.padd pd ps1 ps2) s = .next (s.writeP pd (.inf a b m)).complete)

/-- The slope cases of R206: chord and tangent as congruences modulo `m`, and `NotInvertible` exactly when the slope's
denominator is no unit (R209). -/
def Obligations.PointAdderChordAndTangent : Prop :=
  (∀ x1 y1 x2 y2 a b m : Word, PtOk (.aff x1 y1 a b m) → PtOk (.aff x2 y2 a b m) → x1 ≠ x2 →
    (Int.gcd ((x2.toNat : Int) - x1.toNat) m.toNat = 1 →
      ∃ l x3 y3 : Word, pAdd (.aff x1 y1 a b m) (.aff x2 y2 a b m) = .ok (.aff x3 y3 a b m) ∧
        (l.toNat : Int) * ((x2.toNat : Int) - x1.toNat) ≡ (y2.toNat : Int) - y1.toNat [ZMOD m.toNat] ∧
        (x3.toNat : Int) ≡ (l.toNat : Int) * l.toNat - x1.toNat - x2.toNat [ZMOD m.toNat] ∧
        (y3.toNat : Int) ≡ (l.toNat : Int) * ((x1.toNat : Int) - x3.toNat) - y1.toNat [ZMOD m.toNat] ∧
        x3.toNat < m.toNat ∧ y3.toNat < m.toNat) ∧
    (Int.gcd ((x2.toNat : Int) - x1.toNat) m.toNat ≠ 1 →
      pAdd (.aff x1 y1 a b m) (.aff x2 y2 a b m) = .error .notInvertible)) ∧
  (∀ x1 y1 a b m : Word, PtOk (.aff x1 y1 a b m) → y1 ≠ 0 →
    (Nat.gcd (2 * y1.toNat) m.toNat = 1 →
      ∃ l x3 y3 : Word, pAdd (.aff x1 y1 a b m) (.aff x1 y1 a b m) = .ok (.aff x3 y3 a b m) ∧
        (l.toNat : Int) * (2 * y1.toNat) ≡ 3 * (x1.toNat : Int) * x1.toNat + a.toNat [ZMOD m.toNat] ∧
        (x3.toNat : Int) ≡ (l.toNat : Int) * l.toNat - 2 * x1.toNat [ZMOD m.toNat] ∧
        (y3.toNat : Int) ≡ (l.toNat : Int) * ((x1.toNat : Int) - x3.toNat) - y1.toNat [ZMOD m.toNat] ∧
        x3.toNat < m.toNat ∧ y3.toNat < m.toNat) ∧
    (Nat.gcd (2 * y1.toNat) m.toNat ≠ 1 →
      pAdd (.aff x1 y1 a b m) (.aff x1 y1 a b m) = .error .notInvertible))

/-- R222: PMUL is `ScalarMul`; `k = 0` and a base at Infinity give the Infinity of the base's curve. -/
def Obligations.PmulMultiplies : Prop :=
  RowIs 0x39000000#32 0xFF000FFF#32 (fun f => .pmul f.a f.b f.c) ∧
  (∀ (pd ps : PReg) (kk : KReg) (s : State) (p : Pt) (k : Word), s.readP ps = .ok p → s.readK kk = .ok k →
    (∀ t, scalarMul p k = .ok t → exec (.pmul pd ps kk) s = .next (s.writeP pd t).complete) ∧
    (∀ c, scalarMul p k = .error c → exec (.pmul pd ps kk) s = .next (s.raise c) ∧ c = .notInvertible) ∧
    (k = 0 ∨ p.isInf = true →
      exec (.pmul pd ps kk) s = .next (s.writeP pd (.inf p.a p.b p.m)).complete)) ∧
  (∀ (pd ps : PReg) (kk : KReg) (s : State), (s.readP ps = .error .regInvalid ∨ s.readK kk = .error .regInvalid) →
    exec (.pmul pd ps kk) s = .next (s.raise .regInvalid))

/-- `ScalarMul` (R221): from the Infinity of the point's curve the loop consumes the scalar from its least significant bit
and runs `bitlen(k)` times (a bound on the passes that covers the scalar's bits changes nothing), each pass adds on a 1
bit and doubles always (R223), and at `k = 0` the accumulator is the result. -/
def Obligations.ScalarLoopTakesBitsInOrder : Prop :=
  (∀ (p : Pt) (k : Word), scalarMul p k = scalarLoop 256 (.inf p.a p.b p.m) p k.toNat) ∧
  (∀ (n : Nat) (acc base : Pt), scalarLoop n acc base 0 = .ok acc) ∧
  (∀ (n m : Nat) (acc base : Pt) (k : Nat), k < 2 ^ n → n ≤ m →
    scalarLoop m acc base k = scalarLoop n acc base k) ∧
  (∀ (n : Nat) (acc base : Pt) (k : Nat), scalarLoop (n + 1) acc base (2 * k + 1) = (do
    let acc' ← pAdd acc base
    let base' ← pAdd base base
    scalarLoop n acc' base' k)) ∧
  (∀ (n : Nat) (acc base : Pt) (k : Nat), 0 < k → scalarLoop (n + 1) acc base (2 * k) = (do
    let base' ← pAdd base base
    scalarLoop n acc base' k))

/-- The properties of R224. Over a prime modulus, on a curve whose discriminant is not 0, `(j+k)*P = j*P + k*P`, and the
multiples are on the curve; `0*P` is Infinity; `n*G` is Infinity; `100*G + G = 101*G`. -/
def Obligations.ScalarMultiplesAdd : Prop :=
  (∀ (q : Pt) (j k l : Word), EllipticOk q → l.toNat = j.toNat + k.toNat →
    ∃ u v w, scalarMul q j = .ok u ∧ scalarMul q k = .ok v ∧ scalarMul q l = .ok w ∧ pAdd u v = .ok w ∧
      OnCurve w) ∧
  (∀ q : Pt, scalarMul q 0 = .ok (.inf q.a q.b q.m)) ∧
  scalarMul cpG cpN = .ok (.inf 0 7 cpP) ∧
  (∃ t u, scalarMul cpG 100 = .ok t ∧ pAdd t cpG = .ok u ∧ scalarMul cpG 101 = .ok u)

/-! ### Curve parameters -/

/-- R236 to R240 with the constants of R235. -/
def Obligations.RomCopies : Prop :=
  RowIs 0x40000000#32 0xFF0FFFFF#32 (fun f => .cpp f.a) ∧
  RowIs 0x41000000#32 0xFF0FFFFF#32 (fun f => .cpn f.a) ∧
  RowIs 0x42000000#32 0xFF0FFFFF#32 (fun f => .cpa f.a) ∧
  RowIs 0x43000000#32 0xFF0FFFFF#32 (fun f => .cpb f.a) ∧
  RowIs 0x44000000#32 0xFF0FFFFF#32 (fun f => .cpg f.a) ∧
  cpP.toNat = 2 ^ 256 - 2 ^ 32 - 977 ∧
  cpN.toNat = 115792089237316195423570985008687907852837564279074904382605163141518161494337 ∧
  (∀ (r : BitVec 4) (s : State),
    exec (.cpp r) s = .next (s.writeK r cpP).complete ∧ exec (.cpn r) s = .next (s.writeK r cpN).complete ∧
    exec (.cpa r) s = .next (s.writeF r ⟨0, cpP⟩).complete ∧ exec (.cpb r) s = .next (s.writeF r ⟨7, cpP⟩).complete ∧
    exec (.cpg r) s = .next (s.writeP r (.aff
      (BitVec.ofNat 256 55066263022277343669578718895168534326250603453777594175500187360389116729240)
      (BitVec.ofNat 256 32670510020758816978083085130507043184471273380659243275938904335757337482424)
      0 7 cpP)).complete)

/-- R241: CPPOINT reduces both integers modulo `p` and validates the point. -/
def Obligations.CppointValidates : Prop :=
  RowIs 0x45000000#32 0xFF000FFF#32 (fun f => .cppoint f.a f.b f.c) ∧
  (∀ (pd : PReg) (kx ky : KReg) (s : State), (s.readK kx = .error .regInvalid ∨ s.readK ky = .error .regInvalid) →
    exec (.cppoint pd kx ky) s = .next (s.raise .regInvalid)) ∧
  (∀ (pd : PReg) (kx ky : KReg) (s : State) (u v x y : Word), s.readK kx = .ok u → s.readK ky = .ok v →
    x.toNat = u.toNat % cpP.toNat → y.toNat = v.toNat % cpP.toNat →
    (y.toNat * y.toNat % cpP.toNat = (x.toNat * x.toNat * x.toNat + 7) % cpP.toNat →
      exec (.cppoint pd kx ky) s = .next (s.writeP pd (.aff x y 0 7 cpP)).complete) ∧
    (y.toNat * y.toNat % cpP.toNat ≠ (x.toNat * x.toNat * x.toNat + 7) % cpP.toNat →
      exec (.cppoint pd kx ky) s = .next (s.raise .notOnCurve)))

/-- R242 with R243: LIFTX takes the root `w^((p+1)/4) mod p` when the Legendre test `w^((p-1)/2) mod p` gives 1, and the
point is then on the curve; else `NoSquareRoot`. -/
def Obligations.LiftxLifts : Prop :=
  RowIs 0x46000000#32 0xFF00FFFF#32 (fun f => .liftx f.a f.b) ∧
  (∀ (pd : PReg) (kx : KReg) (s : State), s.readK kx = .error .regInvalid →
    exec (.liftx pd kx) s = .next (s.raise .regInvalid)) ∧
  (∀ (pd : PReg) (kx : KReg) (s : State) (u x : Word) (w : Nat), s.readK kx = .ok u →
    x.toNat = u.toNat % cpP.toNat → w = (x.toNat * x.toNat * x.toNat + 7) % cpP.toNat →
    (w ^ ((cpP.toNat - 1) / 2) % cpP.toNat = 1 →
      ∃ y : Word, y.toNat = w ^ ((cpP.toNat + 1) / 4) % cpP.toNat ∧ y.toNat * y.toNat % cpP.toNat = w ∧
        exec (.liftx pd kx) s = .next (s.writeP pd (.aff x y 0 7 cpP)).complete) ∧
    (w ^ ((cpP.toNat - 1) / 2) % cpP.toNat ≠ 1 →
      exec (.liftx pd kx) s = .next (s.raise .noSquareRoot)))

/-! ### ECDSA -/

/-- R257: KEYPAIR. -/
def Obligations.KeypairDerivesThePublicPoint : Prop :=
  RowIs 0x50000000#32 0xFF0F0FFF#32 (fun f => .keypair f.a f.c) ∧
  (∀ (pq : PReg) (kd : KReg) (s : State), s.readK kd = .error .regInvalid →
    exec (.keypair pq kd) s = .next (s.raise .regInvalid)) ∧
  (∀ (pq : PReg) (kd : KReg) (s : State) (d : Word), s.readK kd = .ok d → (d.toNat = 0 ∨ cpN.toNat ≤ d.toNat) →
    exec (.keypair pq kd) s = .next (s.raise .invalidScalar)) ∧
  (∀ (pq : PReg) (kd : KReg) (s : State) (d : Word) (q : Pt), s.readK kd = .ok d → 1 ≤ d.toNat →
    d.toNat ≤ cpN.toNat - 1 → scalarMul cpG d = .ok q →
    exec (.keypair pq kd) s = .next (s.writeP pq q).complete)

/-- R258 with R256: KEYGEN discards the draws outside `[1, n-1]`, takes the first one inside and no further one. -/
def Obligations.KeygenTakesTheFirstAcceptableDraw : Prop :=
  RowIs 0x51000000#32 0xFF00FFFF#32 (fun f => .keygen f.a f.b) ∧
  (∀ (pq : PReg) (kd : KReg) (s : State) (before rest : List Word) (d : Word) (q : Pt),
    s.draws = before ++ d :: rest → (∀ c ∈ before, ¬ Accepted c) → Accepted d → scalarMul cpG d = .ok q →
    exec (.keygen pq kd) s = .next (((s.withDraws rest).writeP pq q).writeK kd d).complete)

/-- R260: SIGN's words and checks, a rejected draw, a pass that resamples, and a pass that signs; the results lie in
`[1, n-1]`. -/
def Obligations.SignSigns : Prop :=
  (∀ w : CmdWord, w &&& 0xFF0000FF#32 = 0x52000000#32 →
    ((splitWord w).a ≠ (splitWord w).b → decode w =
      .ok (.sign (splitWord w).a (splitWord w).b (splitWord w).c (splitWord w).d)) ∧
    ((splitWord w).a = (splitWord w).b → decode w = .error .signSameDestination)) ∧
  (∀ (kr ks kz kd : KReg) (s : State), kr = ks →
    exec (.sign kr ks kz kd) s = .next (s.raise .illegalCommand)) ∧
  (∀ (kr ks kz kd : KReg) (s : State), kr ≠ ks →
    (s.readK kz = .error .regInvalid ∨ s.readK kd = .error .regInvalid) →
    exec (.sign kr ks kz kd) s = .next (s.raise .regInvalid)) ∧
  (∀ (kr ks kz kd : KReg) (s : State) (z d : Word), kr ≠ ks → s.readK kz = .ok z → s.readK kd = .ok d →
    (d.toNat = 0 ∨ cpN.toNat ≤ d.toNat) → exec (.sign kr ks kz kd) s = .next (s.raise .invalidScalar)) ∧
  (∀ (kr ks kz kd : KReg) (s : State) (z d k : Word) (rest : List Word), kr ≠ ks → s.readK kz = .ok z →
    s.readK kd = .ok d → Accepted d → s.draws = k :: rest →
    (¬ Accepted k → exec (.sign kr ks kz kd) s = exec (.sign kr ks kz kd) (s.withDraws rest)) ∧
    (∀ (x y a b m kinv r e t : Word), Accepted k → scalarMul cpG k = .ok (.aff x y a b m) →
      kinv.toNat < cpN.toNat → k.toNat * kinv.toNat % cpN.toNat = 1 → r.toNat = x.toNat % cpN.toNat →
      e.toNat = (z.toNat % cpN.toNat + r.toNat * d.toNat % cpN.toNat) % cpN.toNat →
      t.toNat = kinv.toNat * e.toNat % cpN.toNat →
      ((r = 0 ∨ t = 0) → exec (.sign kr ks kz kd) s = exec (.sign kr ks kz kd) (s.withDraws rest)) ∧
      (r ≠ 0 → t ≠ 0 → Accepted r ∧ Accepted t ∧
        exec (.sign kr ks kz kd) s = .next (((s.withDraws rest).writeK kr r).writeK ks t).complete)))

/-- R262: VERIFY's shape test, curve test and the three outcomes of its equation, each with its FLAG and VRES (R32). -/
def Obligations.VerifyVerifies : Prop :=
  RowIs 0x53000000#32 0xFFF0000F#32 (fun f => .verify f.b f.c f.d f.e) ∧
  (∀ (kz kr ks : KReg) (pq : PReg) (s : State),
    (s.readK kz = .error .regInvalid ∨ s.readK kr = .error .regInvalid ∨ s.readK ks = .error .regInvalid ∨
      s.readP pq = .error .regInvalid) →
    exec (.verify kz kr ks pq) s = .next (s.raise .regInvalid)) ∧
  (∀ (kz kr ks : KReg) (pq : PReg) (s : State) (z r t : Word) (q : Pt), s.readK kz = .ok z → s.readK kr = .ok r →
    s.readK ks = .ok t → s.readP pq = .ok q →
    (¬ (Accepted r ∧ Accepted t) → exec (.verify kz kr ks pq) s = .next (s.withFlags false 1).complete) ∧
    (Accepted r → Accepted t → q.curve ≠ (0, 7, cpP) →
      exec (.verify kz kr ks pq) s = .next (s.raise .curveMismatch)) ∧
    (∀ (tinv u1 u2 : Word) (g1 q2 : Pt), Accepted r → Accepted t → q.curve = (0, 7, cpP) →
      tinv.toNat < cpN.toNat → t.toNat * tinv.toNat % cpN.toNat = 1 →
      u1.toNat = z.toNat % cpN.toNat * tinv.toNat % cpN.toNat → u2.toNat = r.toNat * tinv.toNat % cpN.toNat →
      scalarMul cpG u1 = .ok g1 → scalarMul q u2 = .ok q2 →
      (∀ a b m, pAdd g1 q2 = .ok (.inf a b m) →
        exec (.verify kz kr ks pq) s = .next (s.withFlags false 2).complete) ∧
      (∀ x y a b m, pAdd g1 q2 = .ok (.aff x y a b m) →
        (r.toNat = x.toNat % cpN.toNat →
          exec (.verify kz kr ks pq) s = .next (s.withFlags true 0).complete) ∧
        (r.toNat ≠ x.toNat % cpN.toNat →
          exec (.verify kz kr ks pq) s = .next (s.withFlags false 3).complete))))

/-- R302 with R209: because `CP.p` and `CP.n` are prime, no command on the ROM's curve ever ends with `NotInvertible`,
nor LIFTX with `UnsupportedModulus` or `NotOnCurve`, and no multiple of the generator below `n` is Infinity; so KEYPAIR,
KEYGEN and VERIFY complete on every acceptable operand, PADD and PMUL on every valid operand over a prime modulus, and
each pass of SIGN with an acceptable draw resamples or ends. -/
def Obligations.PrimeModuliLeaveNoFailure : Prop :=
  cpP.toNat.Prime ∧ cpN.toNat.Prime ∧
  (∀ (i : Instr) (s t : State), FilesOk s → i.onRomCurve = true → exec i s = .next t → t.rngReq = false →
    t.rsp.map Response.cc ≠ some (.fail .notInvertible)) ∧
  (∀ (pd : PReg) (kx : KReg) (s t : State), exec (.liftx pd kx) s = .next t →
    t.rsp.map Response.cc ≠ some (.fail .unsupportedModulus) ∧ t.rsp.map Response.cc ≠ some (.fail .notOnCurve)) ∧
  (∀ k : Word, Accepted k → ∃ x y, scalarMul cpG k = .ok (.aff x y 0 7 cpP)) ∧
  (∀ (pq : PReg) (kd : KReg) (s : State) (d : Word), s.readK kd = .ok d → Accepted d →
    ∃ x y, exec (.keypair pq kd) s = .next (s.writeP pq (.aff x y 0 7 cpP)).complete) ∧
  (∀ (pq : PReg) (kd : KReg) (s : State) (c : Word), c ∈ s.draws → Accepted c →
    ∃ d rest x y, Accepted d ∧ d :: rest <:+ s.draws ∧ exec (.keygen pq kd) s =
      .next (((s.withDraws rest).writeP pq (.aff x y 0 7 cpP)).writeK kd d).complete) ∧
  (∀ (kr ks kz kd : KReg) (s : State) (z d k : Word) (rest : List Word), kr ≠ ks → s.readK kz = .ok z →
    s.readK kd = .ok d → Accepted d → s.draws = k :: rest → Accepted k →
    ∃ x y r t : Word, scalarMul cpG k = .ok (.aff x y 0 7 cpP) ∧ r.toNat = x.toNat % cpN.toNat ∧
      t.toNat < cpN.toNat ∧ k.toNat * t.toNat % cpN.toNat = (z.toNat + r.toNat * d.toNat) % cpN.toNat ∧
      exec (.sign kr ks kz kd) s = (if r = 0 ∨ t = 0 then exec (.sign kr ks kz kd) (s.withDraws rest)
        else .next (((s.withDraws rest).writeK kr r).writeK ks t).complete)) ∧
  (∀ (kz kr ks : KReg) (pq : PReg) (s : State) (z r t : Word) (q : Pt), s.readK kz = .ok z → s.readK kr = .ok r →
    s.readK ks = .ok t → s.readP pq = .ok q → PtOk q → Accepted r → Accepted t → q.curve = (0, 7, cpP) →
    ∃ v, exec (.verify kz kr ks pq) s = .next (s.setVerify v).complete) ∧
  (∀ (pd ps1 ps2 : PReg) (s : State) (p q : Pt), s.readP ps1 = .ok p → s.readP ps2 = .ok q → PtOk p → PtOk q →
    p.curve = q.curve → p.m.toNat.Prime →
    ∃ t, pAdd p q = .ok t ∧ exec (.padd pd ps1 ps2) s = .next (s.writeP pd t).complete) ∧
  (∀ (pd ps : PReg) (kk : KReg) (s : State) (p : Pt) (k : Word), s.readP ps = .ok p → s.readK kk = .ok k → PtOk p →
    p.m.toNat.Prime → ∃ t, scalarMul p k = .ok t ∧ exec (.pmul pd ps kk) s = .next (s.writeP pd t).complete)

/-- R265, the round trip: what SIGN leaves, VERIFY accepts, from every register that holds the digest afterwards (SIGN may
have overwritten the one it read) and with the public point of the private scalar. It rests on the group law over the
prime fields, which is proved of the model, not assumed. -/
def Obligations.VerifyAcceptsWhatSignLeaves : Prop :=
  ∀ (s t : State) (kr ks kz kd kz' : KReg) (pq : PReg) (z d : Word) (q : Pt),
    s.readK kz = .ok z → s.readK kd = .ok d → s.readP pq = .ok q → scalarMul cpG d = .ok q →
    exec (.sign kr ks kz kd) s = .next t → t.rngReq = false → t.status.cc = .ok → t.readK kz' = .ok z →
    exec (.verify kz' kr ks pq) t = .next (t.withFlags true 0).complete
end

