-- ==== Sys2Proof/Laws/State.lean ====
section
/-! SUPPORT. One lemma per field of `State` per update, and per field of `Status` per STATUS update: what each leaves there. -/

namespace Sys2Proof.Machine

variable (s : State)

@[simp] theorem State.writeK_k (i : KReg) (v : Word) : (s.writeK i v).k = s.k.set i.toNat (some v) i.isLt := rfl
@[simp] theorem State.writeK_f (i : KReg) (v : Word) : (s.writeK i v).f = s.f := rfl
@[simp] theorem State.writeK_p (i : KReg) (v : Word) : (s.writeK i v).p = s.p := rfl
@[simp] theorem State.writeK_status (i : KReg) (v : Word) : (s.writeK i v).status = s.status := rfl
@[simp] theorem State.writeK_cmd (i : KReg) (v : Word) : (s.writeK i v).cmd = s.cmd := rfl
@[simp] theorem State.writeK_din (i : KReg) (v : Word) : (s.writeK i v).din = s.din := rfl
@[simp] theorem State.writeK_rsp (i : KReg) (v : Word) : (s.writeK i v).rsp = s.rsp := rfl
@[simp] theorem State.writeK_rngReq (i : KReg) (v : Word) : (s.writeK i v).rngReq = s.rngReq := rfl
@[simp] theorem State.writeK_draws (i : KReg) (v : Word) : (s.writeK i v).draws = s.draws := rfl
@[simp] theorem State.writeK_host (i : KReg) (v : Word) : (s.writeK i v).host = s.host := rfl

@[simp] theorem State.writeF_k (i : FReg) (e : FE) : (s.writeF i e).k = s.k := rfl
@[simp] theorem State.writeF_f (i : FReg) (e : FE) : (s.writeF i e).f = s.f.set i.toNat (some e) i.isLt := rfl
@[simp] theorem State.writeF_p (i : FReg) (e : FE) : (s.writeF i e).p = s.p := rfl
@[simp] theorem State.writeF_status (i : FReg) (e : FE) : (s.writeF i e).status = s.status := rfl
@[simp] theorem State.writeF_cmd (i : FReg) (e : FE) : (s.writeF i e).cmd = s.cmd := rfl
@[simp] theorem State.writeF_din (i : FReg) (e : FE) : (s.writeF i e).din = s.din := rfl
@[simp] theorem State.writeF_rsp (i : FReg) (e : FE) : (s.writeF i e).rsp = s.rsp := rfl
@[simp] theorem State.writeF_rngReq (i : FReg) (e : FE) : (s.writeF i e).rngReq = s.rngReq := rfl
@[simp] theorem State.writeF_draws (i : FReg) (e : FE) : (s.writeF i e).draws = s.draws := rfl
@[simp] theorem State.writeF_host (i : FReg) (e : FE) : (s.writeF i e).host = s.host := rfl

@[simp] theorem State.writeP_k (i : PReg) (t : Pt) : (s.writeP i t).k = s.k := rfl
@[simp] theorem State.writeP_f (i : PReg) (t : Pt) : (s.writeP i t).f = s.f := rfl
@[simp] theorem State.writeP_p (i : PReg) (t : Pt) : (s.writeP i t).p = s.p.set i.toNat (some t) i.isLt := rfl
@[simp] theorem State.writeP_status (i : PReg) (t : Pt) : (s.writeP i t).status = s.status := rfl
@[simp] theorem State.writeP_cmd (i : PReg) (t : Pt) : (s.writeP i t).cmd = s.cmd := rfl
@[simp] theorem State.writeP_din (i : PReg) (t : Pt) : (s.writeP i t).din = s.din := rfl
@[simp] theorem State.writeP_rsp (i : PReg) (t : Pt) : (s.writeP i t).rsp = s.rsp := rfl
@[simp] theorem State.writeP_rngReq (i : PReg) (t : Pt) : (s.writeP i t).rngReq = s.rngReq := rfl
@[simp] theorem State.writeP_draws (i : PReg) (t : Pt) : (s.writeP i t).draws = s.draws := rfl
@[simp] theorem State.writeP_host (i : PReg) (t : Pt) : (s.writeP i t).host = s.host := rfl

@[simp] theorem State.setFlag_k (b : Bool) : (s.setFlag b).k = s.k := rfl
@[simp] theorem State.setFlag_f (b : Bool) : (s.setFlag b).f = s.f := rfl
@[simp] theorem State.setFlag_p (b : Bool) : (s.setFlag b).p = s.p := rfl
@[simp] theorem State.setFlag_status (b : Bool) : (s.setFlag b).status = { s.status with flag := b } := rfl
@[simp] theorem State.setFlag_cmd (b : Bool) : (s.setFlag b).cmd = s.cmd := rfl
@[simp] theorem State.setFlag_din (b : Bool) : (s.setFlag b).din = s.din := rfl
@[simp] theorem State.setFlag_rsp (b : Bool) : (s.setFlag b).rsp = s.rsp := rfl
@[simp] theorem State.setFlag_rngReq (b : Bool) : (s.setFlag b).rngReq = s.rngReq := rfl
@[simp] theorem State.setFlag_draws (b : Bool) : (s.setFlag b).draws = s.draws := rfl
@[simp] theorem State.setFlag_host (b : Bool) : (s.setFlag b).host = s.host := rfl

@[simp] theorem State.setVerify_k (r : VerifyResult) : (s.setVerify r).k = s.k := rfl
@[simp] theorem State.setVerify_f (r : VerifyResult) : (s.setVerify r).f = s.f := rfl
@[simp] theorem State.setVerify_p (r : VerifyResult) : (s.setVerify r).p = s.p := rfl
@[simp] theorem State.setVerify_status (r : VerifyResult) : (s.setVerify r).status = { s.status with flag := r.flag, vres := r.vres } := rfl
@[simp] theorem State.setVerify_cmd (r : VerifyResult) : (s.setVerify r).cmd = s.cmd := rfl
@[simp] theorem State.setVerify_din (r : VerifyResult) : (s.setVerify r).din = s.din := rfl
@[simp] theorem State.setVerify_rsp (r : VerifyResult) : (s.setVerify r).rsp = s.rsp := rfl
@[simp] theorem State.setVerify_rngReq (r : VerifyResult) : (s.setVerify r).rngReq = s.rngReq := rfl
@[simp] theorem State.setVerify_draws (r : VerifyResult) : (s.setVerify r).draws = s.draws := rfl
@[simp] theorem State.setVerify_host (r : VerifyResult) : (s.setVerify r).host = s.host := rfl

@[simp] theorem State.clearErrs_k : (s.clearErrs).k = s.k := rfl
@[simp] theorem State.clearErrs_f : (s.clearErrs).f = s.f := rfl
@[simp] theorem State.clearErrs_p : (s.clearErrs).p = s.p := rfl
@[simp] theorem State.clearErrs_status : (s.clearErrs).status = { s.status with errs := 0 } := rfl
@[simp] theorem State.clearErrs_cmd : (s.clearErrs).cmd = s.cmd := rfl
@[simp] theorem State.clearErrs_din : (s.clearErrs).din = s.din := rfl
@[simp] theorem State.clearErrs_rsp : (s.clearErrs).rsp = s.rsp := rfl
@[simp] theorem State.clearErrs_rngReq : (s.clearErrs).rngReq = s.rngReq := rfl
@[simp] theorem State.clearErrs_draws : (s.clearErrs).draws = s.draws := rfl
@[simp] theorem State.clearErrs_host : (s.clearErrs).host = s.host := rfl

@[simp] theorem State.respond_k (c : CC) (d : Word) : (s.respond c d).k = s.k := rfl
@[simp] theorem State.respond_f (c : CC) (d : Word) : (s.respond c d).f = s.f := rfl
@[simp] theorem State.respond_p (c : CC) (d : Word) : (s.respond c d).p = s.p := rfl
@[simp] theorem State.respond_status (c : CC) (d : Word) : (s.respond c d).status = s.status := rfl
@[simp] theorem State.respond_cmd (c : CC) (d : Word) : (s.respond c d).cmd = none := rfl
@[simp] theorem State.respond_din (c : CC) (d : Word) : (s.respond c d).din = s.din := rfl
@[simp] theorem State.respond_rsp (c : CC) (d : Word) : (s.respond c d).rsp = some ⟨c, s.status.flag, d⟩ := rfl
@[simp] theorem State.respond_rngReq (c : CC) (d : Word) : (s.respond c d).rngReq = false := rfl
@[simp] theorem State.respond_draws (c : CC) (d : Word) : (s.respond c d).draws = s.draws := rfl
@[simp] theorem State.respond_host (c : CC) (d : Word) : (s.respond c d).host = s.host := rfl

@[simp] theorem State.completeWith_k (d : Word) : (s.completeWith d).k = s.k := rfl
@[simp] theorem State.completeWith_f (d : Word) : (s.completeWith d).f = s.f := rfl
@[simp] theorem State.completeWith_p (d : Word) : (s.completeWith d).p = s.p := rfl
@[simp] theorem State.completeWith_status (d : Word) : (s.completeWith d).status = { s.status with cc := .ok } := rfl
@[simp] theorem State.completeWith_cmd (d : Word) : (s.completeWith d).cmd = none := rfl
@[simp] theorem State.completeWith_din (d : Word) : (s.completeWith d).din = s.din := rfl
@[simp] theorem State.completeWith_rsp (d : Word) : (s.completeWith d).rsp = some ⟨.ok, s.status.flag, d⟩ := rfl
@[simp] theorem State.completeWith_rngReq (d : Word) : (s.completeWith d).rngReq = false := rfl
@[simp] theorem State.completeWith_draws (d : Word) : (s.completeWith d).draws = s.draws := rfl
@[simp] theorem State.completeWith_host (d : Word) : (s.completeWith d).host = s.host := rfl

@[simp] theorem State.complete_k : (s.complete).k = s.k := rfl
@[simp] theorem State.complete_f : (s.complete).f = s.f := rfl
@[simp] theorem State.complete_p : (s.complete).p = s.p := rfl
@[simp] theorem State.complete_status : (s.complete).status = { s.status with cc := .ok } := rfl
@[simp] theorem State.complete_cmd : (s.complete).cmd = none := rfl
@[simp] theorem State.complete_din : (s.complete).din = s.din := rfl
@[simp] theorem State.complete_rsp : (s.complete).rsp = some ⟨.ok, s.status.flag, 0⟩ := rfl
@[simp] theorem State.complete_rngReq : (s.complete).rngReq = false := rfl
@[simp] theorem State.complete_draws : (s.complete).draws = s.draws := rfl
@[simp] theorem State.complete_host : (s.complete).host = s.host := rfl

@[simp] theorem State.raise_k (c : Failure) : (s.raise c).k = s.k := rfl
@[simp] theorem State.raise_f (c : Failure) : (s.raise c).f = s.f := rfl
@[simp] theorem State.raise_p (c : Failure) : (s.raise c).p = s.p := rfl
@[simp] theorem State.raise_status (c : Failure) : (s.raise c).status = s.status.ended (.fail c) := rfl
@[simp] theorem State.raise_cmd (c : Failure) : (s.raise c).cmd = none := rfl
@[simp] theorem State.raise_din (c : Failure) : (s.raise c).din = s.din := rfl
@[simp] theorem State.raise_rsp (c : Failure) : (s.raise c).rsp = some ⟨.fail c, s.status.flag, 0⟩ := rfl
@[simp] theorem State.raise_rngReq (c : Failure) : (s.raise c).rngReq = false := rfl
@[simp] theorem State.raise_draws (c : Failure) : (s.raise c).draws = s.draws := rfl
@[simp] theorem State.raise_host (c : Failure) : (s.raise c).host = s.host := rfl

@[simp] theorem State.awaitDraw_k : (s.awaitDraw).k = s.k := rfl
@[simp] theorem State.awaitDraw_f : (s.awaitDraw).f = s.f := rfl
@[simp] theorem State.awaitDraw_p : (s.awaitDraw).p = s.p := rfl
@[simp] theorem State.awaitDraw_status : (s.awaitDraw).status = s.status := rfl
@[simp] theorem State.awaitDraw_cmd : (s.awaitDraw).cmd = s.cmd := rfl
@[simp] theorem State.awaitDraw_din : (s.awaitDraw).din = s.din := rfl
@[simp] theorem State.awaitDraw_rsp : (s.awaitDraw).rsp = s.rsp := rfl
@[simp] theorem State.awaitDraw_rngReq : (s.awaitDraw).rngReq = true := rfl
@[simp] theorem State.awaitDraw_draws : (s.awaitDraw).draws = [] := rfl
@[simp] theorem State.awaitDraw_host : (s.awaitDraw).host = s.host := rfl

@[simp] theorem State.withDraws_k (l : List Word) : (s.withDraws l).k = s.k := rfl
@[simp] theorem State.withDraws_f (l : List Word) : (s.withDraws l).f = s.f := rfl
@[simp] theorem State.withDraws_p (l : List Word) : (s.withDraws l).p = s.p := rfl
@[simp] theorem State.withDraws_status (l : List Word) : (s.withDraws l).status = s.status := rfl
@[simp] theorem State.withDraws_cmd (l : List Word) : (s.withDraws l).cmd = s.cmd := rfl
@[simp] theorem State.withDraws_din (l : List Word) : (s.withDraws l).din = s.din := rfl
@[simp] theorem State.withDraws_rsp (l : List Word) : (s.withDraws l).rsp = s.rsp := rfl
@[simp] theorem State.withDraws_rngReq (l : List Word) : (s.withDraws l).rngReq = s.rngReq := rfl
@[simp] theorem State.withDraws_draws (l : List Word) : (s.withDraws l).draws = l := rfl
@[simp] theorem State.withDraws_host (l : List Word) : (s.withDraws l).host = s.host := rfl

@[simp] theorem State.take_k (w : CmdWord) (d : Word) : (s.take w d).k = s.k := rfl
@[simp] theorem State.take_f (w : CmdWord) (d : Word) : (s.take w d).f = s.f := rfl
@[simp] theorem State.take_p (w : CmdWord) (d : Word) : (s.take w d).p = s.p := rfl
@[simp] theorem State.take_status (w : CmdWord) (d : Word) : (s.take w d).status = s.status := rfl
@[simp] theorem State.take_cmd (w : CmdWord) (d : Word) : (s.take w d).cmd = some w := rfl
@[simp] theorem State.take_din (w : CmdWord) (d : Word) : (s.take w d).din = d := rfl
@[simp] theorem State.take_rsp (w : CmdWord) (d : Word) : (s.take w d).rsp = none := rfl
@[simp] theorem State.take_rngReq (w : CmdWord) (d : Word) : (s.take w d).rngReq = false := rfl
@[simp] theorem State.take_draws (w : CmdWord) (d : Word) : (s.take w d).draws = s.draws := rfl
@[simp] theorem State.take_host (w : CmdWord) (d : Word) : (s.take w d).host = s.host := rfl

@[simp] theorem State.afterReset_k : (s.afterReset).k = State.reset.k := rfl
@[simp] theorem State.afterReset_f : (s.afterReset).f = State.reset.f := rfl
@[simp] theorem State.afterReset_p : (s.afterReset).p = State.reset.p := rfl
@[simp] theorem State.afterReset_status : (s.afterReset).status = State.reset.status := rfl
@[simp] theorem State.afterReset_cmd : (s.afterReset).cmd = State.reset.cmd := rfl
@[simp] theorem State.afterReset_din : (s.afterReset).din = State.reset.din := rfl
@[simp] theorem State.afterReset_rsp : (s.afterReset).rsp = State.reset.rsp := rfl
@[simp] theorem State.afterReset_rngReq : (s.afterReset).rngReq = State.reset.rngReq := rfl
@[simp] theorem State.afterReset_draws : (s.afterReset).draws = s.draws := rfl
@[simp] theorem State.afterReset_host : (s.afterReset).host = s.host := rfl

@[simp] theorem Status.ended_flag (st : Status) (c : CC) : (st.ended c).flag = st.flag := by cases c <;> rfl
@[simp] theorem Status.ended_vres (st : Status) (c : CC) : (st.ended c).vres = st.vres := by cases c <;> rfl
@[simp] theorem Status.ended_cc (st : Status) (c : CC) : (st.ended c).cc = c := by cases c <;> rfl
@[simp] theorem Status.ended_ok_errs (st : Status) : (st.ended .ok).errs = st.errs := rfl
@[simp] theorem Status.ended_fail_errs (st : Status) (k : Failure) :
    (st.ended (.fail k)).errs = st.errs ||| (1#16 <<< k.code.toNat) := rfl

end Sys2Proof.Machine
end

