-- ==== Sys2Proof/Laws/Ops.lean ====
section
/-! SUPPORT. What each shared operation can do: register reads after writes, the two ends of a command, the
inversion of the operand reads, and the cases of fetching and of a step. -/

namespace Sys2Proof.Machine

variable {s t : State}

theorem validOr_eq_ok {α : Type} {o : Option α} {v : α} : validOr o = .ok v ↔ o = some v := by
  cases o <;> simp [validOr]

theorem validOr_eq_error {α : Type} {o : Option α} {k : Failure} :
    validOr o = .error k ↔ o = none ∧ k = .regInvalid := by
  cases o <;> simp [validOr, eq_comm]

theorem readK_error {i : KReg} {k : Failure} (h : s.readK i = .error k) : k = .regInvalid :=
  (validOr_eq_error.1 h).2

theorem readF_error {i : FReg} {k : Failure} (h : s.readF i = .error k) : k = .regInvalid :=
  (validOr_eq_error.1 h).2

theorem readP_error {i : PReg} {k : Failure} (h : s.readP i = .error k) : k = .regInvalid :=
  (validOr_eq_error.1 h).2

@[simp] theorem readK_writeK_self (i : KReg) (v : Word) : (s.writeK i v).readK i = .ok v := by
  simp [State.readK, validOr]

theorem readK_writeK (i j : KReg) (v : Word) :
    (s.writeK i v).readK j = if j = i then .ok v else s.readK j := by
  by_cases h : j = i
  · subst h; simp
  · have : i.toNat ≠ j.toNat := fun e => h (BitVec.eq_of_toNat_eq e.symm)
    simp [State.readK, this, h]

@[simp] theorem readF_writeF_self (i : FReg) (e : FE) : (s.writeF i e).readF i = .ok e := by
  simp [State.readF, validOr]

theorem readF_writeF (i j : FReg) (e : FE) :
    (s.writeF i e).readF j = if j = i then .ok e else s.readF j := by
  by_cases h : j = i
  · subst h; simp
  · have : i.toNat ≠ j.toNat := fun e => h (BitVec.eq_of_toNat_eq e.symm)
    simp [State.readF, this, h]

@[simp] theorem readP_writeP_self (i : PReg) (t : Pt) : (s.writeP i t).readP i = .ok t := by
  simp [State.readP, validOr]

theorem readP_writeP (i j : PReg) (t : Pt) :
    (s.writeP i t).readP j = if j = i then .ok t else s.readP j := by
  by_cases h : j = i
  · subst h; simp
  · have : i.toNat ≠ j.toNat := fun e => h (BitVec.eq_of_toNat_eq e.symm)
    simp [State.readP, this, h]

/-- Reads look at their own file only. -/
theorem readK_congr (h : t.k = s.k) (i : KReg) : t.readK i = s.readK i := by simp [State.readK, h]

theorem readF_congr (h : t.f = s.f) (i : FReg) : t.readF i = s.readF i := by simp [State.readF, h]

theorem readP_congr (h : t.p = s.p) (i : PReg) : t.readP i = s.readP i := by simp [State.readP, h]

/-- The two ends of a command (R65). -/
theorem finish_cases {r : Except Failure State} (h : finish s r = .next t) :
    (∃ u, r = .ok u ∧ t = u.complete) ∨ (∃ k, r = .error k ∧ t = s.raise k) := by
  cases r with
  | ok u => exact .inl ⟨u, rfl, (Host.Outcome.next.inj h).symm⟩
  | error k => exact .inr ⟨k, rfl, (Host.Outcome.next.inj h).symm⟩

@[simp] theorem finish_ok (u : State) : finish s (.ok u) = .next u.complete := rfl

@[simp] theorem finish_error (k : Failure) : finish s (.error k) = .next (s.raise k) := rfl

theorem finishOut_cases {r : Except Failure Word} (h : finishOut s r = .next t) :
    (∃ v, r = .ok v ∧ t = s.completeWith v) ∨ (∃ k, r = .error k ∧ t = s.raise k) := by
  cases r with
  | ok v => exact .inl ⟨v, rfl, (Host.Outcome.next.inj h).symm⟩
  | error k => exact .inr ⟨k, rfl, (Host.Outcome.next.inj h).symm⟩

/-- A rule goes on with the value of its first part. -/
theorem ok_bind {α β : Type} (a : α) (g : α → Except Failure β) : (Except.ok a >>= g) = g a := rfl

/-- A failure of its first part is the failure of a rule. -/
theorem error_bind {α β : Type} (k : Failure) (g : α → Except Failure β) : (Except.error k >>= g) = .error k := rfl

/-- A sequence of two computations that may raise: a value of the whole comes from a value of each. -/
theorem bind_eq_ok {α β : Type} {x : Except Failure α} {g : α → Except Failure β} {v : β} :
    (x >>= g) = .ok v ↔ ∃ a, x = .ok a ∧ g a = .ok v := by
  cases x <;> simp [bind, Except.bind]

/-- … and a failure of the whole is the first that arises (R294). -/
theorem bind_eq_error {α β : Type} {x : Except Failure α} {g : α → Except Failure β} {k : Failure} :
    (x >>= g) = .error k ↔ x = .error k ∨ ∃ a, x = .ok a ∧ g a = .error k := by
  cases x <;> simp [bind, Except.bind]

theorem readKK_eq_ok {i j : KReg} {x y : Word} :
    s.readKK i j = .ok (x, y) ↔ s.readK i = .ok x ∧ s.readK j = .ok y := by
  simp only [State.readKK, bind_eq_ok, pure, Except.pure, Except.ok.injEq, Prod.mk.injEq]
  constructor
  · rintro ⟨_, h1, _, h2, rfl, rfl⟩; exact ⟨h1, h2⟩
  · rintro ⟨h1, h2⟩; exact ⟨x, h1, y, h2, rfl, rfl⟩

theorem readFF_eq_ok {i j : FReg} {x y : FE} :
    s.readFF i j = .ok (x, y) ↔ s.readF i = .ok x ∧ s.readF j = .ok y := by
  simp only [State.readFF, bind_eq_ok, pure, Except.pure, Except.ok.injEq, Prod.mk.injEq]
  constructor
  · rintro ⟨_, h1, _, h2, rfl, rfl⟩; exact ⟨h1, h2⟩
  · rintro ⟨h1, h2⟩; exact ⟨x, h1, y, h2, rfl, rfl⟩

theorem readPP_eq_ok {i j : PReg} {x y : Pt} :
    s.readPP i j = .ok (x, y) ↔ s.readP i = .ok x ∧ s.readP j = .ok y := by
  simp only [State.readPP, bind_eq_ok, pure, Except.pure, Except.ok.injEq, Prod.mk.injEq]
  constructor
  · rintro ⟨_, h1, _, h2, rfl, rfl⟩; exact ⟨h1, h2⟩
  · rintro ⟨h1, h2⟩; exact ⟨x, h1, y, h2, rfl, rfl⟩

theorem readFK_eq_ok {i : FReg} {j : KReg} {x : FE} {y : Word} :
    s.readFK i j = .ok (x, y) ↔ s.readF i = .ok x ∧ s.readK j = .ok y := by
  simp only [State.readFK, bind_eq_ok, pure, Except.pure, Except.ok.injEq, Prod.mk.injEq]
  constructor
  · rintro ⟨_, h1, _, h2, rfl, rfl⟩; exact ⟨h1, h2⟩
  · rintro ⟨h1, h2⟩; exact ⟨x, h1, y, h2, rfl, rfl⟩

theorem readPK_eq_ok {i : PReg} {j : KReg} {x : Pt} {y : Word} :
    s.readPK i j = .ok (x, y) ↔ s.readP i = .ok x ∧ s.readK j = .ok y := by
  simp only [State.readPK, bind_eq_ok, pure, Except.pure, Except.ok.injEq, Prod.mk.injEq]
  constructor
  · rintro ⟨_, h1, _, h2, rfl, rfl⟩; exact ⟨h1, h2⟩
  · rintro ⟨h1, h2⟩; exact ⟨x, h1, y, h2, rfl, rfl⟩

theorem readFFFF_eq_ok {i j u v : FReg} {x y a b : FE} :
    s.readFFFF i j u v = .ok (x, y, a, b) ↔
      s.readF i = .ok x ∧ s.readF j = .ok y ∧ s.readF u = .ok a ∧ s.readF v = .ok b := by
  simp only [State.readFFFF, bind_eq_ok, pure, Except.pure, Except.ok.injEq, Prod.mk.injEq]
  constructor
  · rintro ⟨_, h1, _, h2, _, h3, _, h4, rfl, rfl, rfl, rfl⟩; exact ⟨h1, h2, h3, h4⟩
  · rintro ⟨h1, h2, h3, h4⟩; exact ⟨x, h1, y, h2, a, h3, b, h4, rfl, rfl, rfl, rfl⟩

theorem readKKKP_eq_ok {i j u : KReg} {v : PReg} {x y z : Word} {q : Pt} :
    s.readKKKP i j u v = .ok (x, y, z, q) ↔
      s.readK i = .ok x ∧ s.readK j = .ok y ∧ s.readK u = .ok z ∧ s.readP v = .ok q := by
  simp only [State.readKKKP, bind_eq_ok, pure, Except.pure, Except.ok.injEq, Prod.mk.injEq]
  constructor
  · rintro ⟨_, h1, _, h2, _, h3, _, h4, rfl, rfl, rfl, rfl⟩; exact ⟨h1, h2, h3, h4⟩
  · rintro ⟨h1, h2, h3, h4⟩; exact ⟨x, h1, y, h2, z, h3, q, h4, rfl, rfl, rfl, rfl⟩

/-- The operand reads raise `RegInvalid` only (R294 step 3). -/
theorem readKK_error {i j : KReg} {k : Failure} (h : s.readKK i j = .error k) : k = .regInvalid := by
  rcases bind_eq_error.1 h with h | ⟨_, _, h⟩
  · exact readK_error h
  · rcases bind_eq_error.1 h with h | ⟨_, _, h⟩
    · exact readK_error h
    · cases h

theorem readFF_error {i j : FReg} {k : Failure} (h : s.readFF i j = .error k) : k = .regInvalid := by
  rcases bind_eq_error.1 h with h | ⟨_, _, h⟩
  · exact readF_error h
  · rcases bind_eq_error.1 h with h | ⟨_, _, h⟩
    · exact readF_error h
    · cases h

theorem readPP_error {i j : PReg} {k : Failure} (h : s.readPP i j = .error k) : k = .regInvalid := by
  rcases bind_eq_error.1 h with h | ⟨_, _, h⟩
  · exact readP_error h
  · rcases bind_eq_error.1 h with h | ⟨_, _, h⟩
    · exact readP_error h
    · cases h

theorem readFK_error {i : FReg} {j : KReg} {k : Failure} (h : s.readFK i j = .error k) : k = .regInvalid := by
  rcases bind_eq_error.1 h with h | ⟨_, _, h⟩
  · exact readF_error h
  · rcases bind_eq_error.1 h with h | ⟨_, _, h⟩
    · exact readK_error h
    · cases h

theorem readPK_error {i : PReg} {j : KReg} {k : Failure} (h : s.readPK i j = .error k) : k = .regInvalid := by
  rcases bind_eq_error.1 h with h | ⟨_, _, h⟩
  · exact readP_error h
  · rcases bind_eq_error.1 h with h | ⟨_, _, h⟩
    · exact readK_error h
    · cases h

theorem readFFFF_error {i j u v : FReg} {k : Failure} (h : s.readFFFF i j u v = .error k) : k = .regInvalid := by
  rcases bind_eq_error.1 h with h | ⟨_, _, h⟩
  · exact readF_error h
  · rcases bind_eq_error.1 h with h | ⟨_, _, h⟩
    · exact readF_error h
    · rcases bind_eq_error.1 h with h | ⟨_, _, h⟩
      · exact readF_error h
      · rcases bind_eq_error.1 h with h | ⟨_, _, h⟩
        · exact readF_error h
        · cases h

theorem readKKKP_error {i j u : KReg} {v : PReg} {k : Failure} (h : s.readKKKP i j u v = .error k) :
    k = .regInvalid := by
  rcases bind_eq_error.1 h with h | ⟨_, _, h⟩
  · exact readK_error h
  · rcases bind_eq_error.1 h with h | ⟨_, _, h⟩
    · exact readK_error h
    · rcases bind_eq_error.1 h with h | ⟨_, _, h⟩
      · exact readK_error h
      · rcases bind_eq_error.1 h with h | ⟨_, _, h⟩
        · exact readP_error h
        · cases h

/-- Taking a word: it runs if it decodes, else the step ends with `IllegalCommand` (R85). -/
theorem issue_cases (w : CmdWord) (d : Word) (s : State) :
    (∃ i, decode w = .ok i ∧ issue w d s = .run i (s.take w d)) ∨
    (∃ e, decode w = .error e ∧ issue w d s = .settled ((s.take w d).raise .illegalCommand)) := by
  unfold issue
  cases h : decode w with
  | ok i => exact .inl ⟨i, rfl, rfl⟩
  | error e => exact .inr ⟨e, rfl, rfl⟩

/-- A word that reset cuts short: it runs first, or it is illegal and the block is reset at once. -/
theorem issueCut_cases (w : CmdWord) (d : Word) (n : Nat) (s : State) :
    (∃ i, decode w = .ok i ∧ issueCut w d n s = .cut i (s.take w d) n) ∨ issueCut w d n s = .settled s.afterReset := by
  unfold issueCut
  cases decode w with
  | ok i => exact .inl ⟨i, rfl, rfl⟩
  | error e => exact .inr rfl

/-- The command in hand goes on, if there is a draw, or the state is kept. -/
theorem resume_cases (w : CmdWord) (s : State) :
    (s.draws ≠ [] ∧ resume w s = issue w s.din s) ∨ (s.draws = [] ∧ resume w s = .settled s) := by
  unfold resume
  by_cases h : s.draws = []
  · exact .inr ⟨h, if_pos h⟩
  · exact .inl ⟨h, if_neg h⟩

/-- Everything that can come next: the state is kept, a word is issued (the host's next one, or the one in hand), the
block is reset, or a word is issued that reset cuts short. -/
theorem fetch_cases (s : State) :
    fetch s = .settled s ∨
    (∃ u w d, (u = s ∨ ∃ rest, u = { s with host := rest }) ∧ fetch s = issue w d u) ∨
    (∃ rest, fetch s = .settled (State.afterReset { s with host := rest })) ∨
    (∃ w d n rest, fetch s = issueCut w d n { s with host := rest }) := by
  unfold fetch
  split
  · unfold idle
    split
    · exact .inl rfl
    · exact .inr (.inl ⟨_, _, _, .inr ⟨_, rfl⟩, rfl⟩)
    · exact .inr (.inr (.inl ⟨_, rfl⟩))
    · exact .inr (.inr (.inr ⟨_, _, _, _, rfl⟩))
  · rename_i w _
    have goesOn : resume w s = .settled s ∨
        ∃ u v d, (u = s ∨ ∃ rest, u = { s with host := rest }) ∧ resume w s = issue v d u := by
      rcases resume_cases w s with ⟨_, h⟩ | ⟨_, h⟩
      · exact .inr ⟨s, w, s.din, .inl rfl, h⟩
      · exact .inl h
    unfold busy
    split
    · exact .inr (.inr (.inl ⟨_, rfl⟩))
    · exact .inr (.inr (.inr ⟨_, _, _, _, rfl⟩))
    · exact goesOn.imp_right .inl
    · exact goesOn.imp_right .inl

/-- Everything a step can do: a command runs, a word is illegal, the state is reset (a command cut short or not), or
nothing happens. In the first two the word is the one in hand or the host's next one. -/
theorem step_cases (h : step s = .next t) :
    (∃ u w d i, (u = s ∨ ∃ rest, u = { s with host := rest }) ∧ decode w = .ok i ∧ exec i (u.take w d) = .next t) ∨
    (∃ u w d, (u = s ∨ ∃ rest, u = { s with host := rest }) ∧ t = (u.take w d).raise .illegalCommand) ∨
    (∃ rest draws, t = { State.reset with host := rest, draws := draws }) ∨
    t = s := by
  unfold step at h
  rcases fetch_cases s with hf | ⟨u, w, d, hu, hf⟩ | ⟨rest, hf⟩ | ⟨w, d, n, rest, hf⟩ <;> rw [hf] at h
  · cases h; exact .inr (.inr (.inr rfl))
  · rcases issue_cases w d u with ⟨i, hi, he⟩ | ⟨e, _, he⟩ <;> rw [he] at h
    · exact .inl ⟨u, w, d, i, hu, hi, h⟩
    · cases h; exact .inr (.inl ⟨u, w, d, hu, rfl⟩)
  · cases h; exact .inr (.inr (.inl ⟨_, _, rfl⟩))
  · rcases issueCut_cases w d n { s with host := rest } with ⟨i, _, he⟩ | he <;> rw [he] at h
    · simp only at h
      split at h
      · cases h; exact .inr (.inr (.inl ⟨_, _, rfl⟩))
      · cases h
      · cases h
    · cases h; exact .inr (.inr (.inl ⟨_, _, rfl⟩))

end Sys2Proof.Machine
end

