-- ==== Sys2Proof/Laws/Arith.lean ====
section
/-! SUPPORT. One specification lemma per arithmetic function: reduction, the field units, Euclid's loop, the power
loop, the curve equation, and the shape of a point sum. -/

namespace Sys2Proof.Machine

open Sys2Proof.Config

/-- `reduce` is the remainder of R5, exactly. -/
theorem reduce_toNat {m : Word} (hm : 0 < m.toNat) (u : Int) :
    ((reduce u m).toNat : Int) = u % (m.toNat : Int) := by
  have h0 : (0 : Int) ≤ u % m.toNat := Int.emod_nonneg u (by omega)
  have h1 : u % (m.toNat : Int) < m.toNat := Int.emod_lt_of_pos u (by omega)
  have h2 : m.toNat < 2 ^ 256 := m.isLt
  have h3 : u % (m.toNat : Int) % ((2 ^ 256 : Nat) : Int) = u % (m.toNat : Int) :=
    Int.emod_eq_of_lt h0 (by omega)
  unfold reduce
  rw [BitVec.toNat_ofInt, h3]
  exact Int.toNat_of_nonneg h0

theorem reduce_lt {m : Word} (hm : 0 < m.toNat) (u : Int) : (reduce u m).toNat < m.toNat := by
  have h := reduce_toNat hm u
  have := Int.emod_lt_of_pos u (show (0 : Int) < m.toNat by omega)
  omega

/-- On a natural number `reduce` is the remainder. -/
theorem reduce_natCast {m : Word} (hm : 0 < m.toNat) (u : Nat) : (reduce u m).toNat = u % m.toNat := by
  have h := reduce_toNat hm u
  omega

/-- A two-way choice between a value and a failure. -/
theorem ite_ok_eq_ok {α : Type} {c : Prop} [Decidable c] {v w : α} {k : Failure} :
    (if c then Except.ok v else Except.error k) = .ok w ↔ c ∧ w = v := by
  by_cases h : c <;> simp [h, eq_comm]

theorem ite_ok_eq_error {α : Type} {c : Prop} [Decidable c] {v : α} {k l : Failure} :
    (if c then Except.ok v else Except.error k) = .error l ↔ ¬ c ∧ l = k := by
  by_cases h : c <;> simp [h, eq_comm]

theorem modulusOk_iff {m : Word} : modulusOk m = true ↔ m.toNat % 2 = 1 ∧ 3 ≤ m.toNat := by
  simp [modulusOk]

theorem sameField_iff {a b : FE} : sameField a b = true ↔ a.modulus = b.modulus := by
  simp [sameField]

/-- What FNew can do (R121). -/
theorem fNew_eq_ok {v m : Word} {e : FE} :
    fNew v m = .ok e ↔ modulusOk m = true ∧ e = ⟨reduce v.toNat m, m⟩ := by
  rw [fNew, ite_ok_eq_ok]

theorem fNew_eq_error {v m : Word} {k : Failure} :
    fNew v m = .error k ↔ modulusOk m = false ∧ k = .badModulus := by
  rw [fNew, ite_ok_eq_error, Bool.not_eq_true]

/-- Every field unit answers an element of the operands' field. -/
theorem fAdd_eq_ok {a b e : FE} : fAdd a b = .ok e ↔
    a.modulus = b.modulus ∧ e = ⟨reduce ((a.value.toNat : Int) + b.value.toNat) a.modulus, a.modulus⟩ := by
  rw [fAdd, ite_ok_eq_ok, sameField_iff]

theorem fSub_eq_ok {a b e : FE} : fSub a b = .ok e ↔
    a.modulus = b.modulus ∧ e = ⟨reduce ((a.value.toNat : Int) - b.value.toNat) a.modulus, a.modulus⟩ := by
  rw [fSub, ite_ok_eq_ok, sameField_iff]

theorem fMul_eq_ok {a b e : FE} : fMul a b = .ok e ↔
    a.modulus = b.modulus ∧ e = ⟨reduce ((a.value.toNat : Int) * b.value.toNat) a.modulus, a.modulus⟩ := by
  rw [fMul, ite_ok_eq_ok, sameField_iff]

theorem fMont_eq_ok {a b e : FE} : fMont a b = .ok e ↔
    a.modulus = b.modulus ∧
      e = ⟨BitVec.ofNat 256 (montMul a.value.toNat b.value.toNat a.modulus), a.modulus⟩ := by
  rw [fMont, ite_ok_eq_ok, sameField_iff]

/-- What FInv can do (R171): an element of the same field when the loop's gcd is 1, else `NotInvertible`. -/
theorem fInv_eq_ok {a e : FE} : fInv a = .ok e ↔
    (euclid a.value.toNat a.modulus.toNat).1 = 1 ∧
      e = ⟨reduce (euclid a.value.toNat a.modulus.toNat).2 a.modulus, a.modulus⟩ := ite_ok_eq_ok

theorem fInv_eq_error {a : FE} {k : Failure} : fInv a = .error k ↔
    (euclid a.value.toNat a.modulus.toNat).1 ≠ 1 ∧ k = .notInvertible := ite_ok_eq_error

/-- The loop of R171, run to its end: the gcd of its arguments, and a combination with the same residue. -/
theorem euclidLoop_spec (v m : Int) : ∀ (n oldR r : Nat) (oldX x : Int), r < n →
    (m ∣ v * oldX - oldR) → (m ∣ v * x - r) →
    (euclidLoop n oldR r oldX x).1 = Nat.gcd oldR r ∧
      (m ∣ v * (euclidLoop n oldR r oldX x).2 - (euclidLoop n oldR r oldX x).1)
  | 0, _, _, _, _, h, _, _ => absurd h (Nat.not_lt_zero _)
  | n + 1, oldR, r, oldX, x, h, h1, h2 => by
    unfold euclidLoop
    by_cases hr : r = 0
    · subst hr; simp [h1]
    · have hmod : oldR - oldR / r * r = oldR % r := by
        have := Nat.div_add_mod oldR r; rw [Nat.mul_comm]; omega
      have hle : oldR / r * r ≤ oldR := Nat.div_mul_le_self oldR r
      rw [if_neg hr]
      have ih := euclidLoop_spec v m n r (oldR - oldR / r * r) x (oldX - (oldR / r : Nat) * x)
        (by have := Nat.mod_lt oldR (Nat.pos_of_ne_zero hr); omega) h2
        (by
          have : v * (oldX - (oldR / r : Nat) * x) - ((oldR - oldR / r * r : Nat) : Int)
              = (v * oldX - oldR) - (oldR / r : Nat) * (v * x - r) := by
            rw [Nat.cast_sub hle]; push_cast; ring
          rw [this]; exact dvd_sub h1 (Dvd.dvd.mul_left h2 _))
      refine ⟨?_, ih.2⟩
      rw [ih.1, hmod, Nat.gcd_comm r, Nat.gcd_comm oldR r, Nat.gcd_rec r oldR]

/-- `euclid` is the gcd and a Bezout coefficient modulo `m` (R170, R171). -/
theorem euclid_spec (v m : Nat) :
    (euclid v m).1 = Nat.gcd v m ∧ ((m : Int) ∣ v * (euclid v m).2 - (euclid v m).1) :=
  euclidLoop_spec v m (m + 1) v m 1 0 (Nat.lt_succ_self m) (by simp) (by simp)

/-- The power loop multiplies its accumulator by the power (R155). -/
theorem powLoop_spec (m : Nat) : ∀ (n acc base e : Nat), e < 2 ^ n →
    powLoop m n acc base e % m = acc * base ^ e % m
  | 0, acc, base, e, h => by
    have : e = 0 := by omega
    subst this; simp [powLoop]
  | n + 1, acc, base, e, h => by
    unfold powLoop
    by_cases he : e = 0
    · subst he; simp
    · rw [if_neg he, powLoop_spec m n _ _ (e / 2) (by omega)]
      have hsq : (base * base % m) ^ (e / 2) ≡ base ^ (2 * (e / 2)) [MOD m] := by
        have := (Nat.mod_modEq (base * base) m).pow (e / 2)
        rwa [show (base * base) ^ (e / 2) = base ^ (2 * (e / 2)) by rw [pow_mul, pow_two]] at this
      by_cases ho : e % 2 = 1
      · rw [if_pos ho]
        have hb : base ^ e = base * base ^ (2 * (e / 2)) := by
          rw [← pow_succ']; congr 1; omega
        rw [hb, ← mul_assoc]
        exact (Nat.mod_modEq (acc * base) m).mul hsq
      · rw [if_neg ho]
        have hb : base ^ e = base ^ (2 * (e / 2)) := by congr 1; omega
        rw [hb]
        exact (Nat.ModEq.refl acc).mul hsq

theorem powLoop_lt (m : Nat) (hm : 0 < m) : ∀ (n acc base e : Nat), acc < m → powLoop m n acc base e < m
  | 0, acc, _, _, h => by simpa [powLoop] using h
  | n + 1, acc, base, e, h => by
    unfold powLoop
    split
    · exact h
    · apply powLoop_lt m hm
      split
      · exact Nat.mod_lt _ hm
      · exact h

/-- `powMod` is the power modulo `m` for every 256-bit exponent (R155). -/
theorem powMod_eq {x e m : Nat} (hm : 0 < m) (he : e < 2 ^ 256) : powMod x e m = x ^ e % m := by
  have h := powLoop_spec m 256 (1 % m) (x % m) e he
  have hlt := powLoop_lt m hm 256 (1 % m) (x % m) e (Nat.mod_lt _ hm)
  unfold powMod
  rw [Nat.mod_eq_of_lt hlt] at h
  rw [h]
  have : 1 % m * (x % m) ^ e ≡ 1 * x ^ e [MOD m] := (Nat.mod_modEq 1 m).mul ((Nat.mod_modEq x m).pow e)
  simpa [Nat.ModEq] using this

/-- The curve equation (R185) as remainders of naturals. -/
theorem onCurve_iff {x y a b m : Word} (hm : 0 < m.toNat) : onCurve x y a b m = true ↔
    y.toNat * y.toNat % m.toNat = (x.toNat * x.toNat * x.toNat + a.toNat * x.toNat + b.toNat) % m.toNat := by
  have h1 := reduce_natCast hm (y.toNat * y.toNat)
  have h2 := reduce_natCast hm (x.toNat * x.toNat * x.toNat + a.toNat * x.toNat + b.toNat)
  push_cast at h1 h2
  simp only [onCurve, beq_iff_eq, ← h1, ← h2]
  exact ⟨fun h => by rw [h], BitVec.eq_of_toNat_eq⟩

/-- The third point of a line: on the same curve triple, its coordinates reduced. -/
theorem chord_eq_ok {num den x1 y1 x2 a b m : Word} {t : Pt} (h : chord num den x1 y1 x2 a b m = .ok t) :
    ∃ u v : Int, t = .aff (reduce u m) (reduce v m) a b m := by
  unfold chord at h
  cases hi : fInv ⟨den, m⟩ with
  | error k => simp [hi, bind, Except.bind] at h
  | ok i =>
    simp only [hi, bind, Except.bind, pure, Except.pure, Except.ok.injEq] at h
    exact ⟨_, _, h.symm⟩

theorem chord_eq_error {num den x1 y1 x2 a b m : Word} {k : Failure}
    (h : chord num den x1 y1 x2 a b m = .error k) : k = .notInvertible := by
  unfold chord at h
  cases hi : fInv ⟨den, m⟩ with
  | error k' => simp only [hi, bind, Except.bind, Except.error.injEq] at h; rw [← h]; exact (fInv_eq_error.1 hi).2
  | ok i => simp [hi, bind, Except.bind, pure, Except.pure] at h

/-- What a sum of two affine points can be. -/
theorem addAffine_eq_ok {x1 y1 x2 y2 a b m : Word} {t : Pt} (h : addAffine x1 y1 x2 y2 a b m = .ok t) :
    t = .inf a b m ∨ ∃ u v : Int, t = .aff (reduce u m) (reduce v m) a b m := by
  unfold addAffine at h
  split at h
  · split at h
    · exact .inl (by simpa using h.symm)
    · split at h
      · exact .inl (by simpa using h.symm)
      · exact .inr (chord_eq_ok h)
  · exact .inr (chord_eq_ok h)

theorem addAffine_eq_error {x1 y1 x2 y2 a b m : Word} {k : Failure}
    (h : addAffine x1 y1 x2 y2 a b m = .error k) : k = .notInvertible := by
  unfold addAffine at h
  split at h
  · split at h
    · cases h
    · split at h
      · cases h
      · exact chord_eq_error h
  · exact chord_eq_error h

/-- What `PAdd` can do (R206): an operand, Infinity of their curve, or a point with reduced coordinates. -/
theorem pAdd_eq_ok {p q t : Pt} (h : pAdd p q = .ok t) : p.curve = q.curve ∧
    (t = p ∨ t = q ∨ t = .inf p.a p.b p.m ∨ ∃ u v : Int, t = .aff (reduce u p.m) (reduce v p.m) p.a p.b p.m) := by
  unfold pAdd at h
  split at h
  · cases h
  · rename_i hc
    have hc' : p.m = q.m ∧ p.a = q.a ∧ p.b = q.b := by
      simpa only [not_or, ne_eq, not_not] using hc
    refine ⟨by simp [Pt.curve, hc'.1, hc'.2.1, hc'.2.2], ?_⟩
    split at h
    · exact .inr (.inl (by simpa using h.symm))
    · exact .inl (by simpa using h.symm)
    · exact .inr (.inr (addAffine_eq_ok h))

theorem pAdd_eq_error {p q : Pt} {k : Failure} (h : pAdd p q = .error k) :
    k = .notInvertible ∨ (k = .curveMismatch ∧ p.curve ≠ q.curve) := by
  unfold pAdd at h
  split at h
  · rename_i hc
    refine .inr ⟨by simpa using h.symm, fun he => ?_⟩
    simp only [Pt.curve, Prod.mk.injEq] at he
    rcases hc with h1 | h1 | h1
    · exact h1 he.2.2
    · exact h1 he.1
    · exact h1 he.2.1
  · split at h
    · cases h
    · cases h
    · exact .inl (addAffine_eq_error h)

/-- A sum lies on its operands' curve triple. -/
theorem pAdd_curve {p q t : Pt} (h : pAdd p q = .ok t) : t.curve = p.curve := by
  obtain ⟨hc, rfl | rfl | rfl | ⟨u, v, rfl⟩⟩ := pAdd_eq_ok h
  · rfl
  · exact hc.symm
  · rfl
  · rfl

/-- A sum of points of valid registers is one (R23). -/
theorem pAdd_ok {p q t : Pt} (hp : PtOk p) (hq : PtOk q) (h : pAdd p q = .ok t) : PtOk t := by
  have hpos : 0 < p.m.toNat := by have := hp.three_le; omega
  have hab : p.a.toNat < p.m.toNat ∧ p.b.toNat < p.m.toNat := by
    have := hp.below
    cases p <;> simp only [ptBelow, Pt.a, Pt.b, Pt.m] at this ⊢ <;> omega
  obtain ⟨_, rfl | rfl | rfl | ⟨u, v, rfl⟩⟩ := pAdd_eq_ok h
  · exact hp
  · exact hq
  · exact ⟨hp.odd, hp.three_le, hab⟩
  · exact ⟨hp.odd, hp.three_le, reduce_lt hpos u, reduce_lt hpos v, hab.1, hab.2⟩

/-- Every pass of the scalar loop keeps a property that `PAdd` keeps. -/
theorem scalarLoop_invariant {C : Pt → Prop} (hC : ∀ p q t, C p → C q → pAdd p q = .ok t → C t) :
    ∀ (n : Nat) (acc base : Pt) (k : Nat) (t : Pt), C acc → C base → scalarLoop n acc base k = .ok t → C t
  | 0, acc, _, _, t, ha, _, h => by cases h; exact ha
  | n + 1, acc, base, k, t, ha, hb, h => by
    unfold scalarLoop at h
    split at h
    · cases h; exact ha
    · obtain ⟨acc', h1, h⟩ := bind_eq_ok.1 h
      obtain ⟨base', h2, h⟩ := bind_eq_ok.1 h
      refine scalarLoop_invariant hC n acc' base' (k / 2) t ?_ (hC _ _ _ hb hb h2) h
      unfold addOnBit at h1
      split at h1
      · exact hC _ _ _ ha hb h1
      · cases h1; exact ha

/-- `ScalarMul` stays on the curve triple of its base. -/
theorem scalarMul_curve {p t : Pt} {k : Word} (h : scalarMul p k = .ok t) : t.curve = p.curve := by
  unfold scalarMul at h
  exact scalarLoop_invariant (C := fun q => q.curve = p.curve)
    (fun _ _ _ h1 _ h3 => (pAdd_curve h3).trans h1) _ (.inf p.a p.b p.m) p _ _ rfl rfl h

/-- A multiple of a point of a valid register is one (R23). -/
theorem scalarMul_ok {p t : Pt} {k : Word} (hp : PtOk p) (h : scalarMul p k = .ok t) : PtOk t := by
  unfold scalarMul at h
  refine scalarLoop_invariant (C := PtOk) (fun _ _ _ h1 h2 h3 => pAdd_ok h1 h2 h3) _ _ _ _ _ ?_ hp h
  refine ⟨hp.odd, hp.three_le, ?_⟩
  have := hp.below
  cases p <;> simp only [ptBelow, Pt.a, Pt.b, Pt.m] at this ⊢ <;> omega

/-- The only failure of `ScalarMul` (R221). -/
theorem scalarLoop_eq_error : ∀ (n : Nat) (acc base : Pt) (k : Nat) (c : Failure), acc.curve = base.curve →
    scalarLoop n acc base k = .error c → c = .notInvertible
  | 0, _, _, _, _, _, h => by cases h
  | n + 1, acc, base, k, c, hc, h => by
    unfold scalarLoop at h
    split at h
    · cases h
    · rcases bind_eq_error.1 h with h1 | ⟨acc', h1, h⟩
      · unfold addOnBit at h1
        split at h1
        · rcases pAdd_eq_error h1 with h | ⟨_, h⟩
          · exact h
          · exact absurd hc h
        · cases h1
      · have ha : acc'.curve = base.curve := by
          unfold addOnBit at h1
          split at h1
          · exact (pAdd_curve h1).trans hc
          · cases h1; exact hc
        rcases bind_eq_error.1 h with h2 | ⟨base', h2, h⟩
        · rcases pAdd_eq_error h2 with h | ⟨_, h⟩
          · exact h
          · exact absurd rfl h
        · exact scalarLoop_eq_error n acc' base' (k / 2) c (ha.trans (pAdd_curve h2).symm) h

theorem scalarMul_eq_error {p : Pt} {k : Word} {c : Failure} (h : scalarMul p k = .error c) :
    c = .notInvertible := by
  unfold scalarMul at h
  exact scalarLoop_eq_error _ (.inf p.a p.b p.m) p _ _ rfl h

theorem inScalarRange_iff {c : Word} : inScalarRange c = true ↔ Accepted c := by
  have : (1 : Nat) ≤ cpN.toNat := by decide
  simp only [inScalarRange, Bool.and_eq_true, decide_eq_true_eq, Accepted, ne_eq]
  constructor
  · rintro ⟨h1, h2⟩
    have : c.toNat ≠ 0 := fun h => h1 (BitVec.eq_of_toNat_eq h)
    omega
  · rintro ⟨h1, h2⟩
    exact ⟨fun h => by subst h; simp at h1, by omega⟩

/-- What `SampleScalar` can do (R256): the first acceptable draw, the ones before it discarded. -/
theorem sampleScalar_eq_some {l rest : List Word} {d : Word} (h : sampleScalar l = some (d, rest)) :
    ∃ before, l = before ++ d :: rest ∧ (∀ c ∈ before, ¬ Accepted c) ∧ Accepted d := by
  induction l with
  | nil => cases h
  | cons c cs ih =>
    unfold sampleScalar at h
    split at h
    · rename_i hc
      cases h
      exact ⟨[], rfl, by simp, inScalarRange_iff.1 hc⟩
    · rename_i hc
      obtain ⟨b, rfl, hb, hd⟩ := ih h
      refine ⟨c :: b, rfl, ?_, hd⟩
      intro x hx
      rcases List.mem_cons.1 hx with rfl | hx
      · exact fun h => hc (inScalarRange_iff.2 h)
      · exact hb x hx

/-- SIGN's loop leaves a tail of the draws. -/
theorem signLoop_rest {z d : Word} {l : List Word} :
    (∀ r t rest, signLoop z d l = .signed r t rest → rest <:+ l) ∧
    (∀ k rest, signLoop z d l = .failed k rest → rest <:+ l) := by
  induction l with
  | nil => constructor <;> intros <;> simp_all [signLoop]
  | cons c cs ih =>
    have hs : cs <:+ c :: cs := List.suffix_cons c cs
    constructor
    · intro r t rest h
      unfold signLoop at h
      split at h
      · split at h
        · cases h
        · cases h; exact hs
        · exact (ih.1 _ _ _ h).trans hs
      · exact (ih.1 _ _ _ h).trans hs
    · intro k rest h
      unfold signLoop at h
      split at h
      · split at h
        · cases h; exact hs
        · cases h
        · exact (ih.2 _ _ h).trans hs
      · exact (ih.2 _ _ h).trans hs

end Sys2Proof.Machine
end

