-- ==== Sys2Proof/Laws/Encoding.lean ====
section
/-! SUPPORT. The fields of a word and the word of fields: one undoes the other, and masking acts field by field;
and what `decode` answers on a word whose opcode is a given row's. -/

namespace Sys2Proof

theorem getLsbD_joinWord (f : Fields) (i : Nat) : (joinWord f).getLsbD i =
    if i < 4 then f.m.getLsbD i
    else if i < 8 then f.e.getLsbD (i - 4)
    else if i < 12 then f.d.getLsbD (i - 8)
    else if i < 16 then f.c.getLsbD (i - 12)
    else if i < 20 then f.b.getLsbD (i - 16)
    else if i < 24 then f.a.getLsbD (i - 20)
    else f.op.getLsbD (i - 24) := by
  simp only [joinWord, BitVec.getLsbD_append]
  grind

/-- Splitting the word of seven fields gives the fields (R80). -/
theorem splitWord_joinWord (f : Fields) : splitWord (joinWord f) = f := by
  obtain ⟨op, a, b, c, d, e, m⟩ := f
  simp only [splitWord, Fields.mk.injEq]
  refine ⟨?_, ?_, ?_, ?_, ?_, ?_, ?_⟩ <;>
    · apply BitVec.eq_of_getLsbD_eq
      intro i hi
      simp only [BitVec.getLsbD_extractLsb', getLsbD_joinWord]
      grind

/-- Joining the fields of a word gives the word (R80). -/
theorem joinWord_splitWord (w : CmdWord) : joinWord (splitWord w) = w := by
  apply BitVec.eq_of_getLsbD_eq
  intro i hi
  simp only [getLsbD_joinWord, splitWord, BitVec.getLsbD_extractLsb']
  grind

/-- The conjunction of two words field by field. -/
theorem joinWord_and (f g : Fields) : joinWord f &&& joinWord g =
    joinWord ⟨f.op &&& g.op, f.a &&& g.a, f.b &&& g.b, f.c &&& g.c, f.d &&& g.d, f.e &&& g.e, f.m &&& g.m⟩ := by
  apply BitVec.eq_of_getLsbD_eq
  intro i hi
  simp only [BitVec.getLsbD_and, getLsbD_joinWord]
  grind

/-- No two rows share an opcode (R84). -/
theorem op_distinct : opRows.Pairwise (fun r q => r.op ≠ q.op) := by
  have h : (opRows.map OpRow.op).Pairwise (· ≠ ·) := by decide
  exact List.pairwise_map.1 h

/-- In a list without repeated opcodes the search finds the row that has the opcode. -/
theorem find_op {l : List OpRow} (hl : l.Pairwise (fun r q => r.op ≠ q.op)) {r : OpRow} (hr : r ∈ l)
    {o : BitVec 8} (ho : r.op = o) : l.find? (fun q => q.op == o) = some r := by
  induction l with
  | nil => cases hr
  | cons q l ih =>
    rw [List.pairwise_cons] at hl
    rcases List.mem_cons.1 hr with rfl | hr'
    · rw [List.find?_cons_of_pos]; simp [ho]
    · rw [List.find?_cons_of_neg]
      · exact ih hl.2 hr'
      · rw [beq_iff_eq, ← ho]; exact hl.1 r hr'

/-- Decoding a word whose opcode is the row's (R85, steps 2 and 3). -/
theorem decode_row {w : CmdWord} {r : OpRow} (hr : r ∈ opRows) (ho : r.op = (splitWord w).op) :
    decode w =
      if w &&& r.mask = r.pattern then
        if (r.build (splitWord w)).wf then .ok (r.build (splitWord w)) else .error .signSameDestination
      else .error .nonzeroUnusedField := by
  simp only [decode, find_op op_distinct hr ho]

/-- Decoding a word whose opcode no row has (R85, step 1). -/
theorem decode_no_row {w : CmdWord} (h : ∀ r ∈ opRows, r.op ≠ (splitWord w).op) :
    decode w = .error .unassignedOpcode := by
  have hn : opRows.find? (fun r => r.op == (splitWord w).op) = none := by
    rw [List.find?_eq_none]; intro r hr; simpa using h r hr
  simp only [decode, hn]

end Sys2Proof
end

