-- ==== Sys2Proof/Laws/Units.lean ====
section
/-! SUPPORT. The results and the failures of the units: each keeps the invariant of R23 on its result, and raises only
the kinds of its rule. -/

namespace Sys2Proof.Machine

open Sys2Proof.Config

theorem FeOk.pos {a : FE} (h : FeOk a) : 0 < a.modulus.toNat := by have := h.three_le; omega

theorem PtOk.a_lt {q : Pt} (h : PtOk q) : q.a.toNat < q.m.toNat := by
  have := h.below
  cases q <;> simp only [ptBelow, Pt.a, Pt.m] at this ⊢ <;> omega

theorem PtOk.b_lt {q : Pt} (h : PtOk q) : q.b.toNat < q.m.toNat := by
  have := h.below
  cases q <;> simp only [ptBelow, Pt.b, Pt.m] at this ⊢ <;> omega

/-- A reduced value in the field of a valid element. -/
theorem reduce_ok {a : FE} (h : FeOk a) (u : Int) : FeOk ⟨reduce u a.modulus, a.modulus⟩ :=
  ⟨h.odd, h.three_le, reduce_lt h.pos u⟩

theorem fNew_ok {v m : Word} {e : FE} (h : fNew v m = .ok e) : FeOk e := by
  obtain ⟨hm, rfl⟩ := fNew_eq_ok.1 h
  obtain ⟨h1, h2⟩ := modulusOk_iff.1 hm
  exact ⟨h1, h2, reduce_lt (by omega) _⟩

theorem fAdd_ok {a b e : FE} (ha : FeOk a) (h : fAdd a b = .ok e) : FeOk e := by
  obtain ⟨_, rfl⟩ := fAdd_eq_ok.1 h; exact reduce_ok ha _

theorem fSub_ok {a b e : FE} (ha : FeOk a) (h : fSub a b = .ok e) : FeOk e := by
  obtain ⟨_, rfl⟩ := fSub_eq_ok.1 h; exact reduce_ok ha _

theorem fMul_ok {a b e : FE} (ha : FeOk a) (h : fMul a b = .ok e) : FeOk e := by
  obtain ⟨_, rfl⟩ := fMul_eq_ok.1 h; exact reduce_ok ha _

theorem fInv_ok {a e : FE} (ha : FeOk a) (h : fInv a = .ok e) : FeOk e := by
  obtain ⟨_, rfl⟩ := fInv_eq_ok.1 h; exact reduce_ok ha _

/-- `REDC` of a product of reduced values is reduced: one conditional subtraction is enough (R152). -/
theorem redc_lt {m : Word} {t : Nat} (ht : t < m.toNat * montR) : redc t m < m.toNat := by
  have hq : (t % montR * (montNegInv m).toNat) % montR < montR := Nat.mod_lt _ (by decide)
  have hm : 0 < m.toNat := by by_contra h; simp [show m.toNat = 0 by omega] at ht
  have h1 : (t + (t % montR * (montNegInv m).toNat) % montR * m.toNat) / montR < 2 * m.toNat := by
    apply Nat.div_lt_of_lt_mul
    have := Nat.mul_lt_mul_of_pos_right hq hm
    nlinarith
  simp only [redc]
  split <;> omega

theorem montMul_lt {x y : Nat} {m : Word} (hx : x < m.toNat) (hy : y < m.toNat) : montMul x y m < m.toNat := by
  apply redc_lt
  have : y < montR := lt_trans hy m.isLt
  exact Nat.mul_lt_mul_of_lt_of_lt hx this

theorem fMont_ok {a b e : FE} (ha : FeOk a) (hb : FeOk b) (h : fMont a b = .ok e) : FeOk e := by
  obtain ⟨hm, rfl⟩ := fMont_eq_ok.1 h
  refine ⟨ha.odd, ha.three_le, ?_⟩
  have := montMul_lt ha.value_lt (hm ▸ hb.value_lt)
  exact lt_of_le_of_lt (Nat.mod_le _ _) this

/-- FPOW's value is the power (R155). -/
theorem fPow_value {a : FE} (ha : FeOk a) (e : Word) :
    (fPow a e).value.toNat = a.value.toNat ^ e.toNat % a.modulus.toNat := by
  have h := powMod_eq (x := a.value.toNat) ha.pos e.isLt
  have hlt : a.value.toNat ^ e.toNat % a.modulus.toNat < 2 ^ 256 :=
    lt_trans (Nat.mod_lt _ ha.pos) a.modulus.isLt
  rw [fPow, BitVec.toNat_ofNat, h, Nat.mod_eq_of_lt hlt]

theorem fPow_ok {a : FE} (ha : FeOk a) (e : Word) : FeOk (fPow a e) :=
  ⟨ha.odd, ha.three_le, by rw [fPow_value ha]; exact Nat.mod_lt _ ha.pos⟩

/-- What FDiv can do (R174). -/
theorem fDiv_eq_ok {a b e : FE} :
    fDiv a b = .ok e ↔ a.modulus = b.modulus ∧ ∃ c, fInv b = .ok c ∧ fMul a c = .ok e := by
  unfold fDiv
  by_cases h : sameField a b = true
  · rw [if_pos h, bind_eq_ok]; simp [sameField_iff.1 h]
  · rw [if_neg h]
    constructor
    · rintro ⟨⟩
    · rintro ⟨e, -⟩; exact absurd (sameField_iff.2 e) h

theorem fDiv_ok {a b e : FE} (ha : FeOk a) (h : fDiv a b = .ok e) : FeOk e := by
  obtain ⟨_, c, _, h⟩ := fDiv_eq_ok.1 h; exact fMul_ok ha h

theorem fDiv_eq_error {a b : FE} {k : Failure} (h : fDiv a b = .error k) :
    k = .fieldMismatch ∨ k = .notInvertible := by
  unfold fDiv at h
  split at h
  · rcases bind_eq_error.1 h with h | ⟨c, _, h⟩
    · exact .inr (fInv_eq_error.1 h).2
    · exact .inl (ite_ok_eq_error.1 h).2
  · cases h; exact .inl rfl

theorem newInf_eq_error {a b : FE} {k : Failure} (h : newInf a b = .error k) : k = .fieldMismatch := by
  unfold newInf at h; split at h <;> cases h; rfl

theorem newInf_ok {a b : FE} {q : Pt} (ha : FeOk a) (hb : FeOk b) (h : newInf a b = .ok q) : PtOk q := by
  unfold newInf at h
  split at h
  · cases h
  · rename_i hm
    cases h
    exact ⟨ha.odd, ha.three_le, ha.value_lt, (not_not.1 hm) ▸ hb.value_lt⟩

theorem newAff_eq_error {x y a b : FE} {k : Failure} (h : newAff x y a b = .error k) :
    k = .fieldMismatch ∨ k = .notOnCurve := by
  unfold newAff at h
  split at h
  · cases h; exact .inl rfl
  · split at h
    · cases h; exact .inl rfl
    · exact .inr (ite_ok_eq_error.1 h).2

theorem newAff_ok {x y a b : FE} {q : Pt} (hx : FeOk x) (hy : FeOk y) (ha : FeOk a) (hb : FeOk b)
    (h : newAff x y a b = .ok q) : PtOk q := by
  unfold newAff at h
  split at h
  · cases h
  · rename_i h1
    split at h
    · cases h
    · rename_i h2
      obtain ⟨_, rfl⟩ := ite_ok_eq_ok.1 h
      rw [not_or, not_not, not_not] at h2
      exact ⟨ha.odd, ha.three_le, h2.1 ▸ hx.value_lt, h2.2 ▸ hy.value_lt, ha.value_lt,
        (not_not.1 h1) ▸ hb.value_lt⟩

theorem coordX_eq_error {p : Pt} {k : Failure} (h : coordX p = .error k) : k = .noCoordinate := by
  cases p <;> cases h; rfl

theorem coordY_eq_error {p : Pt} {k : Failure} (h : coordY p = .error k) : k = .noCoordinate := by
  cases p <;> cases h; rfl

theorem coordX_ok {p : Pt} {e : FE} (hp : PtOk p) (h : coordX p = .ok e) : FeOk e := by
  cases p <;> cases h; exact ⟨hp.odd, hp.three_le, hp.below.1⟩

theorem coordY_ok {p : Pt} {e : FE} (hp : PtOk p) (h : coordY p = .ok e) : FeOk e := by
  cases p <;> cases h; exact ⟨hp.odd, hp.three_le, hp.below.2.1⟩

theorem cpP_pos : 0 < cpP.toNat := by decide

theorem cpN_pos : 0 < cpN.toNat := by decide

/-- The generator is a valid point record. -/
theorem cpG_ok : PtOk cpG := ⟨by decide, by decide, by
  show gx.toNat < cpP.toNat ∧ gy.toNat < cpP.toNat ∧ (0 : Word).toNat < cpP.toNat ∧ (7 : Word).toNat < cpP.toNat
  decide⟩

theorem romPoint_eq_ok {x y : Word} {q : Pt} :
    romPoint x y = .ok q ↔ onCurve x y 0 7 cpP = true ∧ q = .aff x y 0 7 cpP := by
  rw [romPoint, ite_ok_eq_ok]

theorem romPoint_ok {x y : Word} {q : Pt} (hx : x.toNat < cpP.toNat) (hy : y.toNat < cpP.toNat)
    (h : romPoint x y = .ok q) : PtOk q := by
  obtain ⟨_, rfl⟩ := romPoint_eq_ok.1 h
  exact ⟨cpG_ok.odd, cpG_ok.three_le, hx, hy, cpG_ok.below.2.2⟩

/-- `w` of R242 is a value of the field. -/
theorem liftW_ok (x : Word) : FeOk ⟨liftW x, cpP⟩ := ⟨cpG_ok.odd, cpG_ok.three_le, reduce_lt cpP_pos _⟩

/-- The root of R242: where the Legendre test gives 1, the square of `w^((p+1)/4)` is `w` (R243). -/
theorem pow_root {w p : Nat} (hp : p % 4 = 3) (hw : w < p) (h : w ^ ((p - 1) / 2) % p = 1) :
    w ^ ((p + 1) / 4) % p * (w ^ ((p + 1) / 4) % p) % p = w := by
  have h1 : (p + 1) / 4 + (p + 1) / 4 = (p - 1) / 2 + 1 := by omega
  rw [← Nat.mul_mod, ← pow_add, h1, pow_succ, Nat.mul_mod, h, one_mul, Nat.mod_mod, Nat.mod_eq_of_lt hw]

/-- LIFTX's last check never fails (R243). -/
theorem liftX_cases (v : Word) :
    (liftX v = .error .noSquareRoot ∧
      (fPow ⟨liftW (reduce v.toNat cpP), cpP⟩ (BitVec.ofNat 256 ((cpP.toNat - 1) / 2))).value ≠ 1) ∨
    ((fPow ⟨liftW (reduce v.toNat cpP), cpP⟩ (BitVec.ofNat 256 ((cpP.toNat - 1) / 2))).value = 1 ∧
      liftX v = .ok (.aff (reduce v.toNat cpP)
        (fPow ⟨liftW (reduce v.toNat cpP), cpP⟩ (BitVec.ofNat 256 ((cpP.toNat + 1) / 4))).value 0 7 cpP)) := by
  have hp : cpP.toNat % 4 = 3 := by decide
  have hw := liftW_ok (reduce v.toNat cpP)
  by_cases h : (fPow ⟨liftW (reduce v.toNat cpP), cpP⟩ (BitVec.ofNat 256 ((cpP.toNat - 1) / 2))).value = 1
  · refine .inr ⟨h, ?_⟩
    have hl : liftX v = romPoint (reduce v.toNat cpP)
        (fPow ⟨liftW (reduce v.toNat cpP), cpP⟩ (BitVec.ofNat 256 ((cpP.toNat + 1) / 4))).value := by
      rw [liftX, if_neg (fun hn => hn hp), if_neg (fun hn => hn h)]
    rw [hl, romPoint_eq_ok]
    refine ⟨?_, rfl⟩
    rw [onCurve_iff cpP_pos, fPow_value hw]
    have h1 := congrArg BitVec.toNat h
    rw [fPow_value hw] at h1
    have e1 : (BitVec.ofNat 256 ((cpP.toNat - 1) / 2)).toNat = (cpP.toNat - 1) / 2 := by decide
    have e2 : (BitVec.ofNat 256 ((cpP.toNat + 1) / 4)).toNat = (cpP.toNat + 1) / 4 := by decide
    rw [e1] at h1
    rw [e2, pow_root hp hw.value_lt h1]
    have h2 := reduce_natCast cpP_pos ((reduce v.toNat cpP).toNat * (reduce v.toNat cpP).toNat
      * (reduce v.toNat cpP).toNat + 0 * (reduce v.toNat cpP).toNat + 7)
    push_cast at h2
    simpa [liftW] using h2
  · exact .inl ⟨by rw [liftX, if_neg (fun hn => hn hp), if_pos h], h⟩

theorem liftX_eq_error {v : Word} {k : Failure} (h : liftX v = .error k) : k = .noSquareRoot := by
  rcases liftX_cases v with ⟨h1, _⟩ | ⟨_, h1⟩ <;> rw [h1] at h <;> cases h; rfl

theorem liftX_ok {v : Word} {q : Pt} (h : liftX v = .ok q) : PtOk q := by
  rcases liftX_cases v with ⟨h1, _⟩ | ⟨_, h1⟩ <;> rw [h1] at h <;> cases h
  exact ⟨cpG_ok.odd, cpG_ok.three_le, reduce_lt cpP_pos _, (fPow_ok (liftW_ok _) _).value_lt, cpG_ok.below.2.2⟩

theorem keyPair_eq_error {d : Word} {k : Failure} (h : keyPair d = .error k) :
    k = .invalidScalar ∨ k = .notInvertible := by
  unfold keyPair at h
  split at h
  · exact .inr (scalarMul_eq_error h)
  · cases h; exact .inl rfl

theorem keyPair_ok {d : Word} {q : Pt} (h : keyPair d = .ok q) : PtOk q := by
  unfold keyPair at h
  split at h
  · exact scalarMul_ok cpG_ok h
  · cases h

/-- The checks before SIGN's loop (R260). -/
theorem signOperands_eq_ok {kr ks kz kd : KReg} {s : State} {z d : Word} :
    signOperands kr ks kz kd s = .ok (z, d) ↔
      kr ≠ ks ∧ s.readK kz = .ok z ∧ s.readK kd = .ok d ∧ Accepted d := by
  unfold signOperands
  by_cases h : kr = ks
  · simp [h]
  · rw [if_neg h, bind_eq_ok]
    constructor
    · rintro ⟨⟨z', d'⟩, h1, h2⟩
      obtain ⟨h4, h3⟩ := ite_ok_eq_ok.1 (show (if inScalarRange d' = true then Except.ok (z', d') else _) = _ from h2)
      cases h3
      exact ⟨h, (readKK_eq_ok.1 h1).1, (readKK_eq_ok.1 h1).2, inScalarRange_iff.1 h4⟩
    · rintro ⟨_, h1, h2, h3⟩
      exact ⟨(z, d), readKK_eq_ok.2 ⟨h1, h2⟩, ite_ok_eq_ok.2 ⟨inScalarRange_iff.2 h3, rfl⟩⟩

theorem signOperands_eq_error {kr ks kz kd : KReg} {s : State} {k : Failure}
    (h : signOperands kr ks kz kd s = .error k) :
    (kr = ks ∧ k = .illegalCommand) ∨ k = .regInvalid ∨ k = .invalidScalar := by
  unfold signOperands at h
  split at h
  · cases h; exact .inl ⟨‹_›, rfl⟩
  · rcases bind_eq_error.1 h with h | ⟨⟨z, d⟩, _, h⟩
    · exact .inr (.inl (readKK_error h))
    · exact .inr (.inr (ite_ok_eq_error.1 h).2)

theorem signPass_eq_error {z d k : Word} {c : Failure} (h : signPass z d k = .error c) : c = .notInvertible := by
  rcases bind_eq_error.1 h with h | ⟨p, _, h⟩
  · exact scalarMul_eq_error h
  · cases p with
    | inf a b m => cases h
    | aff x y a b m =>
      simp only at h
      split at h
      · cases h
      · rcases bind_eq_error.1 h with h | ⟨i, _, h⟩
        · exact (fInv_eq_error.1 h).2
        · split at h <;> cases h

theorem signLoop_eq_failed {z d : Word} {l rest : List Word} {k : Failure}
    (h : signLoop z d l = .failed k rest) : k = .notInvertible := by
  induction l with
  | nil => cases h
  | cons c cs ih =>
    unfold signLoop at h
    split at h
    · split at h
      · rename_i e he; cases h; exact signPass_eq_error he
      · cases h
      · exact ih h
    · exact ih h

theorem verifyEquation_eq_error {z r t : Word} {q : Pt} {k : Failure} (hq : q.curve = (0, 7, cpP))
    (h : verifyEquation z r t q = .error k) : k = .notInvertible := by
  rcases bind_eq_error.1 h with h | ⟨i, _, h⟩
  · exact (fInv_eq_error.1 h).2
  · rcases bind_eq_error.1 h with h | ⟨g1, h1, h⟩
    · exact scalarMul_eq_error h
    · rcases bind_eq_error.1 h with h | ⟨q2, h2, h⟩
      · exact scalarMul_eq_error h
      · rcases bind_eq_error.1 h with h | ⟨p, _, h⟩
        · rcases pAdd_eq_error h with h | ⟨_, h⟩
          · exact h
          · exact absurd ((scalarMul_curve h1).trans (((scalarMul_curve h2).trans hq).symm)) h
        · cases p <;> cases h

theorem verifySig_eq_error {z r t : Word} {q : Pt} {k : Failure} (h : verifySig z r t q = .error k) :
    k = .curveMismatch ∨ k = .notInvertible := by
  unfold verifySig at h
  split at h
  · split at h
    · cases h; exact .inl rfl
    · rename_i hq; exact .inr (verifyEquation_eq_error (not_not.1 hq) h)
  · cases h

end Sys2Proof.Machine
end

