-- ==== Sys2Proof/Laws/Exec.lean ====
section
/-! SUPPORT. What a command can do, said once: `exec_cases` gives the three ends of every command (success, failure,
waiting) and, through `Written`, what a success has written. -/

namespace Sys2Proof.Machine

open Sys2Proof.Config

/-- What a successful command's rule may have changed before STATUS and the response: its destinations, FLAG and
VRES if it writes them, ERRS if it is ERRCLR, the draws if it takes any. -/
structure Written (i : Instr) (s u : State) : Prop where
  k : ∀ r, r ∉ i.destK → u.readK r = s.readK r
  f : ∀ r, r ∉ i.destF → u.readF r = s.readF r
  p : ∀ r, r ∉ i.destP → u.readP r = s.readP r
  kSet : ∀ r ∈ i.destK, ∃ v, u.readK r = .ok v
  fSet : ∀ r ∈ i.destF, ∃ e, u.readF r = .ok e ∧ (FilesOk s → FeOk e)
  pSet : ∀ r ∈ i.destP, ∃ q, u.readP r = .ok q ∧ (FilesOk s → PtOk q)
  flag : i.writesFlag = false → u.status.flag = s.status.flag
  vres : i.writesVres = false → u.status.vres = s.status.vres
  errs : u.status.errs = if i = .errclr then 0 else s.status.errs
  din : u.din = s.din
  host : u.host = s.host
  drawn : u.draws <:+ s.draws
  draws : i.takesDraws = false → u.draws = s.draws

/-- The three ends of a command that is not STATRD. -/
inductive Ends (i : Instr) (s t : State) : Prop
  | success (u : State) (v : Word) (written : Written i s u) (out : v ≠ 0 → ∃ ks, i = .kst ks)
      (eq : t = u.completeWith v)
  | failure (k : Failure) (rest : List Word) (code : i.wf = true → k ∈ i.codes) (drawn : rest <:+ s.draws)
      (draws : i.takesDraws = false → rest = s.draws) (eq : t = (s.withDraws rest).raise k)
  | waiting (takes : i.takesDraws = true) (eq : t = s.awaitDraw)

variable {i : Instr} {s t u : State}

/-- Nothing but FLAG, VRES and ERRS written. -/
theorem Written.ofStatus (hk : i.destK = []) (hf : i.destF = []) (hp : i.destP = []) (st : Status)
    (h1 : i.writesFlag = false → st.flag = s.status.flag) (h2 : i.writesVres = false → st.vres = s.status.vres)
    (h3 : st.errs = if i = .errclr then 0 else s.status.errs) : Written i s { s with status := st } where
  k _ _ := rfl
  f _ _ := rfl
  p _ _ := rfl
  kSet r hr := by simp [hk] at hr
  fSet r hr := by simp [hf] at hr
  pSet r hr := by simp [hp] at hr
  flag := h1
  vres := h2
  errs := h3
  din := rfl
  host := rfl
  drawn := List.suffix_refl _
  draws _ := rfl

/-- One K register written. -/
theorem Written.ofK {r : KReg} {v : Word} (hk : i.destK = [r]) (hf : i.destF = []) (hp : i.destP = [])
    (he : i ≠ .errclr) : Written i s (s.writeK r v) where
  k r' h := by rw [hk, List.mem_singleton] at h; rw [readK_writeK, if_neg h]
  f _ _ := rfl
  p _ _ := rfl
  kSet r' h := by rw [hk, List.mem_singleton] at h; subst h; exact ⟨v, readK_writeK_self r' v⟩
  fSet r hr := by simp [hf] at hr
  pSet r hr := by simp [hp] at hr
  flag _ := rfl
  vres _ := rfl
  errs := by simp [he]
  din := rfl
  host := rfl
  drawn := List.suffix_refl _
  draws _ := rfl

/-- One F register written. -/
theorem Written.ofF {r : FReg} {e : FE} (hk : i.destK = []) (hf : i.destF = [r]) (hp : i.destP = [])
    (he : i ≠ .errclr) (ok : FilesOk s → FeOk e) : Written i s (s.writeF r e) where
  k _ _ := rfl
  f r' h := by rw [hf, List.mem_singleton] at h; rw [readF_writeF, if_neg h]
  p _ _ := rfl
  kSet r hr := by simp [hk] at hr
  fSet r' h := by rw [hf, List.mem_singleton] at h; subst h; exact ⟨e, readF_writeF_self r' e, ok⟩
  pSet r hr := by simp [hp] at hr
  flag _ := rfl
  vres _ := rfl
  errs := by simp [he]
  din := rfl
  host := rfl
  drawn := List.suffix_refl _
  draws _ := rfl

/-- One P register written. -/
theorem Written.ofP {r : PReg} {q : Pt} (hk : i.destK = []) (hf : i.destF = []) (hp : i.destP = [r])
    (he : i ≠ .errclr) (ok : FilesOk s → PtOk q) : Written i s (s.writeP r q) where
  k _ _ := rfl
  f _ _ := rfl
  p r' h := by rw [hp, List.mem_singleton] at h; rw [readP_writeP, if_neg h]
  kSet r hr := by simp [hk] at hr
  fSet r hr := by simp [hf] at hr
  pSet r' h := by rw [hp, List.mem_singleton] at h; subst h; exact ⟨q, readP_writeP_self r' q, ok⟩
  flag _ := rfl
  vres _ := rfl
  errs := by simp [he]
  din := rfl
  host := rfl
  drawn := List.suffix_refl _
  draws _ := rfl

/-- A rule that goes on after a computation that may raise. -/
theorem Ends.ofBind {α : Type} {x : Except Failure α} {g : α → Except Failure State}
    (h : finish s (x >>= g) = .next t) (hx : ∀ k, x = .error k → i.wf = true → k ∈ i.codes)
    (hg : ∀ a, x = .ok a → finish s (g a) = .next t → Ends i s t) : Ends i s t := by
  cases x with
  | error k => cases h; exact .failure k s.draws (hx k rfl) (List.suffix_refl _) (fun _ => rfl) rfl
  | ok a => exact hg a rfl h

/-- A rule that has come to its end. -/
theorem Ends.ofPure (h : finish s (.ok u) = .next t) (hw : Written i s u) : Ends i s t := by
  cases h
  exact .success u 0 hw (fun h => absurd rfl h) rfl

/-- The ends of a command that succeeds on every path. -/
theorem Ends.ofNext (h : (Host.Outcome.next u.complete : Outcome) = .next t) (hw : Written i s u) : Ends i s t := by
  cases h
  exact .success u 0 hw (fun h => absurd rfl h) rfl

/-- A failure that is one of the command's. -/
theorem code_of {k l : Failure} (hk : k = l) (hl : l ∈ i.codes) : i.wf = true → k ∈ i.codes := fun _ => hk ▸ hl

theorem exec_interface (h : exec i s = .next t) (hi : family i = .interface) (hs : i ≠ .statrd) : Ends i s t := by
  cases i <;> cases hi
  case nop => exact .ofNext h (.ofStatus rfl rfl rfl s.status (fun _ => rfl) (fun _ => rfl) rfl)
  case kld kd => exact .ofNext h (.ofK rfl rfl rfl nofun)
  case kst ks =>
    rcases finishOut_cases h with ⟨v, hv, rfl⟩ | ⟨k, hk, rfl⟩
    · exact .success s v (.ofStatus rfl rfl rfl s.status (fun _ => rfl) (fun _ => rfl) rfl) (fun _ => ⟨ks, rfl⟩) rfl
    · exact .failure k s.draws (code_of (readK_error hk) (by simp [Instr.codes])) (List.suffix_refl _) (fun _ => rfl) rfl
  case kmov kd ks =>
    exact .ofBind h (fun k hk => code_of (readK_error hk) (by simp [Instr.codes])) fun v _ h =>
      .ofPure h (.ofK rfl rfl rfl nofun)
  case statrd => exact absurd rfl hs
  case errclr => exact .ofNext h (.ofStatus rfl rfl rfl _ (fun _ => rfl) (fun _ => rfl) rfl)

theorem exec_fieldRegs (h : exec i s = .next t) (hi : family i = .fieldRegs) : Ends i s t := by
  cases i <;> cases hi
  case fnew fd kv km =>
    refine .ofBind h (fun k hk => code_of (readKK_error hk) (by simp [Instr.codes])) fun ⟨v, m⟩ _ h =>
      .ofBind h (fun k hk => code_of (fNew_eq_error.1 hk).2 (by simp [Instr.codes])) fun e he h =>
      .ofPure h (.ofF rfl rfl rfl nofun fun _ => fNew_ok he)
  case fzero fd km =>
    exact .ofBind h (fun k hk => code_of (readK_error hk) (by simp [Instr.codes])) fun m _ h =>
      .ofBind h (fun k hk => code_of (fNew_eq_error.1 hk).2 (by simp [Instr.codes])) fun e he h =>
      .ofPure h (.ofF rfl rfl rfl nofun fun _ => fNew_ok he)
  case fval kd fs =>
    exact .ofBind h (fun k hk => code_of (readF_error hk) (by simp [Instr.codes])) fun e _ h =>
      .ofPure h (.ofK rfl rfl rfl nofun)
  case fmodu kd fs =>
    exact .ofBind h (fun k hk => code_of (readF_error hk) (by simp [Instr.codes])) fun e _ h =>
      .ofPure h (.ofK rfl rfl rfl nofun)
  case fmov fd fs =>
    exact .ofBind h (fun k hk => code_of (readF_error hk) (by simp [Instr.codes])) fun e he h =>
      .ofPure h (.ofF rfl rfl rfl nofun fun ok => ok.f _ _ he)
  case feq fs1 fs2 =>
    exact .ofBind h (fun k hk => code_of (readFF_error hk) (by simp [Instr.codes])) fun ⟨a, b⟩ _ h =>
      .ofBind h (fun k hk => code_of (ite_ok_eq_error.1 hk).2 (by simp [Instr.codes])) fun r _ h =>
      .ofPure h (.ofStatus rfl rfl rfl _ nofun (fun _ => rfl) rfl)

/-- A command over two F sources. -/
theorem fieldBinary_ends {op : FE → FE → Except Failure FE} {fd fs1 fs2 : FReg}
    (h : fieldBinary op fd fs1 fs2 s = .next t) (hk : i.destK = []) (hf : i.destF = [fd]) (hp : i.destP = [])
    (he : i ≠ .errclr) (hr : Failure.regInvalid ∈ i.codes)
    (herr : ∀ a b k, op a b = .error k → k ∈ i.codes)
    (hok : ∀ a b e, FeOk a → FeOk b → op a b = .ok e → FeOk e) : Ends i s t :=
  .ofBind h (fun _ hk => code_of (readFF_error hk) hr) fun ⟨a, b⟩ hab h =>
    .ofBind h (fun k hk _ => herr a b k hk) fun e hop h =>
      .ofPure h (.ofF hk hf hp he fun ok =>
        hok a b e (ok.f _ _ (readFF_eq_ok.1 hab).1) (ok.f _ _ (readFF_eq_ok.1 hab).2) hop)

theorem exec_fieldArith (h : exec i s = .next t) (hi : family i = .fieldArith) : Ends i s t := by
  cases i <;> cases hi
  case fadd fd fs1 fs2 =>
    exact fieldBinary_ends h rfl rfl rfl nofun (by simp [Instr.codes])
      (fun a b k hk => by simp [(ite_ok_eq_error.1 hk).2, Instr.codes]) fun a b e ha _ he => fAdd_ok ha he
  case fsub fd fs1 fs2 =>
    exact fieldBinary_ends h rfl rfl rfl nofun (by simp [Instr.codes])
      (fun a b k hk => by simp [(ite_ok_eq_error.1 hk).2, Instr.codes]) fun a b e ha _ he => fSub_ok ha he
  case fmul fd fs1 fs2 =>
    exact fieldBinary_ends h rfl rfl rfl nofun (by simp [Instr.codes])
      (fun a b k hk => by simp [(ite_ok_eq_error.1 hk).2, Instr.codes]) fun a b e ha _ he => fMul_ok ha he
  case fmont fd fs1 fs2 =>
    exact fieldBinary_ends h rfl rfl rfl nofun (by simp [Instr.codes])
      (fun a b k hk => by simp [(ite_ok_eq_error.1 hk).2, Instr.codes]) fun a b e ha hb he => fMont_ok ha hb he
  case fdiv fd fs1 fs2 =>
    exact fieldBinary_ends h rfl rfl rfl nofun (by simp [Instr.codes])
      (fun a b k hk => by rcases fDiv_eq_error hk with rfl | rfl <;> simp [Instr.codes]) fun a b e ha _ he =>
        fDiv_ok ha he
  case fpow fd fs ke =>
    exact .ofBind h (fun k hk => code_of (readFK_error hk) (by simp [Instr.codes])) fun ⟨a, e⟩ hae h =>
      .ofPure h (.ofF rfl rfl rfl nofun fun ok => fPow_ok (ok.f _ _ (readFK_eq_ok.1 hae).1) e)
  case finv fd fs =>
    exact .ofBind h (fun k hk => code_of (readF_error hk) (by simp [Instr.codes])) fun a ha h =>
      .ofBind h (fun k hk => code_of (fInv_eq_error.1 hk).2 (by simp [Instr.codes])) fun e he h =>
      .ofPure h (.ofF rfl rfl rfl nofun fun ok => fInv_ok (ok.f _ _ ha) he)

theorem exec_points (h : exec i s = .next t) (hi : family i = .points) : Ends i s t := by
  cases i <;> cases hi
  case pnew pd fx fy fa fb xp yp =>
    cases xp <;> cases yp
    · exact .ofBind h (fun k hk => code_of (readFF_error hk) (by simp [Instr.codes])) fun ⟨a, b⟩ hab h =>
        .ofBind h (fun k hk => code_of (newInf_eq_error hk) (by simp [Instr.codes])) fun q hq h =>
        .ofPure h (.ofP rfl rfl rfl nofun fun ok =>
          newInf_ok (ok.f _ _ (readFF_eq_ok.1 hab).1) (ok.f _ _ (readFF_eq_ok.1 hab).2) hq)
    · cases h; exact .failure _ s.draws (fun _ => by simp [Instr.codes]) (List.suffix_refl _) (fun _ => rfl) rfl
    · cases h; exact .failure _ s.draws (fun _ => by simp [Instr.codes]) (List.suffix_refl _) (fun _ => rfl) rfl
    · exact .ofBind h (fun k hk => code_of (readFFFF_error hk) (by simp [Instr.codes])) fun ⟨x, y, a, b⟩ hab h =>
        .ofBind h (fun k hk _ => by rcases newAff_eq_error hk with rfl | rfl <;> simp [Instr.codes]) fun q hq h =>
        .ofPure h (.ofP rfl rfl rfl nofun fun ok =>
          have hr := readFFFF_eq_ok.1 hab
          newAff_ok (ok.f _ _ hr.1) (ok.f _ _ hr.2.1) (ok.f _ _ hr.2.2.1) (ok.f _ _ hr.2.2.2) hq)
  case pgetx fd ps =>
    exact .ofBind h (fun k hk => code_of (readP_error hk) (by simp [Instr.codes])) fun p hp h =>
      .ofBind h (fun k hk => code_of (coordX_eq_error hk) (by simp [Instr.codes])) fun e he h =>
      .ofPure h (.ofF rfl rfl rfl nofun fun ok => coordX_ok (ok.p _ _ hp) he)
  case pgety fd ps =>
    exact .ofBind h (fun k hk => code_of (readP_error hk) (by simp [Instr.codes])) fun p hp h =>
      .ofBind h (fun k hk => code_of (coordY_eq_error hk) (by simp [Instr.codes])) fun e he h =>
      .ofPure h (.ofF rfl rfl rfl nofun fun ok => coordY_ok (ok.p _ _ hp) he)
  case pgeta fd ps =>
    exact .ofBind h (fun k hk => code_of (readP_error hk) (by simp [Instr.codes])) fun p hp h =>
      .ofPure h (.ofF rfl rfl rfl nofun fun ok =>
        ⟨(ok.p _ _ hp).odd, (ok.p _ _ hp).three_le, (ok.p _ _ hp).a_lt⟩)
  case pgetb fd ps =>
    exact .ofBind h (fun k hk => code_of (readP_error hk) (by simp [Instr.codes])) fun p hp h =>
      .ofPure h (.ofF rfl rfl rfl nofun fun ok =>
        ⟨(ok.p _ _ hp).odd, (ok.p _ _ hp).three_le, (ok.p _ _ hp).b_lt⟩)
  case pisinf ps =>
    exact .ofBind h (fun k hk => code_of (readP_error hk) (by simp [Instr.codes])) fun p _ h =>
      .ofPure h (.ofStatus rfl rfl rfl _ nofun (fun _ => rfl) rfl)
  case peq ps1 ps2 =>
    exact .ofBind h (fun k hk => code_of (readPP_error hk) (by simp [Instr.codes])) fun ⟨p, q⟩ _ h =>
      .ofPure h (.ofStatus rfl rfl rfl _ nofun (fun _ => rfl) rfl)
  case pmov pd ps =>
    exact .ofBind h (fun k hk => code_of (readP_error hk) (by simp [Instr.codes])) fun p hp h =>
      .ofPure h (.ofP rfl rfl rfl nofun fun ok => ok.p _ _ hp)
  case padd pd ps1 ps2 =>
    exact .ofBind h (fun k hk => code_of (readPP_error hk) (by simp [Instr.codes])) fun ⟨p, q⟩ hpq h =>
      .ofBind h (fun k hk _ => by rcases pAdd_eq_error hk with rfl | ⟨rfl, _⟩ <;> simp [Instr.codes]) fun r hr h =>
      .ofPure h (.ofP rfl rfl rfl nofun fun ok =>
        pAdd_ok (ok.p _ _ (readPP_eq_ok.1 hpq).1) (ok.p _ _ (readPP_eq_ok.1 hpq).2) hr)
  case pmul pd ps kk =>
    exact .ofBind h (fun k hk => code_of (readPK_error hk) (by simp [Instr.codes])) fun ⟨p, k⟩ hpk h =>
      .ofBind h (fun k hk => code_of (scalarMul_eq_error hk) (by simp [Instr.codes])) fun r hr h =>
      .ofPure h (.ofP rfl rfl rfl nofun fun ok => scalarMul_ok (ok.p _ _ (readPK_eq_ok.1 hpk).1) hr)

theorem exec_curveParams (h : exec i s = .next t) (hi : family i = .curveParams) : Ends i s t := by
  cases i <;> cases hi
  case cpp kd => exact .ofNext h (.ofK rfl rfl rfl nofun)
  case cpn kd => exact .ofNext h (.ofK rfl rfl rfl nofun)
  case cpa fd => exact .ofNext h (.ofF rfl rfl rfl nofun fun _ => ⟨by decide, by decide, by decide⟩)
  case cpb fd => exact .ofNext h (.ofF rfl rfl rfl nofun fun _ => ⟨by decide, by decide, by decide⟩)
  case cpg pd => exact .ofNext h (.ofP rfl rfl rfl nofun fun _ => cpG_ok)
  case cppoint pd kx ky =>
    exact .ofBind h (fun k hk => code_of (readKK_error hk) (by simp [Instr.codes])) fun ⟨x, y⟩ _ h =>
      .ofBind h (fun k hk => code_of (ite_ok_eq_error.1 hk).2 (by simp [Instr.codes])) fun q hq h =>
      .ofPure h (.ofP rfl rfl rfl nofun fun _ => romPoint_ok (reduce_lt cpP_pos _) (reduce_lt cpP_pos _) hq)
  case liftx pd kx =>
    exact .ofBind h (fun k hk => code_of (readK_error hk) (by simp [Instr.codes])) fun v _ h =>
      .ofBind h (fun k hk => code_of (liftX_eq_error hk) (by simp [Instr.codes])) fun q hq h =>
      .ofPure h (.ofP rfl rfl rfl nofun fun _ => liftX_ok hq)

theorem exec_ecdsa (h : exec i s = .next t) (hi : family i = .ecdsa) : Ends i s t := by
  cases i <;> cases hi
  case keypair pq kd =>
    exact .ofBind h (fun k hk => code_of (readK_error hk) (by simp [Instr.codes])) fun d _ h =>
      .ofBind h (fun k hk _ => by rcases keyPair_eq_error hk with rfl | rfl <;> simp [Instr.codes]) fun q hq h =>
      .ofPure h (.ofP rfl rfl rfl nofun fun _ => keyPair_ok hq)
  case keygen pq kd =>
    simp only [exec, execKeygen] at h
    split at h
    · cases h; exact .waiting rfl rfl
    · rename_i d rest hd
      obtain ⟨before, hs, -, -⟩ := sampleScalar_eq_some hd
      have hsuf : rest <:+ s.draws := by rw [hs]; exact ⟨before ++ [d], by simp⟩
      cases hq : scalarMul cpG d with
      | error k =>
        rw [hq] at h; cases h
        exact .failure k rest (code_of (scalarMul_eq_error hq) (by simp [Instr.codes])) hsuf nofun rfl
      | ok q =>
        rw [hq] at h; cases h
        refine .success _ 0 ?_ (fun h => absurd rfl h) rfl
        exact {
          k := fun r hr => by rw [Instr.destK, List.mem_singleton] at hr; rw [readK_writeK, if_neg hr]; rfl
          f := fun _ _ => rfl
          p := fun r hr => by
            rw [Instr.destP, List.mem_singleton] at hr
            exact (readP_congr rfl r).trans ((readP_writeP pq r q).trans (if_neg hr))
          kSet := fun r hr => by rw [Instr.destK, List.mem_singleton] at hr; subst hr; exact ⟨d, readK_writeK_self r d⟩
          fSet := nofun
          pSet := fun r hr => by
            rw [Instr.destP, List.mem_singleton] at hr; subst hr
            exact ⟨q, (readP_congr rfl r).trans (readP_writeP_self (s := s.withDraws rest) r q),
              fun _ => scalarMul_ok cpG_ok hq⟩
          flag := fun _ => rfl
          vres := fun _ => rfl
          errs := rfl
          din := rfl
          host := rfl
          drawn := hsuf
          draws := nofun }
  case sign kr ks kz kd =>
    simp only [exec, execSign] at h
    split at h
    · rename_i k hk
      cases h
      exact .failure k s.draws (fun hwf => by
        rcases signOperands_eq_error hk with ⟨he, _⟩ | rfl | rfl
        · simp [Instr.wf, he] at hwf
        · simp [Instr.codes]
        · simp [Instr.codes]) (List.suffix_refl _) nofun rfl
    · rename_i z d hop
      split at h
      · rename_i r v rest hl
        cases h
        have hne : kr ≠ ks := (signOperands_eq_ok.1 hop).1
        refine .success _ 0 ?_ (fun h => absurd rfl h) rfl
        exact {
          k := fun x hx => by
            rw [Instr.destK, List.mem_cons, List.mem_singleton, not_or] at hx
            rw [readK_writeK, if_neg hx.2, readK_writeK, if_neg hx.1]; rfl
          f := fun _ _ => rfl
          p := fun _ _ => rfl
          kSet := fun x hx => by
            rw [readK_writeK, readK_writeK]
            rw [Instr.destK, List.mem_cons, List.mem_singleton] at hx
            rcases hx with rfl | rfl
            · exact ⟨r, by rw [if_neg hne, if_pos rfl]⟩
            · exact ⟨v, by rw [if_pos rfl]⟩
          fSet := nofun
          pSet := nofun
          flag := fun _ => rfl
          vres := fun _ => rfl
          errs := rfl
          din := rfl
          host := rfl
          drawn := signLoop_rest.1 _ _ _ hl
          draws := nofun }
      · rename_i k rest hl
        cases h
        exact .failure k rest (code_of (signLoop_eq_failed hl) (by simp [Instr.codes])) (signLoop_rest.2 _ _ hl)
          nofun rfl
      · cases h; exact .waiting rfl rfl
  case verify kz kr ks pq =>
    exact .ofBind h (fun k hk => code_of (readKKKP_error hk) (by simp [Instr.codes])) fun ⟨z, r, v, q⟩ _ h =>
      .ofBind h (fun k hk _ => by rcases verifySig_eq_error hk with rfl | rfl <;> simp [Instr.codes]) fun x _ h =>
      .ofPure h (.ofStatus rfl rfl rfl _ nofun nofun rfl)

/-- Everything a command can do: STATRD's own end, or one of the three ends. -/
theorem exec_cases (h : exec i s = .next t) :
    (i = .statrd ∧ t = s.respond .ok (s.status.word.setWidth 256)) ∨ (i ≠ .statrd ∧ Ends i s t) := by
  by_cases hi : i = .statrd
  · subst hi; cases h; exact .inl ⟨rfl, rfl⟩
  · refine .inr ⟨hi, ?_⟩
    cases hf : family i
    · exact exec_interface h hf hi
    · exact exec_fieldRegs h hf
    · exact exec_fieldArith h hf
    · exact exec_points h hf
    · exact exec_curveParams h hf
    · exact exec_ecdsa h hf

end Sys2Proof.Machine
end

