-- ==== Sys2Proof/Laws/Primes.lean ====
section
/-! SUPPORT. The two moduli of the constant ROM are prime: the premises under which R302 calls the `NotInvertible`
branches of KEYPAIR, KEYGEN, SIGN and VERIFY dead. Each prime is shown by the factors of its predecessor. -/

namespace Sys2Proof.Machine

open Sys2Proof.Config

/-- `p` is prime when some `c` has order `p - 1`: its powers at the quotients by the prime factors are not 1. -/
theorem prime_of_order {p : Nat} (c : Nat) (fs : List Nat) (hp : 1 < p) (hlt : p < 2 ^ 256)
    (hprod : fs.prod = p - 1) (hprime : ∀ q ∈ fs, q.Prime) (h1 : powMod c (p - 1) p = 1)
    (h2 : fs.all (fun q => powMod c ((p - 1) / q) p != 1) = true) : p.Prime := by
  have cast_pow : ∀ e, e < 2 ^ 256 → ((c : ZMod p) ^ e = 1 ↔ powMod c e p = 1) := by
    intro e he
    rw [powMod_eq (by omega) he, ← Nat.cast_pow, ← Nat.cast_one, ZMod.natCast_eq_natCast_iff', Nat.mod_eq_of_lt hp]
  refine lucas_primality p (c : ZMod p) ((cast_pow _ (by omega)).2 h1) fun q hq hd he => ?_
  obtain ⟨r, hr, hqr⟩ := (Prime.dvd_prod_iff hq.prime).1 (hprod ▸ hd)
  rw [← (Nat.prime_dvd_prime_iff_eq hq (hprime r hr)).1 hqr] at hr
  have hle : (p - 1) / q < 2 ^ 256 := lt_of_le_of_lt (Nat.div_le_self _ _) (by omega)
  have := List.all_eq_true.1 h2 q hr
  simp [(cast_pow _ hle).1 he] at this

theorem prime_13331831 : Nat.Prime 13331831 := by
  refine prime_of_order 13 [2, 5, 971, 1373]
    (by norm_num) (by norm_num) (by norm_num) ?_ (by decide +kernel) (by decide +kernel)
  refine List.forall_mem_append (l₁ := [2, 5, 971, 1373]).2 ⟨by norm_num, ?_⟩
  exact List.forall_mem_nil _

theorem prime_17337883 : Nat.Prime 173378833005251801 := by
  refine prime_of_order 6 [2, 2, 2, 5, 5, 2621, 24809, 13331831]
    (by norm_num) (by norm_num) (by norm_num) ?_ (by decide +kernel) (by decide +kernel)
  refine List.forall_mem_append (l₁ := [2, 2, 2, 5, 5, 2621, 24809]).2 ⟨by norm_num, ?_⟩
  exact List.forall_mem_cons.2 ⟨prime_13331831, List.forall_mem_nil _⟩

theorem prime_22149492 : Nat.Prime 22149492674086928081353 := by
  refine prime_of_order 5 [2, 2, 2, 3, 5323, 173378833005251801]
    (by norm_num) (by norm_num) (by norm_num) ?_ (by decide +kernel) (by decide +kernel)
  refine List.forall_mem_append (l₁ := [2, 2, 2, 3, 5323]).2 ⟨by norm_num, ?_⟩
  exact List.forall_mem_cons.2 ⟨prime_17337883, List.forall_mem_nil _⟩

theorem prime_13289695 : Nat.Prime 132896956044521568488119 := by
  refine prime_of_order 6 [2, 3, 22149492674086928081353]
    (by norm_num) (by norm_num) (by norm_num) ?_ (by decide +kernel) (by decide +kernel)
  refine List.forall_mem_append (l₁ := [2, 3]).2 ⟨by norm_num, ?_⟩
  exact List.forall_mem_cons.2 ⟨prime_22149492, List.forall_mem_nil _⟩

theorem prime_1206781 : Nat.Prime 1206781 := by
  refine prime_of_order 10 [2, 2, 3, 5, 20113]
    (by norm_num) (by norm_num) (by norm_num) ?_ (by decide +kernel) (by decide +kernel)
  refine List.forall_mem_append (l₁ := [2, 2, 3, 5, 20113]).2 ⟨by norm_num, ?_⟩
  exact List.forall_mem_nil _

theorem prime_7240687 : Nat.Prime 7240687 := by
  refine prime_of_order 3 [2, 3, 1206781]
    (by norm_num) (by norm_num) (by norm_num) ?_ (by decide +kernel) (by decide +kernel)
  refine List.forall_mem_append (l₁ := [2, 3]).2 ⟨by norm_num, ?_⟩
  exact List.forall_mem_cons.2 ⟨prime_1206781, List.forall_mem_nil _⟩

theorem prime_10759000 : Nat.Prime 107590001 := by
  refine prime_of_order 3 [2, 2, 2, 2, 5, 5, 5, 5, 7, 29, 53]
    (by norm_num) (by norm_num) (by norm_num) ?_ (by decide +kernel) (by decide +kernel)
  refine List.forall_mem_append (l₁ := [2, 2, 2, 2, 5, 5, 5, 5, 7, 29, 53]).2 ⟨by norm_num, ?_⟩
  exact List.forall_mem_nil _

theorem prime_25551594 : Nat.Prime 255515944373312847190720520512484175977 := by
  refine prime_of_order 3 [2, 2, 2, 7, 7, 11, 1627, 2657, 4423, 41201, 96557, 7240687, 107590001]
    (by norm_num) (by norm_num) (by norm_num) ?_ (by decide +kernel) (by decide +kernel)
  refine List.forall_mem_append (l₁ := [2, 2, 2, 7, 7, 11, 1627, 2657, 4423, 41201, 96557]).2 ⟨by norm_num, ?_⟩
  exact List.forall_mem_cons.2 ⟨prime_7240687, List.forall_mem_cons.2 ⟨prime_10759000, List.forall_mem_nil _⟩⟩

theorem prime_20511528 : Nat.Prime 205115282021455665897114700593932402728804164701536103180137503955397371 := by
  refine prime_of_order 10 [2, 3, 5, 29, 29, 31, 7723, 132896956044521568488119
      , 255515944373312847190720520512484175977]
    (by norm_num) (by norm_num) (by norm_num) ?_ (by decide +kernel) (by decide +kernel)
  refine List.forall_mem_append (l₁ := [2, 3, 5, 29, 29, 31, 7723]).2 ⟨by norm_num, ?_⟩
  exact List.forall_mem_cons.2 ⟨prime_13289695, List.forall_mem_cons.2 ⟨prime_25551594, List.forall_mem_nil _⟩⟩

theorem prime_p : Nat.Prime 115792089237316195423570985008687907853269984665640564039457584007908834671663 := by
  refine prime_of_order 3 [2, 3, 7, 13441
      , 205115282021455665897114700593932402728804164701536103180137503955397371]
    (by norm_num) (by norm_num) (by norm_num) ?_ (by decide +kernel) (by decide +kernel)
  refine List.forall_mem_append (l₁ := [2, 3, 7, 13441]).2 ⟨by norm_num, ?_⟩
  exact List.forall_mem_cons.2 ⟨prime_20511528, List.forall_mem_nil _⟩

theorem prime_4681609 : Nat.Prime 4681609 := by
  refine prime_of_order 23 [2, 2, 2, 3, 97, 2011]
    (by norm_num) (by norm_num) (by norm_num) ?_ (by decide +kernel) (by decide +kernel)
  refine List.forall_mem_append (l₁ := [2, 2, 2, 3, 97, 2011]).2 ⟨by norm_num, ?_⟩
  exact List.forall_mem_nil _

theorem prime_10736179 : Nat.Prime 107361793816595537 := by
  refine prime_of_order 3 [2, 2, 2, 2, 16699, 85831, 4681609]
    (by norm_num) (by norm_num) (by norm_num) ?_ (by decide +kernel) (by decide +kernel)
  refine List.forall_mem_append (l₁ := [2, 2, 2, 2, 16699, 85831]).2 ⟨by norm_num, ?_⟩
  exact List.forall_mem_cons.2 ⟨prime_4681609, List.forall_mem_nil _⟩

theorem prime_120233 : Nat.Prime 120233 := by
  refine prime_of_order 3 [2, 2, 2, 7, 19, 113]
    (by norm_num) (by norm_num) (by norm_num) ?_ (by decide +kernel) (by decide +kernel)
  refine List.forall_mem_append (l₁ := [2, 2, 2, 7, 19, 113]).2 ⟨by norm_num, ?_⟩
  exact List.forall_mem_nil _

theorem prime_44706919 : Nat.Prime 44706919 := by
  refine prime_of_order 6 [2, 3, 797, 9349]
    (by norm_num) (by norm_num) (by norm_num) ?_ (by decide +kernel) (by decide +kernel)
  refine List.forall_mem_append (l₁ := [2, 3, 797, 9349]).2 ⟨by norm_num, ?_⟩
  exact List.forall_mem_nil _

theorem prime_17472360 : Nat.Prime 174723607534414371449 := by
  refine prime_of_order 3 [2, 2, 2, 17, 59, 4051, 120233, 44706919]
    (by norm_num) (by norm_num) (by norm_num) ?_ (by decide +kernel) (by decide +kernel)
  refine List.forall_mem_append (l₁ := [2, 2, 2, 17, 59, 4051]).2 ⟨by norm_num, ?_⟩
  exact List.forall_mem_cons.2 ⟨prime_120233, List.forall_mem_cons.2 ⟨prime_44706919, List.forall_mem_nil _⟩⟩

theorem prime_305873 : Nat.Prime 305873 := by
  refine prime_of_order 3 [2, 2, 2, 2, 7, 2731]
    (by norm_num) (by norm_num) (by norm_num) ?_ (by decide +kernel) (by decide +kernel)
  refine List.forall_mem_append (l₁ := [2, 2, 2, 2, 7, 2731]).2 ⟨by norm_num, ?_⟩
  exact List.forall_mem_nil _

theorem prime_54535871 : Nat.Prime 545358713 := by
  refine prime_of_order 5 [2, 2, 2, 41, 59, 28181]
    (by norm_num) (by norm_num) (by norm_num) ?_ (by decide +kernel) (by decide +kernel)
  refine List.forall_mem_append (l₁ := [2, 2, 2, 41, 59, 28181]).2 ⟨by norm_num, ?_⟩
  exact List.forall_mem_nil _

theorem prime_1627771 : Nat.Prime 1627771 := by
  refine prime_of_order 3 [2, 3, 5, 29, 1871]
    (by norm_num) (by norm_num) (by norm_num) ?_ (by decide +kernel) (by decide +kernel)
  refine List.forall_mem_append (l₁ := [2, 3, 5, 29, 1871]).2 ⟨by norm_num, ?_⟩
  exact List.forall_mem_nil _

theorem prime_29715936 : Nat.Prime 297159362677 := by
  refine prime_of_order 2 [2, 2, 3, 3, 11, 461, 1627771]
    (by norm_num) (by norm_num) (by norm_num) ?_ (by decide +kernel) (by decide +kernel)
  refine List.forall_mem_append (l₁ := [2, 2, 3, 3, 11, 461]).2 ⟨by norm_num, ?_⟩
  exact List.forall_mem_cons.2 ⟨prime_1627771, List.forall_mem_nil _⟩

theorem prime_29047611 : Nat.Prime 29047611873442575647497758179 := by
  refine prime_of_order 2 [2, 293, 305873, 545358713, 297159362677]
    (by norm_num) (by norm_num) (by norm_num) ?_ (by decide +kernel) (by decide +kernel)
  refine List.forall_mem_append (l₁ := [2, 293]).2 ⟨by norm_num, ?_⟩
  exact List.forall_mem_cons.2 ⟨prime_305873, List.forall_mem_cons.2 ⟨prime_54535871, List.forall_mem_cons.2 ⟨prime_29715936, List.forall_mem_nil _⟩⟩⟩

theorem prime_34194848 : Nat.Prime 341948486974166000522343609283189 := by
  refine prime_of_order 2 [2, 2, 3, 3, 3, 109, 29047611873442575647497758179]
    (by norm_num) (by norm_num) (by norm_num) ?_ (by decide +kernel) (by decide +kernel)
  refine List.forall_mem_append (l₁ := [2, 2, 3, 3, 3, 109]).2 ⟨by norm_num, ?_⟩
  exact List.forall_mem_cons.2 ⟨prime_29047611, List.forall_mem_nil _⟩

theorem prime_n : Nat.Prime 115792089237316195423570985008687907852837564279074904382605163141518161494337 := by
  refine prime_of_order 7 [2, 2, 2, 2, 2, 2, 3, 149, 631, 107361793816595537
      , 174723607534414371449, 341948486974166000522343609283189]
    (by norm_num) (by norm_num) (by norm_num) ?_ (by decide +kernel) (by decide +kernel)
  refine List.forall_mem_append (l₁ := [2, 2, 2, 2, 2, 2, 3, 149, 631]).2 ⟨by norm_num, ?_⟩
  exact List.forall_mem_cons.2 ⟨prime_10736179, List.forall_mem_cons.2 ⟨prime_17472360, List.forall_mem_cons.2 ⟨prime_34194848, List.forall_mem_nil _⟩⟩⟩

/-- `CP.p` is prime. -/
theorem prime_cpP : Nat.Prime cpP.toNat := prime_p

/-- `CP.n` is prime. -/
theorem prime_cpN : Nat.Prime cpN.toNat := prime_n

end Sys2Proof.Machine
end

