-- ==== Sys2Proof/Laws/Group.lean ====
section
/-! SUPPORT. Over a prime modulus `PAdd` is the addition of Mathlib's group of points of the curve, and `ScalarMul` its
multiples (46 R211, 47 R224); over it neither fails (46 R209). -/

namespace Sys2Proof.Machine

open Sys2Proof.Config

/-- A word as an element of the field of `m.toNat` elements. -/
def el (m x : Word) : ZMod m.toNat := (x.toNat : ZMod m.toNat)

/-- The curve `y^2 = x^3 + a*x + b` over that field (R185). -/
def curveOf (a b m : Word) : WeierstrassCurve.Affine (ZMod m.toNat) := ⟨0, 0, 0, el m a, el m b⟩

theorem el_reduce {m : Word} (hm : 0 < m.toNat) (u : Int) : el m (reduce u m) = (u : ZMod m.toNat) := by
  have h := reduce_toNat hm u
  have h2 : ((reduce u m).toNat : ZMod m.toNat) = (((reduce u m).toNat : Int) : ZMod m.toNat) := by push_cast; rfl
  rw [el, h2, h, ZMod.intCast_mod]

theorem el_def {m x : Word} : (x.toNat : ZMod m.toNat) = el m x := rfl

theorem el_inj {m x y : Word} (hx : x.toNat < m.toNat) (hy : y.toNat < m.toNat) (h : el m x = el m y) : x = y := by
  rw [el, el, ZMod.natCast_eq_natCast_iff', Nat.mod_eq_of_lt hx, Nat.mod_eq_of_lt hy] at h
  exact BitVec.eq_of_toNat_eq h

variable {a b m : Word}

/-- A point record stands for a point of the group. -/
inductive Rep (a b m : Word) : Pt → (curveOf a b m).Point → Prop
  | inf : Rep a b m (.inf a b m) 0
  | aff {x y : Word} (hx : x.toNat < m.toNat) (hy : y.toNat < m.toNat)
      (h : (curveOf a b m).Nonsingular (el m x) (el m y)) : Rep a b m (.aff x y a b m) (.some _ _ h)

/-- `Rep.aff` with the coordinates given by equations. -/
theorem Rep.affOf {x y : Word} {X Y : ZMod m.toNat} (hx : x.toNat < m.toNat) (hy : y.toNat < m.toNat)
    (hX : el m x = X) (hY : el m y = Y) (h : (curveOf a b m).Nonsingular X Y) :
    Rep a b m (.aff x y a b m) (.some X Y h) := by
  subst hX hY; exact .aff hx hy h

theorem Rep.curve_eq {p : Pt} {P : (curveOf a b m).Point} (h : Rep a b m p P) : p.a = a ∧ p.b = b ∧ p.m = m := by
  cases h <;> exact ⟨rfl, rfl, rfl⟩

/-- A point of the group has one record. -/
theorem Rep.unique {p q : Pt} {P : (curveOf a b m).Point} (h : Rep a b m p P) (h' : Rep a b m q P) : p = q := by
  cases h with
  | inf => cases h'; rfl
  | aff hx hy hn =>
    generalize hP : WeierstrassCurve.Affine.Point.some _ _ hn = P at h'
    cases h' with
    | inf => exact absurd hP (WeierstrassCurve.Affine.Point.some_ne_zero hn)
    | aff hx' hy' hn' =>
      obtain ⟨h1, h2⟩ := WeierstrassCurve.Affine.Point.some.inj hP
      rw [el_inj hx hx' h1, el_inj hy hy' h2]

/-- The third point of a line whose denominator has the inverse `i`. -/
theorem chord_eq {num den x1 y1 x2 : Word} {i : FE} (hi : fInv ⟨den, m⟩ = .ok i) :
    chord num den x1 y1 x2 a b m =
      let lam := reduce ((num.toNat : Int) * i.value.toNat) m
      let x3 := reduce ((lam.toNat : Int) * lam.toNat - x1.toNat - x2.toNat) m
      .ok (.aff x3 (reduce ((lam.toNat : Int) * ((x1.toNat : Int) - x3.toNat) - y1.toNat) m) a b m) := by
  rw [chord, hi]; rfl

variable [hp : Fact m.toNat.Prime]

/-- The inverter inverts every element but 0. -/
theorem fInv_prime {v : Word} (hv : el m v ≠ 0) :
    ∃ i : Word, fInv ⟨v, m⟩ = .ok ⟨i, m⟩ ∧ el m i = (el m v)⁻¹ := by
  obtain ⟨h1, h2⟩ := euclid_spec v.toNat m.toNat
  have hg : Nat.gcd v.toNat m.toNat = 1 := by
    rw [Nat.gcd_comm]
    refine (Nat.Prime.coprime_iff_not_dvd hp.out).2 fun hd => hv ?_
    exact (ZMod.natCast_eq_zero_iff _ _).2 hd
  refine ⟨reduce (euclid v.toNat m.toNat).2 m, fInv_eq_ok.2 ⟨h1.trans hg, rfl⟩, ?_⟩
  rw [el_reduce hp.out.pos]
  have h3 : (((v.toNat : Int) * (euclid v.toNat m.toNat).2 - ((euclid v.toNat m.toNat).1 : Nat) : Int) : ZMod m.toNat)
      = 0 := (ZMod.intCast_zmod_eq_zero_iff_dvd _ _).2 h2
  rw [h1, hg] at h3
  push_cast at h3
  refine eq_inv_of_mul_eq_one_right ?_
  simpa [sub_eq_zero, el] using h3

/-- The line through two points: `chord` is Mathlib's formula with the slope `num / den`. -/
theorem chord_rep {num den x1 y1 x2 : Word} (hd : el m den ≠ 0) :
    ∃ x3 y3 : Word, chord num den x1 y1 x2 a b m = .ok (.aff x3 y3 a b m) ∧
      x3.toNat < m.toNat ∧ y3.toNat < m.toNat ∧
      el m x3 = (curveOf a b m).addX (el m x1) (el m x2) (el m num / el m den) ∧
      el m y3 = (curveOf a b m).addY (el m x1) (el m x2) (el m y1) (el m num / el m den) := by
  obtain ⟨i, hi, hv⟩ := fInv_prime hd
  have hm : 0 < m.toNat := hp.out.pos
  refine ⟨_, _, chord_eq hi, reduce_lt hm _, reduce_lt hm _, ?_, ?_⟩
  · rw [el_reduce hm]
    push_cast
    simp only [el_def, el_reduce hm]
    push_cast
    simp only [el_def, hv, WeierstrassCurve.Affine.addX, curveOf]
    ring
  · rw [el_reduce hm]
    push_cast
    simp only [el_def, el_reduce hm]
    push_cast
    simp only [el_def, el_reduce hm]
    push_cast
    simp only [el_def, hv, WeierstrassCurve.Affine.addY, WeierstrassCurve.Affine.negAddY,
      WeierstrassCurve.Affine.negY, WeierstrassCurve.Affine.addX, curveOf]
    ring

theorem two_ne_zero_of_odd (ho : m.toNat % 2 = 1) : (2 : ZMod m.toNat) ≠ 0 := by
  intro h
  have : ((2 : Nat) : ZMod m.toNat) = 0 := by exact_mod_cast h
  have := Nat.le_of_dvd (by omega) ((ZMod.natCast_eq_zero_iff _ _).1 this)
  have := hp.out.two_le
  omega

/-- `PAdd` is the group's addition, and it does not fail (R206, R209). -/
theorem pAdd_rep (ho : m.toNat % 2 = 1) {p q : Pt} {P Q : (curveOf a b m).Point} (hP : Rep a b m p P)
    (hQ : Rep a b m q Q) : ∃ t, pAdd p q = .ok t ∧ Rep a b m t (P + Q) := by
  have hm : 0 < m.toNat := hp.out.pos
  have hne : ¬ (p.m ≠ q.m ∨ p.a ≠ q.a ∨ p.b ≠ q.b) := by
    obtain ⟨h1, h2, h3⟩ := hP.curve_eq
    obtain ⟨h4, h5, h6⟩ := hQ.curve_eq
    simp [h1, h2, h3, h4, h5, h6]
  cases hP with
  | inf => exact ⟨q, by rw [pAdd, if_neg hne], by rwa [zero_add]⟩
  | @aff x1 y1 hx1 hy1 hn1 =>
    cases hQ with
    | inf => exact ⟨_, by rw [pAdd, if_neg hne], by rw [add_zero]; exact .aff hx1 hy1 hn1⟩
    | @aff x2 y2 hx2 hy2 hn2 =>
      have hneg : ∀ x y, (curveOf a b m).negY x y = -y := by
        intro x y; simp [WeierstrassCurve.Affine.negY, curveOf]
      have hpa : pAdd (.aff x1 y1 a b m) (.aff x2 y2 a b m) = addAffine x1 y1 x2 y2 a b m := by
        rw [pAdd, if_neg hne]
      rw [hpa]
      unfold addAffine
      by_cases hx : x1 = x2
      · subst hx
        rw [if_pos rfl]
        by_cases hy : y1 = y2
        · subst hy
          rw [if_neg (not_not.2 rfl)]
          by_cases h0 : y1 = 0
          · subst h0
            rw [if_pos rfl]
            refine ⟨_, rfl, ?_⟩
            rw [WeierstrassCurve.Affine.Point.add_self_of_Y_eq (by rw [hneg]; simp [el])]
            exact .inf
          · rw [if_neg h0]
            have hy0 : el m y1 ≠ 0 := by
              intro h
              exact h0 (el_inj hy1 (by simpa using hm) (by rw [h]; simp [el]))
            have hden : el m (reduce (2 * (y1.toNat : Int)) m) = 2 * el m y1 := by
              rw [el_reduce hm]; push_cast; rfl
            have hnum : el m (reduce (3 * (x1.toNat : Int) * x1.toNat + a.toNat) m) =
                3 * el m x1 * el m x1 + el m a := by
              rw [el_reduce hm]; push_cast; rfl
            have h2y : (2 : ZMod m.toNat) * el m y1 ≠ 0 := mul_ne_zero (two_ne_zero_of_odd ho) hy0
            have hyne : el m y1 ≠ (curveOf a b m).negY (el m x1) (el m y1) := by
              rw [hneg]; intro h
              apply h2y
              linear_combination h
            obtain ⟨x3, y3, h1, h2, h3, h4, h5⟩ := chord_rep (a := a) (b := b) (y1 := y1) (x1 := x1) (x2 := x1)
              (num := reduce (3 * (x1.toNat : Int) * x1.toNat + a.toNat) m) (hden ▸ h2y)
            refine ⟨_, h1, ?_⟩
            have hs : (curveOf a b m).slope (el m x1) (el m x1) (el m y1) (el m y1) =
                (3 * el m x1 * el m x1 + el m a) / (2 * el m y1) := by
              rw [WeierstrassCurve.Affine.slope_of_Y_ne rfl hyne, hneg]
              simp only [curveOf]
              congr 1 <;> ring
            rw [hnum, hden, ← hs] at h4 h5
            rw [WeierstrassCurve.Affine.Point.add_self_of_Y_ne hyne]
            have hn3 := WeierstrassCurve.Affine.nonsingular_add hn1 hn1 (fun h => hyne h.2)
            exact .affOf h2 h3 h4 h5 hn3
        · rw [if_pos hy]
          refine ⟨_, rfl, ?_⟩
          have hYY : el m y1 = (curveOf a b m).negY (el m x1) (el m y2) := by
            rcases WeierstrassCurve.Affine.Y_eq_of_X_eq hn1.1 hn2.1 rfl with h | h
            · exact absurd (el_inj hy1 hy2 h) hy
            · exact h
          rw [WeierstrassCurve.Affine.Point.add_of_Y_eq rfl hYY]
          exact .inf
      · rw [if_neg hx]
        have hxne : el m x1 ≠ el m x2 := fun h => hx (el_inj hx1 hx2 h)
        have hden : el m (reduce ((x2.toNat : Int) - x1.toNat) m) = el m x2 - el m x1 := by
          rw [el_reduce hm]; push_cast; rfl
        have hnum : el m (reduce ((y2.toNat : Int) - y1.toNat) m) = el m y2 - el m y1 := by
          rw [el_reduce hm]; push_cast; rfl
        have hd0 : el m x2 - el m x1 ≠ 0 := sub_ne_zero.2 (Ne.symm hxne)
        obtain ⟨x3, y3, h1, h2, h3, h4, h5⟩ := chord_rep (a := a) (b := b) (y1 := y1) (x1 := x1) (x2 := x2)
          (num := reduce ((y2.toNat : Int) - y1.toNat) m) (hden ▸ hd0)
        refine ⟨_, h1, ?_⟩
        have hs : (curveOf a b m).slope (el m x1) (el m x2) (el m y1) (el m y2) =
            (el m y2 - el m y1) / (el m x2 - el m x1) := by
          rw [WeierstrassCurve.Affine.slope_of_X_ne hxne, ← neg_sub (el m y2), ← neg_sub (el m x2), neg_div_neg_eq]
        rw [hnum, hden, ← hs] at h4 h5
        rw [WeierstrassCurve.Affine.Point.add_of_X_ne hxne]
        have hn3 := WeierstrassCurve.Affine.nonsingular_add hn1 hn2 (fun h => hxne h.1)
        exact .affOf h2 h3 h4 h5 hn3

/-- The scalar loop adds the multiple of its base (R221). -/
theorem scalarLoop_rep (ho : m.toNat % 2 = 1) : ∀ (n : Nat) (acc base : Pt) (A B : (curveOf a b m).Point) (k : Nat),
    k < 2 ^ n → Rep a b m acc A → Rep a b m base B →
    ∃ t, scalarLoop n acc base k = .ok t ∧ Rep a b m t (A + k • B)
  | 0, acc, _, A, B, k, h, hA, _ => by
    have : k = 0 := by omega
    subst this
    exact ⟨acc, rfl, by simpa using hA⟩
  | n + 1, acc, base, A, B, k, h, hA, hB => by
    unfold scalarLoop
    by_cases hk : k = 0
    · subst hk; exact ⟨acc, rfl, by simpa using hA⟩
    · rw [if_neg hk]
      obtain ⟨base', h2, hB'⟩ := pAdd_rep ho hB hB
      by_cases hodd : k % 2 = 1
      · obtain ⟨acc', h1, hA'⟩ := pAdd_rep ho hA hB
        obtain ⟨t, h3, ht⟩ := scalarLoop_rep ho n acc' base' _ _ (k / 2) (by omega) hA' hB'
        refine ⟨t, ?_, ?_⟩
        · simp only [addOnBit, if_pos hodd, h1, h2, bind, Except.bind, h3]
        · have : A + k • B = A + B + (k / 2) • (B + B) := by
            conv_lhs => rw [show k = 1 + k / 2 * 2 by omega]
            rw [add_nsmul, one_nsmul, mul_nsmul', two_nsmul, add_assoc]
          rwa [this]
      · obtain ⟨t, h3, ht⟩ := scalarLoop_rep ho n acc base' _ _ (k / 2) (by omega) hA hB'
        refine ⟨t, ?_, ?_⟩
        · simp only [addOnBit, if_neg hodd, h2, bind, Except.bind, h3]
        · have : A + k • B = A + (k / 2) • (B + B) := by
            conv_lhs => rw [show k = k / 2 * 2 by omega]
            rw [mul_nsmul', two_nsmul]
          rwa [this]

/-- `ScalarMul` is the multiple in the group (R221, R224). -/
theorem scalarMul_rep (ho : m.toNat % 2 = 1) {p : Pt} {P : (curveOf a b m).Point} (hP : Rep a b m p P) (k : Word) :
    ∃ t, scalarMul p k = .ok t ∧ Rep a b m t (k.toNat • P) := by
  obtain ⟨h1, h2, h3⟩ := hP.curve_eq
  have := scalarLoop_rep ho 256 (.inf p.a p.b p.m) p 0 P k.toNat k.isLt (by rw [h1, h2, h3]; exact .inf) hP
  rwa [zero_add] at this

/-- A point record that satisfies the curve equation stands for a point, if the curve's discriminant is not 0. -/
theorem rep_of_onCurve {x y : Word} (hd : (curveOf a b m).Δ ≠ 0) (hx : x.toNat < m.toNat) (hy : y.toNat < m.toNat)
    (h : onCurve x y a b m = true) : ∃ P, Rep a b m (.aff x y a b m) P := by
  have hm : 0 < m.toNat := hp.out.pos
  have he : (curveOf a b m).Equation (el m x) (el m y) := by
    rw [WeierstrassCurve.Affine.equation_iff]
    have h1 := congrArg (el m) (beq_iff_eq.1 h)
    rw [el_reduce hm, el_reduce hm] at h1
    push_cast at h1
    simp only [el_def] at h1
    simp only [curveOf]
    linear_combination h1
  exact ⟨_, .aff hx hy ((WeierstrassCurve.Affine.equation_iff_nonsingular_of_Δ_ne_zero hd).1 he)⟩

end Sys2Proof.Machine
end

