-- ==== Sys2Proof/Laws/PerInstr.lean ====
section
/-! SUPPORT. Per-instruction family `EncodesRow`: the word of a command matches one row of the opcode map (30_encoding.md
R84), whose opcode is the command's and which builds it. -/

namespace Sys2Proof.Laws.EncodesRow

/-- The word of `i` matches a row of its opcode, and that row builds `i` from its fields. -/
def Statement (i : Instr) : Prop :=
  ∃ r ∈ opRows, r.op = (encodeFields i).op ∧ encode i &&& r.mask = r.pattern ∧
    r.build (encodeFields i) = i

/-- A row whose mask, field by field, keeps the opcode and clears what the command leaves free. -/
theorem of_row {i : Instr} {r : OpRow} (hr : r ∈ opRows) (ho : r.op = (encodeFields i).op)
    (hm : joinWord ⟨(encodeFields i).op &&& (splitWord r.mask).op, (encodeFields i).a &&& (splitWord r.mask).a,
      (encodeFields i).b &&& (splitWord r.mask).b, (encodeFields i).c &&& (splitWord r.mask).c,
      (encodeFields i).d &&& (splitWord r.mask).d, (encodeFields i).e &&& (splitWord r.mask).e,
      (encodeFields i).m &&& (splitWord r.mask).m⟩ = r.pattern)
    (hb : r.build (encodeFields i) = i) : Statement i :=
  ⟨r, hr, ho, by rw [encode, ← joinWord_splitWord r.mask, joinWord_and]; exact hm, hb⟩

theorem nop : Statement .nop :=
  of_row (r := opRows[0]) (by simp [opRows, rowsInterface, rowsField, rowsPoint, rowsCurve]) rfl
    (by simp [encodeFields, opRows, rowsInterface, rowsField, rowsPoint, rowsCurve, splitWord, joinWord]) rfl

theorem kld (kd : KReg) : Statement (.kld kd) :=
  of_row (r := opRows[1]) (by simp [opRows, rowsInterface, rowsField, rowsPoint, rowsCurve]) rfl
    (by simp [encodeFields, opRows, rowsInterface, rowsField, rowsPoint, rowsCurve, splitWord, joinWord]) rfl

theorem kst (ks : KReg) : Statement (.kst ks) :=
  of_row (r := opRows[2]) (by simp [opRows, rowsInterface, rowsField, rowsPoint, rowsCurve]) rfl
    (by simp [encodeFields, opRows, rowsInterface, rowsField, rowsPoint, rowsCurve, splitWord, joinWord]) rfl

theorem kmov (kd ks : KReg) : Statement (.kmov kd ks) :=
  of_row (r := opRows[3]) (by simp [opRows, rowsInterface, rowsField, rowsPoint, rowsCurve]) rfl
    (by simp [encodeFields, opRows, rowsInterface, rowsField, rowsPoint, rowsCurve, splitWord, joinWord]) rfl

theorem statrd : Statement .statrd :=
  of_row (r := opRows[4]) (by simp [opRows, rowsInterface, rowsField, rowsPoint, rowsCurve]) rfl
    (by simp [encodeFields, opRows, rowsInterface, rowsField, rowsPoint, rowsCurve, splitWord, joinWord]) rfl

theorem errclr : Statement .errclr :=
  of_row (r := opRows[5]) (by simp [opRows, rowsInterface, rowsField, rowsPoint, rowsCurve]) rfl
    (by simp [encodeFields, opRows, rowsInterface, rowsField, rowsPoint, rowsCurve, splitWord, joinWord]) rfl

theorem fnew (fd : FReg) (kv km : KReg) : Statement (.fnew fd kv km) :=
  of_row (r := opRows[6]) (by simp [opRows, rowsInterface, rowsField, rowsPoint, rowsCurve]) rfl
    (by simp [encodeFields, opRows, rowsInterface, rowsField, rowsPoint, rowsCurve, splitWord, joinWord]) rfl

theorem fzero (fd : FReg) (km : KReg) : Statement (.fzero fd km) :=
  of_row (r := opRows[7]) (by simp [opRows, rowsInterface, rowsField, rowsPoint, rowsCurve]) rfl
    (by simp [encodeFields, opRows, rowsInterface, rowsField, rowsPoint, rowsCurve, splitWord, joinWord]) rfl

theorem fval (kd : KReg) (fs : FReg) : Statement (.fval kd fs) :=
  of_row (r := opRows[8]) (by simp [opRows, rowsInterface, rowsField, rowsPoint, rowsCurve]) rfl
    (by simp [encodeFields, opRows, rowsInterface, rowsField, rowsPoint, rowsCurve, splitWord, joinWord]) rfl

theorem fmodu (kd : KReg) (fs : FReg) : Statement (.fmodu kd fs) :=
  of_row (r := opRows[9]) (by simp [opRows, rowsInterface, rowsField, rowsPoint, rowsCurve]) rfl
    (by simp [encodeFields, opRows, rowsInterface, rowsField, rowsPoint, rowsCurve, splitWord, joinWord]) rfl

theorem fmov (fd fs : FReg) : Statement (.fmov fd fs) :=
  of_row (r := opRows[10]) (by simp [opRows, rowsInterface, rowsField, rowsPoint, rowsCurve]) rfl
    (by simp [encodeFields, opRows, rowsInterface, rowsField, rowsPoint, rowsCurve, splitWord, joinWord]) rfl

theorem feq (fs1 fs2 : FReg) : Statement (.feq fs1 fs2) :=
  of_row (r := opRows[11]) (by simp [opRows, rowsInterface, rowsField, rowsPoint, rowsCurve]) rfl
    (by simp [encodeFields, opRows, rowsInterface, rowsField, rowsPoint, rowsCurve, splitWord, joinWord]) rfl

theorem fadd (fd fs1 fs2 : FReg) : Statement (.fadd fd fs1 fs2) :=
  of_row (r := opRows[12]) (by simp [opRows, rowsInterface, rowsField, rowsPoint, rowsCurve]) rfl
    (by simp [encodeFields, opRows, rowsInterface, rowsField, rowsPoint, rowsCurve, splitWord, joinWord]) rfl

theorem fsub (fd fs1 fs2 : FReg) : Statement (.fsub fd fs1 fs2) :=
  of_row (r := opRows[13]) (by simp [opRows, rowsInterface, rowsField, rowsPoint, rowsCurve]) rfl
    (by simp [encodeFields, opRows, rowsInterface, rowsField, rowsPoint, rowsCurve, splitWord, joinWord]) rfl

theorem fmul (fd fs1 fs2 : FReg) : Statement (.fmul fd fs1 fs2) :=
  of_row (r := opRows[14]) (by simp [opRows, rowsInterface, rowsField, rowsPoint, rowsCurve]) rfl
    (by simp [encodeFields, opRows, rowsInterface, rowsField, rowsPoint, rowsCurve, splitWord, joinWord]) rfl

theorem fmont (fd fs1 fs2 : FReg) : Statement (.fmont fd fs1 fs2) :=
  of_row (r := opRows[15]) (by simp [opRows, rowsInterface, rowsField, rowsPoint, rowsCurve]) rfl
    (by simp [encodeFields, opRows, rowsInterface, rowsField, rowsPoint, rowsCurve, splitWord, joinWord]) rfl

theorem fpow (fd fs : FReg) (ke : KReg) : Statement (.fpow fd fs ke) :=
  of_row (r := opRows[16]) (by simp [opRows, rowsInterface, rowsField, rowsPoint, rowsCurve]) rfl
    (by simp [encodeFields, opRows, rowsInterface, rowsField, rowsPoint, rowsCurve, splitWord, joinWord]) rfl

theorem finv (fd fs : FReg) : Statement (.finv fd fs) :=
  of_row (r := opRows[17]) (by simp [opRows, rowsInterface, rowsField, rowsPoint, rowsCurve]) rfl
    (by simp [encodeFields, opRows, rowsInterface, rowsField, rowsPoint, rowsCurve, splitWord, joinWord]) rfl

theorem fdiv (fd fs1 fs2 : FReg) : Statement (.fdiv fd fs1 fs2) :=
  of_row (r := opRows[18]) (by simp [opRows, rowsInterface, rowsField, rowsPoint, rowsCurve]) rfl
    (by simp [encodeFields, opRows, rowsInterface, rowsField, rowsPoint, rowsCurve, splitWord, joinWord]) rfl

theorem pnew (pd : PReg) (fx fy fa fb : FReg) (xp yp : Bool) : Statement (.pnew pd fx fy fa fb xp yp) := by
  refine of_row (r := opRows[19]) (by simp [opRows, rowsInterface, rowsField, rowsPoint, rowsCurve]) rfl ?_ ?_ <;> cases xp <;> cases yp <;>
    simp [encodeFields, modeBits, opRows, rowsInterface, rowsField, rowsPoint, rowsCurve, splitWord, joinWord]

theorem pgetx (fd : FReg) (ps : PReg) : Statement (.pgetx fd ps) :=
  of_row (r := opRows[20]) (by simp [opRows, rowsInterface, rowsField, rowsPoint, rowsCurve]) rfl
    (by simp [encodeFields, opRows, rowsInterface, rowsField, rowsPoint, rowsCurve, splitWord, joinWord]) rfl

theorem pgety (fd : FReg) (ps : PReg) : Statement (.pgety fd ps) :=
  of_row (r := opRows[21]) (by simp [opRows, rowsInterface, rowsField, rowsPoint, rowsCurve]) rfl
    (by simp [encodeFields, opRows, rowsInterface, rowsField, rowsPoint, rowsCurve, splitWord, joinWord]) rfl

theorem pgeta (fd : FReg) (ps : PReg) : Statement (.pgeta fd ps) :=
  of_row (r := opRows[22]) (by simp [opRows, rowsInterface, rowsField, rowsPoint, rowsCurve]) rfl
    (by simp [encodeFields, opRows, rowsInterface, rowsField, rowsPoint, rowsCurve, splitWord, joinWord]) rfl

theorem pgetb (fd : FReg) (ps : PReg) : Statement (.pgetb fd ps) :=
  of_row (r := opRows[23]) (by simp [opRows, rowsInterface, rowsField, rowsPoint, rowsCurve]) rfl
    (by simp [encodeFields, opRows, rowsInterface, rowsField, rowsPoint, rowsCurve, splitWord, joinWord]) rfl

theorem pisinf (ps : PReg) : Statement (.pisinf ps) :=
  of_row (r := opRows[24]) (by simp [opRows, rowsInterface, rowsField, rowsPoint, rowsCurve]) rfl
    (by simp [encodeFields, opRows, rowsInterface, rowsField, rowsPoint, rowsCurve, splitWord, joinWord]) rfl

theorem peq (ps1 ps2 : PReg) : Statement (.peq ps1 ps2) :=
  of_row (r := opRows[25]) (by simp [opRows, rowsInterface, rowsField, rowsPoint, rowsCurve]) rfl
    (by simp [encodeFields, opRows, rowsInterface, rowsField, rowsPoint, rowsCurve, splitWord, joinWord]) rfl

theorem pmov (pd ps : PReg) : Statement (.pmov pd ps) :=
  of_row (r := opRows[26]) (by simp [opRows, rowsInterface, rowsField, rowsPoint, rowsCurve]) rfl
    (by simp [encodeFields, opRows, rowsInterface, rowsField, rowsPoint, rowsCurve, splitWord, joinWord]) rfl

theorem padd (pd ps1 ps2 : PReg) : Statement (.padd pd ps1 ps2) :=
  of_row (r := opRows[27]) (by simp [opRows, rowsInterface, rowsField, rowsPoint, rowsCurve]) rfl
    (by simp [encodeFields, opRows, rowsInterface, rowsField, rowsPoint, rowsCurve, splitWord, joinWord]) rfl

theorem pmul (pd ps : PReg) (kk : KReg) : Statement (.pmul pd ps kk) :=
  of_row (r := opRows[28]) (by simp [opRows, rowsInterface, rowsField, rowsPoint, rowsCurve]) rfl
    (by simp [encodeFields, opRows, rowsInterface, rowsField, rowsPoint, rowsCurve, splitWord, joinWord]) rfl

theorem cpp (kd : KReg) : Statement (.cpp kd) :=
  of_row (r := opRows[29]) (by simp [opRows, rowsInterface, rowsField, rowsPoint, rowsCurve]) rfl
    (by simp [encodeFields, opRows, rowsInterface, rowsField, rowsPoint, rowsCurve, splitWord, joinWord]) rfl

theorem cpn (kd : KReg) : Statement (.cpn kd) :=
  of_row (r := opRows[30]) (by simp [opRows, rowsInterface, rowsField, rowsPoint, rowsCurve]) rfl
    (by simp [encodeFields, opRows, rowsInterface, rowsField, rowsPoint, rowsCurve, splitWord, joinWord]) rfl

theorem cpa (fd : FReg) : Statement (.cpa fd) :=
  of_row (r := opRows[31]) (by simp [opRows, rowsInterface, rowsField, rowsPoint, rowsCurve]) rfl
    (by simp [encodeFields, opRows, rowsInterface, rowsField, rowsPoint, rowsCurve, splitWord, joinWord]) rfl

theorem cpb (fd : FReg) : Statement (.cpb fd) :=
  of_row (r := opRows[32]) (by simp [opRows, rowsInterface, rowsField, rowsPoint, rowsCurve]) rfl
    (by simp [encodeFields, opRows, rowsInterface, rowsField, rowsPoint, rowsCurve, splitWord, joinWord]) rfl

theorem cpg (pd : PReg) : Statement (.cpg pd) :=
  of_row (r := opRows[33]) (by simp [opRows, rowsInterface, rowsField, rowsPoint, rowsCurve]) rfl
    (by simp [encodeFields, opRows, rowsInterface, rowsField, rowsPoint, rowsCurve, splitWord, joinWord]) rfl

theorem cppoint (pd : PReg) (kx ky : KReg) : Statement (.cppoint pd kx ky) :=
  of_row (r := opRows[34]) (by simp [opRows, rowsInterface, rowsField, rowsPoint, rowsCurve]) rfl
    (by simp [encodeFields, opRows, rowsInterface, rowsField, rowsPoint, rowsCurve, splitWord, joinWord]) rfl

theorem liftx (pd : PReg) (kx : KReg) : Statement (.liftx pd kx) :=
  of_row (r := opRows[35]) (by simp [opRows, rowsInterface, rowsField, rowsPoint, rowsCurve]) rfl
    (by simp [encodeFields, opRows, rowsInterface, rowsField, rowsPoint, rowsCurve, splitWord, joinWord]) rfl

theorem keypair (pq : PReg) (kd : KReg) : Statement (.keypair pq kd) :=
  of_row (r := opRows[36]) (by simp [opRows, rowsInterface, rowsField, rowsPoint, rowsCurve]) rfl
    (by simp [encodeFields, opRows, rowsInterface, rowsField, rowsPoint, rowsCurve, splitWord, joinWord]) rfl

theorem keygen (pq : PReg) (kd : KReg) : Statement (.keygen pq kd) :=
  of_row (r := opRows[37]) (by simp [opRows, rowsInterface, rowsField, rowsPoint, rowsCurve]) rfl
    (by simp [encodeFields, opRows, rowsInterface, rowsField, rowsPoint, rowsCurve, splitWord, joinWord]) rfl

theorem sign (kr ks kz kd : KReg) : Statement (.sign kr ks kz kd) :=
  of_row (r := opRows[38]) (by simp [opRows, rowsInterface, rowsField, rowsPoint, rowsCurve]) rfl
    (by simp [encodeFields, opRows, rowsInterface, rowsField, rowsPoint, rowsCurve, splitWord, joinWord]) rfl

theorem verify (kz kr ks : KReg) (pq : PReg) : Statement (.verify kz kr ks pq) :=
  of_row (r := opRows[39]) (by simp [opRows, rowsInterface, rowsField, rowsPoint, rowsCurve]) rfl
    (by simp [encodeFields, opRows, rowsInterface, rowsField, rowsPoint, rowsCurve, splitWord, joinWord]) rfl

end Sys2Proof.Laws.EncodesRow
end

