-- ==== Sys2Proof/Laws/RomCurve.lean ====
section
/-! SUPPORT. The ROM's curve and generator (48 R235): the curve is nonsingular, and the generator has the prime order
`CP.n` ("`n * G == Infinity`", 47 R224). -/

namespace Sys2Proof.Machine

open Sys2Proof.Config

theorem cpP_odd : cpP.toNat % 2 = 1 := by decide

theorem rom_disc : (curveOf 0 7 cpP).Δ ≠ 0 := by
  have h : (curveOf 0 7 cpP).Δ = (((-21168 : Int)) : ZMod cpP.toNat) := by
    have h0 : el cpP 0 = 0 := by simp [el]
    have h7 : el cpP 7 = 7 := by
      show ((7 : Nat) : ZMod cpP.toNat) = 7
      norm_num
    simp only [curveOf, WeierstrassCurve.Δ, WeierstrassCurve.b₂, WeierstrassCurve.b₄, WeierstrassCurve.b₆,
      WeierstrassCurve.b₈, h0, h7]
    push_cast
    ring
  rw [h]
  intro hz
  have hd := (ZMod.intCast_zmod_eq_zero_iff_dvd _ _).1 hz
  exact absurd hd (by decide)

theorem onCurve_cpG : onCurve gx gy 0 7 cpP = true := by decide +kernel

/-- "`n * G == Infinity`" (R224), by evaluating the scalar loop. -/
theorem scalarMul_order : scalarMul cpG cpN = .ok (.inf 0 7 cpP) := by decide +kernel

/-- The generator as a point of the group: its multiples below `n` are not 0. -/
theorem rep_cpG [Fact cpP.toNat.Prime] : ∃ G : (curveOf 0 7 cpP).Point, Rep 0 7 cpP cpG G ∧
    cpN.toNat • G = 0 ∧ ∀ k, 0 < k → k < cpN.toNat → k • G ≠ 0 := by
  obtain ⟨G, hG⟩ := rep_of_onCurve rom_disc cpG_ok.below.1 cpG_ok.below.2.1 onCurve_cpG
  have hn : cpN.toNat • G = 0 := by
    obtain ⟨t, h1, h2⟩ := scalarMul_rep cpP_odd hG cpN
    have : t = .inf 0 7 cpP := Except.ok.inj (h1.symm.trans scalarMul_order)
    subst this
    generalize hQ : cpN.toNat • G = Q at h2
    cases h2; rfl
  refine ⟨G, hG, hn, fun k h0 hk hz => ?_⟩
  have ho : addOrderOf G = cpN.toNat := by
    refine addOrderOf_eq_prime (hp := ⟨prime_cpN⟩) hn ?_
    rintro rfl
    generalize hQ : (0 : (curveOf 0 7 cpP).Point) = Q at hG
    cases hG
    exact absurd hQ.symm (WeierstrassCurve.Affine.Point.some_ne_zero _)
  have := Nat.le_of_dvd h0 (addOrderOf_dvd_of_nsmul_eq_zero hz)
  omega

/-- Multiples of the generator depend on the scalar modulo `n`. -/
theorem nsmul_mod [Fact cpP.toNat.Prime] {G : (curveOf 0 7 cpP).Point} (hn : cpN.toNat • G = 0) (k : Nat) :
    (k % cpN.toNat) • G = k • G := by
  conv_rhs => rw [← Nat.mod_add_div k cpN.toNat]
  rw [add_nsmul, mul_nsmul, hn, nsmul_zero, add_zero]

end Sys2Proof.Machine
end

