-- ==== Sys2Proof/Tests/Slice0.lean ====
section
/-! SUPPORT. Tests: what is ill formed, one word of each command written out from 30_encoding.md R84, one or two steps per
command with results from 95_test_vectors.md or the rules' own examples, the two host entry points, and, for every
obligation that has hypotheses, operands that meet them. -/

namespace Sys2Proof.Tests

open Sys2Proof.Machine Sys2Proof.Config

set_option Elab.async false

/-! ### Helpers -/

/-- The next state of an outcome. -/
def after : Outcome → Option State
  | .next t => some t
  | .fault _ => none
  | .refused _ => none

/-- The state after the block ran the word `w` in `s`. -/
def run (s : State) (w : CmdWord) : Option State := after (step (s.present w))

/-- The completion code of the response. -/
def ccOf (s : State) (w : CmdWord) : Option CC := (run s w).bind fun t => t.rsp.map Response.cc

/-- `DOUT` of the response. -/
def doutOf (s : State) (w : CmdWord) : Option Word := (run s w).bind fun t => t.rsp.map Response.dout

/-- STATUS afterwards, as the register reads. -/
def statusOf (s : State) (w : CmdWord) : Option (BitVec 32) := (run s w).map fun t => t.status.word

/-- A register afterwards, with the completion code. -/
def kOf (s : State) (w : CmdWord) (r : KReg) : Option (Option CC × Except Failure Word) :=
  (run s w).map fun t => (t.rsp.map Response.cc, t.readK r)

def fOf (s : State) (w : CmdWord) (r : FReg) : Option (Option CC × Except Failure FE) :=
  (run s w).map fun t => (t.rsp.map Response.cc, t.readF r)

def pOf (s : State) (w : CmdWord) (r : PReg) : Option (Option CC × Except Failure Pt) :=
  (run s w).map fun t => (t.rsp.map Response.cc, t.readP r)

/-- FLAG and VRES afterwards, with the completion code. -/
def flagOf (s : State) (w : CmdWord) : Option (Option CC × Bool × BitVec 2) :=
  (run s w).map fun t => (t.rsp.map Response.cc, t.status.flag, t.status.vres)

/-- K1 to K3. -/
def ks (x y z : Word) : State := ((State.reset.writeK 1 x).writeK 2 y).writeK 3 z

/-- F1 and F2. -/
def fs (x y : FE) : State := (State.reset.writeF 1 x).writeF 2 y

/-- F1 to F4, the operands of PNEW. -/
def fs4 (x y a b : FE) : State := ((fs x y).writeF 3 a).writeF 4 b

/-- P1 and P2. -/
def ps (p q : Pt) : State := (State.reset.writeP 1 p).writeP 2 q

/-- An element modulo 223. -/
def e223 (v : Word) : FE := ⟨v, 223⟩

/-- A point of `y^2 = x^3 + 7` over 223, the curve of most vectors. -/
def p223 (x y : Word) : Pt := .aff x y 0 7 223

def inf223 : Pt := .inf 0 7 223

/-- A point of `y^2 = x^3 + 6x` over 7. -/
def p7 (x y : Word) : Pt := .aff x y 6 0 7

/-! ### Well-formedness and decoding -/

/-- R260: SIGN with one destination twice is the only ill-formed command. -/
theorem test_wf_sign_refused : (Instr.sign 4 4 1 2).wf = false ∧ decode 0x52441200#32 = .error .signSameDestination := by
  decide

theorem test_wf_sign : (Instr.sign 4 5 1 2).wf = true ∧ decode 0x52451200#32 = .ok (.sign 4 5 1 2) := by decide

/-- R85: an unassigned opcode, an unused field and an unused mode bit. -/
theorem test_decode_refuses : decode 0x06000000#32 = .error .unassignedOpcode ∧
    decode 0xFF000000#32 = .error .unassignedOpcode ∧ decode 0x00000001#32 = .error .nonzeroUnusedField ∧
    decode 0x01110000#32 = .error .nonzeroUnusedField ∧ decode 0x30112347#32 = .error .nonzeroUnusedField ∧
    decode 0x53114510#32 = .error .nonzeroUnusedField := by decide

theorem test_decode_interface : decode 0x00000000#32 = .ok .nop ∧ decode 0x01100000#32 = .ok (.kld 1) ∧
    decode 0x02010000#32 = .ok (.kst 1) ∧ decode 0x03210000#32 = .ok (.kmov 2 1) ∧
    decode 0x04000000#32 = .ok .statrd ∧ decode 0x05000000#32 = .ok .errclr := by decide

theorem test_decode_fieldRegs : decode 0x10112000#32 = .ok (.fnew 1 1 2) ∧ decode 0x11302000#32 = .ok (.fzero 3 2) ∧
    decode 0x12310000#32 = .ok (.fval 3 1) ∧ decode 0x13310000#32 = .ok (.fmodu 3 1) ∧
    decode 0x14210000#32 = .ok (.fmov 2 1) ∧ decode 0x15012000#32 = .ok (.feq 1 2) := by decide

theorem test_decode_fieldArith : decode 0x20312000#32 = .ok (.fadd 3 1 2) ∧ decode 0x21312000#32 = .ok (.fsub 3 1 2) ∧
    decode 0x22312000#32 = .ok (.fmul 3 1 2) ∧ decode 0x23312000#32 = .ok (.fmont 3 1 2) ∧
    decode 0x24213000#32 = .ok (.fpow 2 1 3) ∧ decode 0x25210000#32 = .ok (.finv 2 1) ∧
    decode 0x26312000#32 = .ok (.fdiv 3 1 2) := by decide

theorem test_decode_points : decode 0x30112343#32 = .ok (.pnew 1 1 2 3 4 true true) ∧
    decode 0x30200340#32 = .ok (.pnew 2 0 0 3 4 false false) ∧
    decode 0x30110342#32 = .ok (.pnew 1 1 0 3 4 true false) ∧
    decode 0x31510000#32 = .ok (.pgetx 5 1) ∧ decode 0x32610000#32 = .ok (.pgety 6 1) ∧
    decode 0x33720000#32 = .ok (.pgeta 7 2) ∧ decode 0x34720000#32 = .ok (.pgetb 7 2) ∧
    decode 0x35020000#32 = .ok (.pisinf 2) ∧ decode 0x36023000#32 = .ok (.peq 2 3) ∧
    decode 0x37410000#32 = .ok (.pmov 4 1) ∧ decode 0x38312000#32 = .ok (.padd 3 1 2) ∧
    decode 0x39213000#32 = .ok (.pmul 2 1 3) := by decide

theorem test_decode_curveParams : decode 0x40200000#32 = .ok (.cpp 2) ∧ decode 0x41300000#32 = .ok (.cpn 3) ∧
    decode 0x42300000#32 = .ok (.cpa 3) ∧ decode 0x43400000#32 = .ok (.cpb 4) ∧ decode 0x44500000#32 = .ok (.cpg 5) ∧
    decode 0x45112000#32 = .ok (.cppoint 1 1 2) ∧ decode 0x46210000#32 = .ok (.liftx 2 1) := by decide

theorem test_decode_ecdsa : decode 0x50102000#32 = .ok (.keypair 1 2) ∧ decode 0x51120000#32 = .ok (.keygen 1 2) ∧
    decode 0x52451200#32 = .ok (.sign 4 5 1 2) ∧ decode 0x53014510#32 = .ok (.verify 1 4 5 1) := by decide

/-- The encoder on a word with every field in use. -/
theorem test_encode : encode (.pnew 1 2 3 4 5 true true) = 0x30123453#32 ∧
    encode (.verify 1 4 5 2) = 0x53014520#32 := by decide

/-- The host's entry points: the table's word decodes, and it is what the first step after reset runs. -/
theorem test_host_entry : decodeTableWord 32 0x40200000 = some (.cpp 2) ∧
    kOf State.reset 0x40200000#32 2 = some (some .ok, .ok cpP) ∧
    after (step (State.reset.withFetchWord 32 0x40200000)) = run State.reset 0x40200000#32 := by decide +kernel

/-! ### Interface commands -/

/-- R100's example: STATUS `0x00020009` before, `0x00020000` after. -/
theorem test_nop : statusOf { State.reset with status := ⟨.fail .illegalCommand, false, 0, 0x0200⟩ } 0x00000000#32 =
    some 0x00020000#32 := by decide

/-- R101's example, with the `DIN` the host presents. -/
theorem test_kld : kOf { State.reset with din := 223 } 0x01100000#32 1 = some (some .ok, .ok 223) := by decide

theorem test_kst : doutOf (ks 223 0 0) 0x02010000#32 = some 223 ∧ ccOf State.reset 0x02010000#32 =
    some (.fail .regInvalid) ∧ doutOf State.reset 0x02010000#32 = some 0 := by decide

theorem test_kmov : kOf (ks 223 0 0) 0x03210000#32 2 = some (some .ok, .ok 223) := by decide

/-- R104's example: `CC = 2` and `ERRS[2]`; STATRD changes neither. -/
theorem test_statrd : doutOf { State.reset with status := ⟨.fail .notInvertible, false, 0, 4⟩ } 0x04000000#32 =
    some 0x402 ∧ statusOf { State.reset with status := ⟨.fail .notInvertible, false, 0, 4⟩ } 0x04000000#32 =
    some 0x402#32 := by decide

/-- R105's example. -/
theorem test_errclr : statusOf { State.reset with status := ⟨.fail .notInvertible, false, 0, 4⟩ } 0x05000000#32 =
    some 0#32 := by decide

/-- R86: an illegal word is code 9 and `ERRS[9]`, which is bit 17. -/
theorem test_illegal : statusOf State.reset 0x00000001#32 = some 0x00020009#32 := by decide

/-! ### Field elements -/

/-- N1v, and N7v: `RegInvalid` comes before `BadModulus`. -/
theorem test_fnew : fOf (ks 230 223 0) 0x10112000#32 1 = some (some .ok, .ok (e223 7)) ∧
    ccOf (State.reset.writeK 2 4) 0x10112000#32 = some (.fail .regInvalid) := by decide +kernel

/-- N4v and N5v. -/
theorem test_fnew_bad : ccOf (ks 5 222 0) 0x10112000#32 = some (.fail .badModulus) ∧
    ccOf (ks 5 1 0) 0x10112000#32 = some (.fail .badModulus) := by decide +kernel

theorem test_fzero : fOf (ks 0 223 0) 0x11002000#32 0 = some (some .ok, .ok (e223 0)) := by decide +kernel

theorem test_fval : kOf (fs (e223 7) (e223 9)) 0x12310000#32 3 = some (some .ok, .ok 7) := by decide

theorem test_fmodu : kOf (fs (e223 7) (e223 9)) 0x13310000#32 3 = some (some .ok, .ok 223) := by decide

theorem test_fmov : fOf (fs (e223 7) (e223 9)) 0x14210000#32 2 = some (some .ok, .ok (e223 7)) := by decide

/-- N9v, and N11v: on `FieldMismatch` FLAG keeps its old value. -/
theorem test_feq : flagOf (fs (e223 7) (e223 7)) 0x15012000#32 = some (some .ok, true, 0) ∧
    flagOf ((fs (e223 7) ⟨7, 17⟩).setFlag true) 0x15012000#32 = some (some (.fail .fieldMismatch), true, 0) := by decide

/-- A1 and A5: the 257-bit sum loses nothing. -/
theorem test_fadd : fOf (fs (e223 200) (e223 100)) 0x20312000#32 3 = some (some .ok, .ok (e223 77)) ∧
    fOf (fs ⟨cpP - 1, cpP⟩ ⟨cpP - 1, cpP⟩) 0x20312000#32 3 = some (some .ok, .ok ⟨cpP - 2, cpP⟩) := by decide +kernel

/-- A11: the destination keeps its content. -/
theorem test_fadd_mismatch : fOf (fs (e223 5) ⟨5, 17⟩) 0x20112000#32 1 =
    some (some (.fail .fieldMismatch), .ok (e223 5)) := by decide +kernel

/-- A6 and A10. -/
theorem test_fsub : fOf (fs (e223 5) (e223 9)) 0x21312000#32 3 = some (some .ok, .ok (e223 219)) ∧
    fOf (fs ⟨0, cpP⟩ ⟨1, cpP⟩) 0x21312000#32 3 = some (some .ok, .ok ⟨cpP - 1, cpP⟩) := by decide +kernel

/-- M1, and M10 with its 512-bit product. -/
theorem test_fmul : fOf (fs (e223 192) (e223 105)) 0x22312000#32 3 = some (some .ok, .ok (e223 90)) ∧
    fOf (fs ⟨cpP - 1, cpP⟩ ⟨cpP - 1, cpP⟩) 0x22312000#32 3 = some (some .ok, .ok ⟨1, cpP⟩) := by decide +kernel

/-- M2 and M11. -/
theorem test_fmont : fOf (fs (e223 192) (e223 105)) 0x23312000#32 3 = some (some .ok, .ok (e223 51)) ∧
    fOf (fs ⟨cpP - 1, cpP⟩ ⟨cpP - 1, cpP⟩) 0x23312000#32 3 = some (some .ok, .ok
      ⟨0xC9BD1905155383999C46C2C295F2B761BCB223FEDC24A059D838091D0868192A, cpP⟩) := by decide +kernel

/-- Section 3 of the vectors: the two passes of M1, and the constants of 223. -/
theorem test_montgomery_passes : montMul 192 105 223 = 51 ∧ montR2 223 = 115 ∧ montMul 51 115 223 = 90 ∧
    fMulTwoPass (e223 192) (e223 105) = 90 ∧ fPowMont (e223 3) 5 = 20 := by decide +kernel

/-- W1 and W6, the largest exponent. -/
theorem test_fpow : fOf ((fs (e223 3) (e223 7)).writeK 1 5) 0x24211000#32 2 = some (some .ok, .ok (e223 20)) ∧
    fOf ((fs (e223 3) (e223 7)).writeK 1 (-1)) 0x24321000#32 3 = some (some .ok, .ok (e223 112)) := by decide +kernel

/-- W2: `0^0 = 1`. -/
theorem test_fpow_zero : fOf ((fs (e223 0) (e223 7)).writeK 1 0) 0x24211000#32 2 = some (some .ok, .ok (e223 1)) := by
  decide +kernel

/-- I2, and I11, which a Fermat inverter would get wrong. -/
theorem test_finv : fOf (fs (e223 105) (e223 0)) 0x25210000#32 2 = some (some .ok, .ok (e223 17)) ∧
    fOf (fs ⟨2, 15⟩ (e223 0)) 0x25210000#32 2 = some (some .ok, .ok ⟨8, 15⟩) := by decide +kernel

/-- I7 and I8. -/
theorem test_finv_fails : ccOf (fs (e223 0) (e223 0)) 0x25210000#32 = some (.fail .notInvertible) ∧
    ccOf (fs ⟨3, 9⟩ (e223 0)) 0x25210000#32 = some (.fail .notInvertible) := by decide +kernel

/-- I16, and I19: the field check comes before the inversion. -/
theorem test_fdiv : fOf (fs (e223 17) (e223 56)) 0x26312000#32 3 = some (some .ok, .ok (e223 68)) ∧
    ccOf (fs (e223 5) ⟨0, 17⟩) 0x26312000#32 = some (.fail .fieldMismatch) := by decide +kernel

/-! ### Points -/

/-- R187's examples. -/
theorem test_pnew : pOf (fs4 (e223 192) (e223 105) (e223 0) (e223 7)) 0x30112343#32 1 =
      some (some .ok, .ok (p223 192 105)) ∧
    pOf (fs4 (e223 192) (e223 105) (e223 0) (e223 7)) 0x30200340#32 2 = some (some .ok, .ok inf223) := by decide +kernel

/-- P8, and the shape test, which comes before any register is read. -/
theorem test_pnew_fails : ccOf (fs4 (e223 200) (e223 119) (e223 0) (e223 7)) 0x30112343#32 =
      some (.fail .notOnCurve) ∧ ccOf State.reset 0x30110342#32 = some (.fail .invalidPointShape) := by decide +kernel

theorem test_pgetx : fOf (ps (p223 192 105) inf223) 0x31510000#32 5 = some (some .ok, .ok (e223 192)) ∧
    ccOf (ps (p223 192 105) inf223) 0x31520000#32 = some (.fail .noCoordinate) := by decide

theorem test_pgety : fOf (ps (p223 192 105) inf223) 0x32610000#32 6 = some (some .ok, .ok (e223 105)) ∧
    ccOf (ps (p223 192 105) inf223) 0x32620000#32 = some (.fail .noCoordinate) := by decide

theorem test_pgeta : fOf (ps (p223 192 105) inf223) 0x33720000#32 7 = some (some .ok, .ok (e223 0)) := by decide

theorem test_pgetb : fOf (ps (p223 192 105) inf223) 0x34720000#32 7 = some (some .ok, .ok (e223 7)) := by decide

/-- R192: an invalid register is not Infinity. -/
theorem test_pisinf : flagOf (ps (p223 192 105) inf223) 0x35020000#32 = some (some .ok, true, 0) ∧
    flagOf (ps (p223 192 105) inf223) 0x35030000#32 = some (some (.fail .regInvalid), false, 0) := by decide

/-- R186: two Infinities of different curves are unequal; the comparison is total. -/
theorem test_peq : flagOf (ps inf223 inf223) 0x36012000#32 = some (some .ok, true, 0) ∧
    flagOf (ps inf223 (.inf 6 0 7)) 0x36012000#32 = some (some .ok, false, 0) := by decide

theorem test_pmov : pOf (ps (p223 47 71) inf223) 0x37410000#32 4 = some (some .ok, .ok (p223 47 71)) := by decide

/-- P1 and P6: the generic branch and doubling. -/
theorem test_padd : pOf (ps (p223 192 105) (p223 17 56)) 0x38312000#32 3 = some (some .ok, .ok (p223 170 142)) ∧
    pOf (ps (p223 192 105) (p223 17 56)) 0x38311000#32 3 = some (some .ok, .ok (p223 49 71)) := by decide +kernel

/-- P3, P4, P10 and P7b: inverse points, the identity, doubling at `y = 0`, different curves. -/
theorem test_padd_cases : pOf (ps (p223 47 71) (p223 47 152)) 0x38312000#32 3 = some (some .ok, .ok inf223) ∧
    pOf (ps (p223 47 71) inf223) 0x38312000#32 3 = some (some .ok, .ok (p223 47 71)) ∧
    pOf (ps (p7 1 0) inf223) 0x38311000#32 3 = some (some .ok, .ok (.inf 6 0 7)) ∧
    ccOf (ps (p223 47 71) (.inf 0 7 cpP)) 0x38312000#32 = some (.fail .curveMismatch) := by decide +kernel

/-- R222's example, and P12 with its unused last doubling. -/
theorem test_pmul : pOf ((ps (p223 47 71) (p7 4 2)).writeK 1 5) 0x39311000#32 3 =
      some (some .ok, .ok (p223 126 96)) ∧
    pOf ((ps (p223 47 71) (p7 4 2)).writeK 1 2) 0x39321000#32 3 = some (some .ok, .ok (p7 1 0)) := by decide +kernel

/-- R209's composite modulus: `(2, 0) + (8, 3)` over 15. -/
theorem test_padd_composite : ccOf (ps (.aff 2 0 0 7 15) (.aff 8 3 0 7 15)) 0x38312000#32 =
    some (.fail .notInvertible) := by decide +kernel

/-! ### Curve parameters -/

theorem test_cpp : kOf State.reset 0x40200000#32 2 =
    some (some .ok, .ok 0xFFFFFFFFFFFFFFFFFFFFFFFFFFFFFFFFFFFFFFFFFFFFFFFFFFFFFFFEFFFFFC2F) := by decide

theorem test_cpn : kOf State.reset 0x41300000#32 3 =
    some (some .ok, .ok 0xFFFFFFFFFFFFFFFFFFFFFFFFFFFFFFFEBAAEDCE6AF48A03BBFD25E8CD0364141) := by decide

theorem test_cpa : fOf State.reset 0x42300000#32 3 = some (some .ok, .ok ⟨0, cpP⟩) := by decide

theorem test_cpb : fOf State.reset 0x43400000#32 4 = some (some .ok, .ok ⟨7, cpP⟩) := by decide

theorem test_cpg : pOf State.reset 0x44500000#32 5 = some (some .ok, .ok (.aff
    0x79BE667EF9DCBBAC55A06295CE870B07029BFCDB2DCE28D959F2815B16F81798
    0x483ADA7726A3C4655DA4FBFC0E1108A8FD17B448A68554199C47D08FFB10D4B8 0 7 cpP)) := by decide

/-- R241: the generator's coordinates are accepted; `(1, 1)` is not on the curve (`1 ≠ 8`). -/
theorem test_cppoint : pOf (ks gx gy 0) 0x45112000#32 1 = some (some .ok, .ok cpG) ∧
    ccOf (ks 1 1 0) 0x45112000#32 = some (.fail .notOnCurve) := by decide +kernel

/-- Section 7 of the vectors: `x = 1` has a root, `x = 5` has none. -/
theorem test_liftx : pOf (ks 1 0 0) 0x46210000#32 2 = some (some .ok, .ok (.aff 1
      0x4218F20AE6C646B363DB68605822FB14264CA8D2587FDD6FBC750D587E76A7EE 0 7 cpP)) ∧
    ccOf (ks 5 0 0) 0x46210000#32 = some (.fail .noSquareRoot) := by decide +kernel

/-! ### ECDSA -/

/-- R257: `d = 1` gives the generator; `d = 0` and `d = n` are `InvalidScalar`. -/
theorem test_keypair : pOf (ks 1 0 0) 0x50101000#32 1 = some (some .ok, .ok cpG) ∧
    ccOf (ks 0 0 0) 0x50101000#32 = some (.fail .invalidScalar) ∧
    ccOf (ks cpN 0 0) 0x50101000#32 = some (.fail .invalidScalar) := by decide +kernel

/-- R256, R258: the draws 0 and `n` are discarded, 1 is taken, and the next draw is left. -/
theorem test_keygen : (run { State.reset with draws := [0, cpN, 1, 9] } 0x51120000#32).map
    (fun t => (t.readP 1, t.readK 2, t.draws)) = some (.ok cpG, .ok 1, [9]) := by decide +kernel

/-- R336: with no acceptable draw the block waits with `rng_req` high. -/
theorem test_keygen_waits : (run { State.reset with draws := [0] } 0x51120000#32).map
    (fun t => (t.rngReq, t.rsp, t.cmd, t.draws)) = some (true, none, some 0x51120000#32, []) := by decide +kernel

/-- R260 by hand for the nonce 1: `R = G`, `r = Gx`, `s = z + r*d`, with `z = 3` and `d = 2` (`3 + 2*Gx` is below `n`). -/
theorem test_sign : (run { ks 3 2 0 with draws := [0, 1, 7] } 0x52451200#32).map
    (fun t => (t.readK 4, t.readK 5, t.draws)) = some (.ok gx, .ok (3 + 2 * gx), [7]) := by decide +kernel

/-- R260: `z + r*d = 0` with the nonce 1 resamples; the nonce 2 follows. -/
theorem test_sign_resamples : (run { ks (cpN - gx) 1 0 with draws := [1, 2] } 0x52451200#32).map
    (fun t => (t.rsp.map Response.cc, t.draws)) = some (some .ok, []) := by decide +kernel

/-- R262 with `r = s`, so that `T = (z/s)*G + Q`: valid, and at Infinity. -/
theorem test_verify : flagOf (((ks 0 gx gx).writeP 1 cpG)) 0x53012310#32 = some (some .ok, true, 0) ∧
    flagOf (((ks 1 1 1).writeP 1 (.aff gx (cpP - gy) 0 7 cpP)).setFlag true) 0x53012310#32 =
      some (some .ok, false, 2) := by decide +kernel

/-- R262: a failed equation, a bad shape (before the curve test), and a point of another curve. -/
theorem test_verify_negative : flagOf ((ks 0 1 1).writeP 1 cpG) 0x53012310#32 = some (some .ok, false, 3) ∧
    flagOf ((ks 1 0 1).writeP 1 inf223) 0x53012310#32 = some (some .ok, false, 1) ∧
    flagOf (((ks 1 1 1).writeP 1 (p223 47 71)).setFlag true) 0x53012310#32 =
      some (some (.fail .curveMismatch), true, 0) := by decide +kernel

/-! ### Operands that meet the hypotheses of the obligations, clause by clause -/

/-- An outcome whose next state passes a test. -/
theorem next_of {α : Type} {o : Outcome} (f : State → α) {v : α} (h : (after o).map f = some v) :
    ∃ t, o = .next t ∧ f t = v := by
  cases o with
  | next t => exact ⟨t, rfl, by simpa [after] using h⟩
  | fault r => cases h
  | refused r => cases h

theorem feOk_of {v m : Word} (h : m.toNat % 2 = 1 ∧ 3 ≤ m.toNat ∧ v.toNat < m.toNat) : FeOk ⟨v, m⟩ :=
  ⟨h.1, h.2.1, h.2.2⟩

theorem ptOk_of {x y a b m : Word} (h : m.toNat % 2 = 1 ∧ 3 ≤ m.toNat ∧ x.toNat < m.toNat ∧ y.toNat < m.toNat ∧
    a.toNat < m.toNat ∧ b.toNat < m.toNat) : PtOk (.aff x y a b m) := ⟨h.1, h.2.1, h.2.2⟩

/-- Files of which only one F register is valid. -/
theorem filesOk_of {s : State} {r : FReg} {e : FE} (hf : s.f = State.reset.f.set r.toNat (some e) r.isLt)
    (hp : s.p = State.reset.p) (he : FeOk e) : FilesOk s where
  f i e' h := by
    have h1 : (State.reset.writeF r e).readF i = .ok e' := h ▸ (readF_congr hf.symm i)
    rw [readF_writeF] at h1
    split at h1
    · cases h1; exact he
    · simp [State.readF, State.reset, validOr] at h1
  p i q h := by
    have h1 : State.reset.readP i = .ok q := h ▸ (readP_congr hp.symm i)
    simp [State.readP, State.reset, validOr] at h1

/-- A block that waits: KEYGEN in hand, no draw, and one valid register. -/
def waiting : State := { State.reset.writeF 1 (e223 7) with cmd := some 0x51120000#32, rngReq := true }

theorem wit_DecodeEncodeRoundTrip : (Instr.sign 0 15 15 15).wf = true := rfl

theorem wit_EncodeDecodeRoundTrip : decode 0x530FFFF0#32 = .ok (.verify 15 15 15 15) := by decide

theorem wit_DecodingFollowsTheOpcodeMap :
    (∀ r ∈ opRows, r.op ≠ (splitWord 0x06000000#32).op) ∧
    (∃ r ∈ opRows, r.op = (splitWord 0x01110000#32).op ∧ 0x01110000#32 &&& r.mask ≠ r.pattern) ∧
    (∃ r ∈ opRows, 0x52FF1200#32 &&& r.mask = r.pattern ∧ r.op = 0x52 ∧
      (splitWord 0x52FF1200#32).a = (splitWord 0x52FF1200#32).b) ∧
    (∃ r ∈ opRows, 0x52F01200#32 &&& r.mask = r.pattern ∧
      ¬ (r.op = 0x52 ∧ (splitWord 0x52F01200#32).a = (splitWord 0x52F01200#32).b)) ∧
    (∃ e, decode 0x06000000#32 = .error e) := by
  refine ⟨?_, ⟨⟨0x01000000#32, 0xFF0FFFFF#32, fun f => .kld f.a⟩, by simp [opRows, rowsInterface], ?_, ?_⟩,
    ⟨⟨0x52000000#32, 0xFF0000FF#32, fun f => .sign f.a f.b f.c f.d⟩, by simp [opRows, rowsCurve], ?_, ?_, ?_⟩,
    ⟨⟨0x52000000#32, 0xFF0000FF#32, fun f => .sign f.a f.b f.c f.d⟩, by simp [opRows, rowsCurve], ?_, ?_⟩,
    ⟨.unassignedOpcode, ?_⟩⟩
  · have h : (opRows.all fun r => r.op != (splitWord 0x06000000#32).op) = true := by decide
    intro r hr
    simpa using List.all_eq_true.1 h r hr
  all_goals decide

theorem wit_StepRunsTheDecodedCommand :
    (let s : State := { State.reset with host := [.command 0x01F00000#32 5] }
     s.cmd = none ∧ s.host = .command 0x01F00000#32 5 :: [] ∧ decode 0x01F00000#32 = .ok (.kld 15)) ∧
    (let s : State := { waiting with draws := [1] }
     s.cmd = some 0x51120000#32 ∧ s.draws ≠ [] ∧ s.host = [] ∧ decode 0x51120000#32 = .ok (.keygen 1 2)) ∧
    (let s : State := { waiting with draws := [1], host := [.command 0 0, .reset] }
     s.cmd = some 0x51120000#32 ∧ s.draws ≠ [] ∧ s.host = .command 0 0 :: [.reset]) := by decide

theorem wit_IllegalWordIsOnlyRecorded :
    (let s : State := { State.reset with host := [.command 0x00000001#32 5, .reset] }
     s.cmd = none ∧ s.host = .command 0x00000001#32 5 :: [.reset]) ∧
    decode 0x00000001#32 = .error .nonzeroUnusedField := by decide

theorem wit_HostMovesAreTakenOneByOne : State.reset.cmd = none ∧ State.reset.host = [] ∧
    (∃ t, step { State.reset with host := [.command 0x01100000#32 5, .reset] } = .next t ∧ t.host = [.reset]) :=
  ⟨rfl, rfl, next_of (fun t => t.host) (by decide)⟩

theorem wit_ResetAbandonsAndResets :
    (let s : State := { waiting with draws := [1], host := [.reset] }
     s.cmd ≠ none ∧ s.host = .reset :: []) ∧
    (let s : State := { State.reset with host := [.abandon 0x51120000#32 0 1], draws := [0, 1] }
     s.cmd = none ∧ s.host = .abandon 0x51120000#32 0 1 :: [] ∧ decode 0x51120000#32 = .ok (.keygen 1 2)) ∧
    (let s : State := { waiting with draws := [0, 1], host := [.abandon 0x00000000#32 0 7] }
     s.cmd = some 0x51120000#32 ∧ s.host = .abandon 0x00000000#32 0 7 :: []) ∧
    (Instr.nop).takesDraws = false ∧ decode 0x00000000#32 = .ok .nop ∧
    decode 0x06000000#32 = .error .unassignedOpcode := by decide

/-- R323: reset is a move in every state, a wait with draws at hand included; the draws taken before it are gone. -/
theorem test_reset_in_a_wait :
    after (step { waiting with draws := [1], host := [.reset, .reset] }) =
      some { State.reset with draws := [1], host := [.reset] } ∧
    after (step { waiting with draws := [0, 1, 9], host := [.abandon 0x00000000#32 0 7] }) =
      some { State.reset with draws := [9] } := by
  decide +kernel

theorem wit_NoAcceptableDrawMeansWaiting :
    (∀ c ∈ [0, cpN], ¬ Accepted c) ∧ Accepted (cpN - 1) ∧
    (let s : State := { ks 5 (cpN - 1) 0 with draws := [0, cpN] }
     s.readK 1 = .ok 5 ∧ s.readK 2 = .ok (cpN - 1) ∧ s.draws = [0, cpN]) ∧
    waiting.cmd = some 0x51120000#32 ∧ waiting.draws = [] ∧ waiting.host = [] := by
  refine ⟨?_, ?_, by decide, rfl, rfl, rfl⟩
  · intro c hc
    rcases List.mem_cons.1 hc with rfl | hc
    · unfold Accepted; decide
    · rcases List.mem_cons.1 hc with rfl | hc
      · unfold Accepted; decide
      · cases hc
  · unfold Accepted; decide

theorem inv_waiting : Inv waiting :=
  ⟨filesOk_of (r := 1) (e := e223 7) rfl rfl (feOk_of (by decide)), by unfold ErrsOk; decide, ⟨rfl, fun _ => rfl⟩⟩

theorem wit_StepKeepsInvariant : Inv { waiting with draws := [1] } ∧
    (∃ t, step { waiting with draws := [1] } = .next t ∧ t.readK 2 = .ok 1) :=
  ⟨⟨⟨inv_waiting.files.f, inv_waiting.files.p⟩, inv_waiting.errs, ⟨rfl, fun _ => rfl⟩⟩,
    next_of (fun t => t.readK 2) (by decide +kernel)⟩

theorem wit_OnlyKeygenAndSignWait : WaitsOk waiting ∧ ∃ t, step waiting = .next t ∧ t.cmd = some 0x51120000#32 := by
  refine ⟨fun w h => ?_, next_of (fun t => t.cmd) (by decide)⟩
  cases h
  exact ⟨.keygen 1 2, by decide, rfl⟩

theorem wit_StatusUpdateAfterEveryCommand : (∃ t, exec .statrd State.reset = .next t ∧ t.rngReq = false) ∧
    (∃ t, exec .nop State.reset = .next t ∧ t.rngReq = false) ∧
    (∃ t, exec (.kst 15) State.reset = .next t ∧ (t.rngReq, t.status.cc) = (false, .fail .regInvalid)) ∧
    (Instr.nop).writesFlag = false ∧ (Instr.nop).writesVres = false :=
  ⟨next_of (fun t => t.rngReq) (by decide), next_of (fun t => t.rngReq) (by decide),
    next_of (fun t => (t.rngReq, t.status.cc)) (by decide), rfl, rfl⟩

theorem wit_FlagAndVresWritersAndReaders :
    (∃ t, exec (.verify 1 2 3 1) ((ks 0 1 1).writeP 1 cpG) = .next t ∧
      (t.status.vres, t.status.cc, t.rngReq) = (3, .ok, false)) ∧
    (∃ t, exec (.pisinf 2) (ps inf223 inf223) = .next t ∧ (t.status.flag, t.status.cc) = (true, .ok)) :=
  ⟨next_of (fun t => (t.status.vres, t.status.cc, t.rngReq)) (by decide +kernel),
    next_of (fun t => (t.status.flag, t.status.cc)) (by decide)⟩

theorem wit_ErrsNeverConsulted : ∃ t, exec (.finv 2 1) (fs (e223 0) (e223 0)) = .next t ∧
    (t.rngReq, t.rsp.map Response.cc) = (false, some (.fail .notInvertible)) :=
  next_of (fun t => (t.rngReq, t.rsp.map Response.cc)) (by decide +kernel)

theorem wit_ResponseDinAndDout : (∃ t, exec (.kst 1) (ks 5 0 0) = .next t ∧
      (t.rngReq, t.rsp.map Response.dout) = (false, some 5)) ∧ (∀ kd, Instr.kst 1 ≠ .kld kd) :=
  ⟨next_of (fun t => (t.rngReq, t.rsp.map Response.dout)) (by decide), nofun⟩

theorem wit_CodesOfEachCommand : (Instr.padd 3 1 2).wf = true ∧
    ∃ t, exec (.padd 3 1 2) (ps (.aff 2 0 0 7 15) (.aff 8 3 0 7 15)) = .next t ∧
      (t.rngReq, t.rsp.map Response.cc) = (false, some (.fail .notInvertible)) :=
  ⟨rfl, next_of (fun t => (t.rngReq, t.rsp.map Response.cc)) (by decide +kernel)⟩

theorem wit_ValidBits : (Instr.pmul 0 15 15).wf = true ∧
    (∃ r ∈ (Instr.pmul 0 15 15).srcK, State.reset.readK r = .error .regInvalid) ∧
    (∃ r ∈ (Instr.fadd 0 15 15).srcF, State.reset.readF r = .error .regInvalid) ∧
    (∃ r ∈ (Instr.pmul 0 15 15).srcP, State.reset.readP r = .error .regInvalid) ∧
    (∃ t, exec (.cpp 15) (ks 5 0 0) = .next t ∧ (t.rngReq, t.rsp.map Response.cc) = (false, some .ok)) ∧
    (ks 5 0 0).readK 1 = .ok 5 ∧ (fs (e223 7) (e223 7)).readF 1 = .ok (e223 7) ∧
    (ps cpG cpG).readP 1 = .ok cpG :=
  ⟨rfl, by decide, by decide, by decide, next_of (fun t => (t.rngReq, t.rsp.map Response.cc)) (by decide),
    by decide, by decide, by decide⟩

theorem wit_Frames :
    (family (.kmov 2 1) = .interface ∧ ∃ t, exec (.kmov 2 1) (ks 5 0 0) = .next t ∧ t.status.cc = .ok) ∧
    (family (.fmov 2 1) = .fieldRegs ∧ ∃ t, exec (.fmov 2 1) (fs (e223 7) (e223 9)) = .next t ∧ t.status.cc = .ok) ∧
    (family (.fadd 3 1 2) = .fieldArith ∧
      ∃ t, exec (.fadd 3 1 2) (fs (e223 7) (e223 9)) = .next t ∧ t.status.cc = .ok) ∧
    (family (.padd 3 1 2) = .points ∧
      ∃ t, exec (.padd 3 1 2) (ps inf223 inf223) = .next t ∧ t.status.cc = .ok) ∧
    (family (.liftx 1 1) = .curveParams ∧ ∃ t, exec (.liftx 1 1) (ks 1 0 0) = .next t ∧ t.status.cc = .ok) ∧
    (family (.keygen 1 1) = .ecdsa ∧
      ∃ t, exec (.keygen 1 1) { State.reset with draws := [1] } = .next t ∧ t.status.cc = .ok) :=
  ⟨⟨rfl, next_of (fun t => t.status.cc) (by decide)⟩, ⟨rfl, next_of (fun t => t.status.cc) (by decide)⟩,
    ⟨rfl, next_of (fun t => t.status.cc) (by decide +kernel)⟩, ⟨rfl, next_of (fun t => t.status.cc) (by decide)⟩,
    ⟨rfl, next_of (fun t => t.status.cc) (by decide +kernel)⟩,
    ⟨rfl, next_of (fun t => t.status.cc) (by decide +kernel)⟩⟩

/-- A word of a row, and a word of its opcode that is none: the premises of every `RowIs`, on KST's. -/
theorem wit_RowIs : 0x020F0000#32 &&& 0xFFF0FFFF#32 = 0x02000000#32 ∧
    (splitWord 0x021F0001#32).op = (0x02000000#32).extractLsb' 24 8 ∧
    0x021F0001#32 &&& 0xFFF0FFFF#32 ≠ 0x02000000#32 := by decide

theorem wit_KldKstKmov : (ks 5 0 0).readK 1 = .ok 5 ∧ (ks 5 0 0).readK 15 = .error .regInvalid := by decide

theorem wit_FnewFzeroConstruct : (ks (-1) 3 2).readK 1 = .ok (-1) ∧ (ks (-1) 3 2).readK 2 = .ok 3 ∧
    (3 : Word).toNat % 2 = 1 ∧ 3 ≤ (3 : Word).toNat ∧ (ks (-1) 3 2).readK 3 = .ok 2 ∧
    ((2 : Word).toNat % 2 = 0 ∨ (2 : Word).toNat < 3) ∧ (ks 5 1 4).readK 2 = .ok 1 ∧
    ((1 : Word).toNat % 2 = 0 ∨ (1 : Word).toNat < 3) ∧ (ks 5 1 4).readK 0 = .error .regInvalid := by decide

theorem wit_FvalFmoduFmovCopy : (fs (e223 7) (e223 9)).readF 1 = .ok (e223 7) ∧
    (fs (e223 7) (e223 9)).readF 0 = .error .regInvalid := by decide

theorem wit_FeqComparesInOneField : (fs (e223 7) ⟨7, 17⟩).readF 1 = .ok (e223 7) ∧
    (fs (e223 7) ⟨7, 17⟩).readF 2 = .ok ⟨7, 17⟩ ∧ (e223 7).modulus ≠ (17 : Word) ∧
    (fs (e223 7) ⟨7, 17⟩).readF 0 = .error .regInvalid := by decide

/-- FADD, FSUB, FMUL and FMONT: the largest values of the largest modulus, two fields, an invalid source. -/
theorem wit_FieldBinary : (fs ⟨-2, -1⟩ ⟨-2, -1⟩).readF 1 = .ok ⟨-2, -1⟩ ∧
    (fs ⟨-2, -1⟩ ⟨-2, -1⟩).readF 2 = .ok ⟨-2, -1⟩ ∧ FeOk ⟨-2, -1⟩ ∧
    (fs (e223 7) ⟨7, 17⟩).readF 2 = .ok ⟨7, 17⟩ ∧ (e223 7).modulus ≠ (17 : Word) ∧
    State.reset.readF 15 = .error .regInvalid :=
  ⟨by decide, by decide, feOk_of (by decide), by decide, by decide, by decide⟩

theorem wit_MontgomeryConstants : (3 : Word).toNat % 2 = 1 ∧ 3 ≤ (3 : Word).toNat := by decide

theorem wit_RedcDividesByTheRadix : (-1 : Word).toNat % 2 = 1 ∧ 3 ≤ (-1 : Word).toNat ∧
    (-1 : Word).toNat * montR - 1 < (-1 : Word).toNat * montR := by decide

theorem wit_MontgomeryFormsReachTheContracts : FeOk ⟨2, 3⟩ ∧ FeOk ⟨0, 3⟩ := ⟨feOk_of (by decide), feOk_of (by decide)⟩

theorem wit_FpowRaisesToThePower : ((fs (e223 0) (e223 9)).writeK 1 0).readF 1 = .ok (e223 0) ∧
    ((fs (e223 0) (e223 9)).writeK 1 0).readK 1 = .ok 0 ∧ FeOk (e223 0) ∧
    State.reset.readK 15 = .error .regInvalid := ⟨by decide, by decide, feOk_of (by decide), by decide⟩

/-- FINV and FDIV: a unit, 0, and a proper common factor. -/
theorem wit_FinvAndFdiv : (fs (e223 222) (e223 0)).readF 1 = .ok (e223 222) ∧ FeOk (e223 222) ∧
    Nat.gcd (222 : Word).toNat (223 : Word).toNat = 1 ∧ (fs (e223 222) (e223 0)).readF 2 = .ok (e223 0) ∧
    FeOk (e223 0) ∧ Nat.gcd (0 : Word).toNat (223 : Word).toNat ≠ 1 ∧
    FeOk ⟨3, 9⟩ ∧ Nat.gcd (3 : Word).toNat (9 : Word).toNat ≠ 1 ∧ State.reset.readF 0 = .error .regInvalid :=
  ⟨by decide, feOk_of (by decide), by decide, by decide, feOk_of (by decide), by decide, feOk_of (by decide),
    by decide, by decide⟩

theorem wit_PnewConstructsAndValidates :
    (let s := fs4 (e223 192) (e223 105) (e223 0) (e223 7)
     s.readF 1 = .ok (e223 192) ∧ s.readF 2 = .ok (e223 105) ∧ s.readF 3 = .ok (e223 0) ∧
     s.readF 4 = .ok (e223 7) ∧ s.readF 5 = .error .regInvalid ∧ 105 * 105 % 223 = (192 * 192 * 192 + 0 * 192 + 7) % 223) ∧
    119 * 119 % 223 ≠ (200 * 200 * 200 + 0 * 200 + 7) % 223 ∧ (true ≠ false) ∧ FeOk (e223 0) ∧
    (e223 0).modulus ≠ (17 : Word) :=
  ⟨by decide, by decide, by decide, feOk_of (by decide), by decide⟩

/-- The point commands: an affine point, Infinity, an invalid register. -/
theorem wit_PointOperands : (ps (p223 192 105) inf223).readP 1 = .ok (.aff 192 105 0 7 223) ∧
    (ps (p223 192 105) inf223).readP 2 = .ok (.inf 0 7 223) ∧
    (ps (p223 192 105) inf223).readP 0 = .error .regInvalid := by decide

theorem wit_PaddCases : (p223 47 71).curve ≠ (p7 4 2).curve ∧ (p223 47 71).curve = inf223.curve ∧
    inf223.isInf = true ∧ (p223 47 71).isInf = false ∧ pAdd (p223 192 105) (p223 17 56) = .ok (p223 170 142) ∧
    pAdd (.aff 2 0 0 7 15) (.aff 8 3 0 7 15) = .error .notInvertible ∧
    (ps (p223 47 71) (p223 47 152)).readP 1 = .ok (.aff 47 71 0 7 223) ∧
    (ps (p223 47 71) (p223 47 152)).readP 2 = .ok (.aff 47 152 0 7 223) ∧ (71 : Word) ≠ 152 ∧
    (ps (p7 1 0) (p7 1 0)).readP 1 = .ok (.aff 1 0 6 0 7) := by decide +kernel

theorem wit_PointAdderChordAndTangent :
    (PtOk (p223 192 105) ∧ PtOk (p223 17 56) ∧ (192 : Word) ≠ 17 ∧
      Int.gcd (((17 : Word).toNat : Int) - (192 : Word).toNat) (223 : Word).toNat = 1) ∧
    (PtOk (.aff 2 0 0 7 15) ∧ PtOk (.aff 8 3 0 7 15) ∧ (2 : Word) ≠ 8 ∧
      Int.gcd (((8 : Word).toNat : Int) - (2 : Word).toNat) (15 : Word).toNat ≠ 1) ∧
    ((105 : Word) ≠ 0 ∧ Nat.gcd (2 * (105 : Word).toNat) (223 : Word).toNat = 1) ∧
    ((3 : Word) ≠ 0 ∧ Nat.gcd (2 * (3 : Word).toNat) (15 : Word).toNat ≠ 1) :=
  ⟨⟨ptOk_of (by decide), ptOk_of (by decide), by decide, by decide⟩,
    ⟨ptOk_of (by decide), ptOk_of (by decide), by decide, by decide⟩, by decide, by decide⟩

theorem wit_PmulMultiplies :
    (let s := (ps (p223 47 71) (.aff 8 3 0 7 15)).writeK 1 1
     s.readP 1 = .ok (p223 47 71) ∧ s.readK 1 = .ok 1 ∧ scalarMul (p223 47 71) 1 = .ok (p223 47 71) ∧
     s.readP 2 = .ok (.aff 8 3 0 7 15) ∧ scalarMul (.aff 8 3 0 7 15) 1 = .error .notInvertible ∧
     s.readK 0 = .error .regInvalid) ∧
    ((0 : Word) = 0 ∨ (p223 47 71).isInf = true) ∧ ((1 : Word) = 0 ∨ inf223.isInf = true) := by decide +kernel

theorem wit_ScalarMultiplesAdd : EllipticOk (p223 47 71) ∧ (21 : Word).toNat = (20 : Word).toNat + (1 : Word).toNat :=
  ⟨⟨ptOk_of (by decide), by show Nat.Prime 223; norm_num, by decide,
    by show (71 : Word).toNat * _ % _ = _; decide⟩, by decide⟩

theorem wit_ScalarLoopTakesBitsInOrder : 5 < 2 ^ 3 ∧ 3 ≤ 256 ∧ 0 < 1 := by decide

theorem wit_CppointValidates : (ks gx gy 0).readK 1 = .ok gx ∧ (ks gx gy 0).readK 2 = .ok gy ∧
    gx.toNat = gx.toNat % cpP.toNat ∧ gy.toNat = gy.toNat % cpP.toNat ∧
    gy.toNat * gy.toNat % cpP.toNat = (gx.toNat * gx.toNat * gx.toNat + 7) % cpP.toNat ∧
    (0 : Word).toNat = cpP.toNat % cpP.toNat ∧
    (0 : Word).toNat * (0 : Word).toNat % cpP.toNat ≠
      ((0 : Word).toNat * (0 : Word).toNat * (0 : Word).toNat + 7) % cpP.toNat := by decide +kernel

theorem wit_LiftxLifts : (ks 1 5 0).readK 1 = .ok 1 ∧ (1 : Word).toNat = (1 : Word).toNat % cpP.toNat ∧
    8 = (1 * 1 * 1 + 7) % cpP.toNat ∧ 8 ^ ((cpP.toNat - 1) / 2) % cpP.toNat = 1 ∧
    (ks 1 5 0).readK 2 = .ok 5 ∧ 132 = (5 * 5 * 5 + 7) % cpP.toNat ∧
    132 ^ ((cpP.toNat - 1) / 2) % cpP.toNat ≠ 1 := by
  have hp : 0 < cpP.toNat := by decide
  have he : (cpP.toNat - 1) / 2 < 2 ^ 256 := by decide
  rw [← powMod_eq (x := 8) hp he, ← powMod_eq (x := 132) hp he]
  decide +kernel

theorem wit_KeypairDerivesThePublicPoint : (ks 1 0 cpN).readK 1 = .ok 1 ∧ scalarMul cpG 1 = .ok cpG ∧
    1 ≤ (1 : Word).toNat ∧ (1 : Word).toNat ≤ cpN.toNat - 1 ∧ (ks 1 0 cpN).readK 2 = .ok 0 ∧
    (ks 1 0 cpN).readK 3 = .ok cpN ∧ cpN.toNat ≤ cpN.toNat ∧ (ks 1 0 cpN).readK 0 = .error .regInvalid := by
  decide +kernel

theorem accepted_one : Accepted 1 := by unfold Accepted; decide

theorem wit_KeygenTakesTheFirstAcceptableDraw :
    ({ State.reset with draws := [0, 1, 9] } : State).draws = [0] ++ 1 :: [9] ∧ (∀ c ∈ [(0 : Word)], ¬ Accepted c) ∧
    Accepted 1 ∧ scalarMul cpG 1 = .ok cpG := by
  refine ⟨by decide, fun c hc => ?_, accepted_one, by decide +kernel⟩
  rw [List.mem_singleton.1 hc]; unfold Accepted; decide

theorem wit_SignSigns : 0x520F1200#32 &&& 0xFF0000FF#32 = 0x52000000#32 ∧ (4 : KReg) ≠ 5 ∧ Accepted 1 ∧ Accepted 2 ∧
    ¬ Accepted 0 ∧ (ks 3 2 0).readK 1 = .ok 3 ∧ (ks 3 2 0).readK 2 = .ok 2 ∧ (ks 3 2 0).readK 3 = .ok 0 ∧
    (ks 3 2 0).readK 0 = .error .regInvalid ∧ ({ ks 3 2 0 with draws := [1, 7] } : State).draws = 1 :: [7] ∧
    scalarMul cpG 1 = .ok (.aff gx gy 0 7 cpP) ∧ (1 : Word).toNat < cpN.toNat ∧
    (1 : Word).toNat * (1 : Word).toNat % cpN.toNat = 1 ∧ gx.toNat = gx.toNat % cpN.toNat ∧
    (3 + 2 * gx).toNat = ((3 : Word).toNat % cpN.toNat + gx.toNat * (2 : Word).toNat % cpN.toNat) % cpN.toNat ∧
    (3 + 2 * gx).toNat = (1 : Word).toNat * (3 + 2 * gx).toNat % cpN.toNat ∧ gx ≠ 0 ∧ 3 + 2 * gx ≠ 0 ∧
    (0 : Word).toNat = ((cpN - gx).toNat % cpN.toNat + gx.toNat * (1 : Word).toNat % cpN.toNat) % cpN.toNat := by
  refine ⟨by decide, by decide, accepted_one, by unfold Accepted; decide, by unfold Accepted; decide, ?_⟩
  decide +kernel

theorem wit_VerifyVerifies :
    (let s := (ks 0 gx 1).writeP 1 cpG
     s.readK 1 = .ok 0 ∧ s.readK 2 = .ok gx ∧ s.readK 3 = .ok 1 ∧ s.readP 1 = .ok cpG ∧
     s.readK 0 = .error .regInvalid) ∧
    ¬ Accepted 0 ∧ Accepted 1 ∧ Accepted gx ∧ inf223.curve ≠ (0, 7, cpP) ∧ cpG.curve = (0, 7, cpP) ∧
    (1 : Word).toNat * (1 : Word).toNat % cpN.toNat = 1 ∧
    gx.toNat * (0x1DD887B3EAF153260A95E8B9FD31F60AC115D26CCBE1F572C0B8D7A6DEC520FE : Word).toNat % cpN.toNat = 1 ∧
    scalarMul cpG 0 = .ok (.inf 0 7 cpP) ∧ scalarMul cpG 1 = .ok cpG ∧
    scalarMul (.aff gx (cpP - gy) 0 7 cpP) 1 = .ok (.aff gx (cpP - gy) 0 7 cpP) ∧
    pAdd cpG (.aff gx (cpP - gy) 0 7 cpP) = .ok (.inf 0 7 cpP) ∧ pAdd (.inf 0 7 cpP) cpG = .ok (.aff gx gy 0 7 cpP) ∧
    gx.toNat = gx.toNat % cpN.toNat ∧ (1 : Word).toNat ≠ gx.toNat % cpN.toNat := by
  refine ⟨by decide, by unfold Accepted; decide, accepted_one, by unfold Accepted; decide, ?_⟩
  decide +kernel

theorem wit_PrimeModuliLeaveNoFailure : FilesOk (fs (e223 7) (e223 7)) ∧ (Instr.keypair 1 1).onRomCurve = true ∧
    (∃ t, exec (.keypair 1 1) ((fs (e223 7) (e223 7)).writeK 1 1) = .next t ∧
      (t.rngReq, t.rsp.map Response.cc) = (false, some .ok)) ∧
    (∃ t, exec (.liftx 1 1) (ks 5 0 0) = .next t ∧ t.rsp.map Response.cc = some (.fail .noSquareRoot)) ∧
    Accepted (cpN - 1) ∧ PtOk cpG ∧ cpG.curve = (0, 7, cpP) ∧ cpP.toNat.Prime ∧
    (1 : Word) ∈ ({ State.reset with draws := [0, 1] } : State).draws ∧ (ps cpG cpG).readP 1 = .ok cpG ∧
    (ps cpG cpG).readP 2 = .ok cpG := by
  refine ⟨⟨fun i e h => ?_, fun i q h => ?_⟩, rfl, next_of (fun t => (t.rngReq, t.rsp.map Response.cc)) ?_,
    next_of (fun t => t.rsp.map Response.cc) ?_, ?_, cpG_ok, rfl, prime_cpP, by decide, by decide, by decide⟩
  · rw [fs, readF_writeF, readF_writeF] at h
    have he : FeOk (e223 7) := feOk_of (by decide)
    split at h
    · cases h; exact he
    · split at h
      · cases h; exact he
      · simp [State.readF, State.reset, validOr] at h
  · simp [State.readP, fs, State.reset, validOr] at h
  · decide +kernel
  · decide +kernel
  · unfold Accepted; decide

theorem wit_PrimeModuliLeaveNoFailure_sign : (4 : KReg) ≠ 5 ∧
    (let s : State := { ks 3 2 0 with draws := [1, 7] }
     s.readK 1 = .ok 3 ∧ s.readK 2 = .ok 2 ∧ s.draws = 1 :: [7]) ∧ Accepted 2 ∧ Accepted 1 :=
  ⟨by decide, by decide, by unfold Accepted; decide, accepted_one⟩

theorem wit_VerifyAcceptsWhatSignLeaves : scalarMul cpG 1 = .ok cpG ∧
    (let s : State := { (ks 3 1 3).writeP 1 cpG with draws := [1] }
     s.readK 1 = .ok 3 ∧ s.readK 2 = .ok 1 ∧ s.readP 1 = .ok cpG ∧
     (∃ t, exec (.sign 4 5 1 2) s = .next t ∧ (t.rngReq, t.status.cc, t.readK 1) = (false, .ok, .ok 3)) ∧
     ∃ t, exec (.sign 1 5 1 2) s = .next t ∧ (t.rngReq, t.status.cc, t.readK 3) = (false, .ok, .ok 3)) :=
  ⟨by decide +kernel, by decide, by decide, by decide,
    next_of (fun t => (t.rngReq, t.status.cc, t.readK 1)) (by decide +kernel),
    next_of (fun t => (t.rngReq, t.status.cc, t.readK 3)) (by decide +kernel)⟩

end Sys2Proof.Tests
end

section
/-! SUPPORT. The scope of a step (00_scope.md): `exec_next` and `step_next` say that a next state is always answered
(R292), `exec_withHost` that a command runs the same whatever the host will do next (R70); then the obligations. -/

namespace Sys2Proof.Machine

variable {i : Instr} {s t : State} {w : CmdWord} {d : Word} {rest l : List HostMove}

/-! ### Every command and every step answers a next state -/

theorem finish_next (s : State) (r : Except Failure State) : ∃ t, finish s r = .next t := by
  cases r <;> exact ⟨_, rfl⟩

theorem finishOut_next (s : State) (r : Except Failure Word) : ∃ t, finishOut s r = .next t := by
  cases r <;> exact ⟨_, rfl⟩

/-- KEYGEN ends as its rule does, or waits (R336). -/
theorem execKeygen_next (pq : PReg) (kd : KReg) (s : State) : ∃ t, execKeygen pq kd s = .next t := by
  unfold execKeygen
  cases sampleScalar s.draws with
  | none => exact ⟨_, rfl⟩
  | some r => exact finish_next _ _

/-- SIGN ends at its operands, or as its loop does (R260). -/
theorem execSign_next (kr ks kz kd : KReg) (s : State) : ∃ t, execSign kr ks kz kd s = .next t := by
  unfold execSign
  cases signOperands kr ks kz kd s with
  | error k => exact ⟨_, rfl⟩
  | ok zd =>
    dsimp only
    cases signLoop zd.1 zd.2 s.draws <;> exact ⟨_, rfl⟩

theorem exec_next (i : Instr) (s : State) : ∃ t, exec i s = .next t := by
  cases i
  case nop | kld | statrd | errclr | cpp | cpn | cpa | cpb | cpg => exact ⟨_, rfl⟩
  case kst ks => exact finishOut_next s _
  case keygen pq kd => exact execKeygen_next pq kd s
  case sign kr ks kz kd => exact execSign_next kr ks kz kd s
  all_goals exact finish_next s _

theorem step_next (s : State) : ∃ t, step s = .next t := by
  unfold step
  cases fetch s with
  | settled t => exact ⟨t, rfl⟩
  | run i t => exact exec_next i t
  | cut i t taken =>
    obtain ⟨u, hu⟩ := exec_next i t
    exact ⟨t.abandoned u taken, by simp only [hu]⟩

/-! ### A command runs the same whatever the host will do next -/

/-- `s` with other further moves of the host. -/
def State.withHost (s : State) (l : List HostMove) : State := { s with host := l }

@[simp] theorem State.withHost_host : (s.withHost l).host = l := rfl
@[simp] theorem State.withHost_draws : (s.withHost l).draws = s.draws := rfl

/-- An outcome with other further moves of the host in its next state. -/
def outcomeWithHost (l : List HostMove) : Outcome → Outcome
  | .next t => .next (t.withHost l)
  | .fault r => .fault r
  | .refused r => .refused r

/-- A rule that goes on after a part that does not see the host's moves. -/
theorem finish_bind_withHost {α : Type} {x : Except Failure α} {g g' : α → Except Failure State}
    (hg : ∀ a, finish (s.withHost l) (g' a) = outcomeWithHost l (finish s (g a))) :
    finish (s.withHost l) (x >>= g') = outcomeWithHost l (finish s (x >>= g)) := by
  cases x with
  | error k => rfl
  | ok a => exact hg a

theorem finishOut_withHost (r : Except Failure Word) :
    finishOut (s.withHost l) r = outcomeWithHost l (finishOut s r) := by
  cases r <;> rfl

theorem fieldBinary_withHost (op : FE → FE → Except Failure FE) (fd fs1 fs2 : FReg) :
    fieldBinary op fd fs1 fs2 (s.withHost l) = outcomeWithHost l (fieldBinary op fd fs1 fs2 s) :=
  finish_bind_withHost fun ⟨_, _⟩ => finish_bind_withHost fun _ => rfl

theorem execPnew_withHost (pd : PReg) (fx fy fa fb : FReg) (xp yp : Bool) :
    execPnew pd fx fy fa fb xp yp (s.withHost l) = outcomeWithHost l (execPnew pd fx fy fa fb xp yp s) := by
  cases xp <;> cases yp
  · exact finish_bind_withHost fun ⟨_, _⟩ => finish_bind_withHost fun _ => rfl
  · rfl
  · rfl
  · exact finish_bind_withHost fun ⟨_, _, _, _⟩ => finish_bind_withHost fun _ => rfl

theorem execKeygen_withHost (pq : PReg) (kd : KReg) :
    execKeygen pq kd (s.withHost l) = outcomeWithHost l (execKeygen pq kd s) := by
  unfold execKeygen
  rw [State.withHost_draws]
  cases sampleScalar s.draws with
  | none => rfl
  | some r => exact finish_bind_withHost (s := s.withDraws r.2) fun _ => rfl

theorem execSign_withHost (kr ks kz kd : KReg) :
    execSign kr ks kz kd (s.withHost l) = outcomeWithHost l (execSign kr ks kz kd s) := by
  have hop : signOperands kr ks kz kd (s.withHost l) = signOperands kr ks kz kd s := rfl
  unfold execSign
  rw [hop, State.withHost_draws]
  cases signOperands kr ks kz kd s with
  | error k => rfl
  | ok zd =>
    dsimp only
    cases signLoop zd.1 zd.2 s.draws <;> rfl

theorem exec_withHost (i : Instr) (s : State) (l : List HostMove) :
    exec i (s.withHost l) = outcomeWithHost l (exec i s) := by
  cases i
  case nop | kld | statrd | errclr | cpp | cpn | cpa | cpb | cpg => rfl
  case kst ks => exact finishOut_withHost (s.readK ks)
  case kmov | fval | fmodu | fmov | pgeta | pgetb | pisinf | pmov => exact finish_bind_withHost fun _ => rfl
  case fpow | peq => exact finish_bind_withHost fun ⟨_, _⟩ => rfl
  case fzero | finv | pgetx | pgety | liftx | keypair =>
    exact finish_bind_withHost fun _ => finish_bind_withHost fun _ => rfl
  case fnew | feq | padd | pmul | cppoint =>
    exact finish_bind_withHost fun ⟨_, _⟩ => finish_bind_withHost fun _ => rfl
  case verify => exact finish_bind_withHost fun ⟨_, _, _, _⟩ => finish_bind_withHost fun _ => rfl
  case fadd | fsub | fmul | fmont | fdiv => exact fieldBinary_withHost _ _ _ _
  case pnew => exact execPnew_withHost _ _ _ _ _ _ _
  case keygen pq kd => exact execKeygen_withHost pq kd
  case sign kr ks kz kd => exact execSign_withHost kr ks kz kd

/-- A command leaves the host's further moves as they are. -/
theorem exec_host (h : exec i s = .next t) : t.host = s.host := by
  rcases exec_cases h with ⟨-, rfl⟩ | ⟨-, hends⟩
  · rfl
  · cases hends with
    | success u v hu _ ht => rw [ht, State.completeWith_host, hu.host]
    | failure k draws _ _ _ ht => rw [ht, State.raise_host, State.withDraws_host]
    | waiting _ ht => rw [ht, State.awaitDraw_host]

/-! ### The step of an idle block -/

/-- An idle block takes the word the host presents (R28, R35). -/
theorem fetch_command (hc : s.cmd = none) (hh : s.host = .command w d :: rest) :
    fetch s = issue w d (s.withHost rest) := by
  simp only [fetch, hc, idle, hh, State.withHost]

/-- A presented word that decodes runs. -/
theorem step_command (hc : s.cmd = none) (hh : s.host = .command w d :: rest) (hw : decode w = .ok i) :
    step s = exec i ((s.withHost rest).take w d) := by
  simp only [step, fetch_command hc hh, issue, hw]

/-- A presented word that does not decode is only recorded (R85, R293). -/
theorem step_illegalCommand {e : DecodeError} (hc : s.cmd = none) (hh : s.host = .command w d :: rest)
    (hw : decode w = .error e) : step s = .next (((s.withHost rest).take w d).raise .illegalCommand) := by
  simp only [step, fetch_command hc hh, issue, hw]

/-- An idle block without a move keeps its state (R301). -/
theorem step_idle (hc : s.cmd = none) (hh : s.host = []) : step s = .next s := by
  simp only [step, fetch, hc, idle, hh]

/-- With other further moves after it, a presented word steps to the same state but for those moves. -/
theorem step_command_withHost (l : List HostMove) (hc : s.cmd = none)
    (h : step (s.withHost (.command w d :: rest)) = .next t) :
    t.host = rest ∧ step (s.withHost (.command w d :: l)) = .next (t.withHost l) := by
  have hcmd (m : List HostMove) : (s.withHost m).cmd = none := hc
  cases hw : decode w with
  | ok i =>
    rw [step_command (hcmd _) rfl hw] at h ⊢
    have hl := exec_withHost i (((s.withHost (.command w d :: rest)).withHost rest).take w d) l
    rw [h] at hl
    exact ⟨exec_host h, hl⟩
  | error e =>
    rw [step_illegalCommand (hcmd _) rfl hw] at h ⊢
    cases h
    exact ⟨rfl, rfl⟩

end Sys2Proof.Machine

open Sys2Proof.Machine

/-- Settles O7: a command runs the same whatever follows it in the host's list (`exec_withHost`), and an illegal word
sees no more of the list. -/
theorem hostMovesAreTakenOneByOne : Obligations.HostMovesAreTakenOneByOne := by
  unfold Obligations.HostMovesAreTakenOneByOne
  exact ⟨fun _ _ _ _ _ rest' hc h => step_command_withHost rest' hc h, fun _ hc hh => step_idle hc hh⟩

/-- Settles O10: every command ends by `finish`, by `finishOut` or in a wait, and a step runs at most one command. -/
theorem blockNeverStops : Obligations.BlockNeverStops := by
  unfold Obligations.BlockNeverStops
  exact ⟨exec_next, step_next⟩

/-- Settles O22: by the read-after-write law of each file and the fields each write keeps. -/
theorem registerWriteReadBack : Obligations.RegisterWriteReadBack := by
  unfold Obligations.RegisterWriteReadBack
  exact ⟨fun _ => readK_writeK, fun _ => readF_writeF, fun _ => readP_writeP,
    fun s i v => ⟨s.writeK_f i v, s.writeK_p i v⟩, fun s i e => ⟨s.writeF_k i e, s.writeF_p i e⟩,
    fun s i q => ⟨s.writeP_k i q, s.writeP_f i q⟩⟩

end

section
/-! SUPPORT. The invariant (10_state.md R23, R30, R36, R244): it holds after reset, every end of a command keeps it
(`Ends.inv`), and so does a step; the same for `WaitsOk`. Then the obligations on both. -/

namespace Sys2Proof.Machine

variable {i : Instr} {s t u : State} {w : CmdWord}

/-! ### The state after reset -/

@[simp] theorem readK_reset (r : KReg) : State.reset.readK r = .error .regInvalid := by
  simp [State.readK, State.reset, validOr]

@[simp] theorem readF_reset (r : FReg) : State.reset.readF r = .error .regInvalid := by
  simp [State.readF, State.reset, validOr]

@[simp] theorem readP_reset (r : PReg) : State.reset.readP r = .error .regInvalid := by
  simp [State.readP, State.reset, validOr]

theorem inv_reset : Inv State.reset where
  files := {
    f := fun r _ h => nomatch (readF_reset r).symm.trans h
    p := fun r _ h => nomatch (readP_reset r).symm.trans h }
  errs := BitVec.zero_and
  ports := ⟨rfl, nofun⟩

/-- The invariant does not see the host's moves or the draws. -/
theorem Inv.withInputs (h : Inv s) (l : List HostMove) (ds : List Word) : Inv { s with host := l, draws := ds } :=
  ⟨⟨h.files.f, h.files.p⟩, h.errs, ⟨h.ports.req, h.ports.quiet⟩⟩

/-! ### The register files -/

theorem FilesOk.congr (h : FilesOk s) (hf : t.f = s.f) (hp : t.p = s.p) : FilesOk t where
  f r e he := h.f r e ((readF_congr hf r).symm.trans he)
  p r q hq := h.p r q ((readP_congr hp r).symm.trans hq)

/-- A success keeps R23: its destinations hold valid values, and every other register is as before. -/
theorem Written.filesOk (hu : Written i s u) (h : FilesOk s) : FilesOk u where
  f r e he := by
    by_cases hr : r ∈ i.destF
    · obtain ⟨e', he', hok⟩ := hu.fSet r hr
      cases he.symm.trans he'
      exact hok h
    · exact h.f r e ((hu.f r hr).symm.trans he)
  p r q hq := by
    by_cases hr : r ∈ i.destP
    · obtain ⟨q', hq', hok⟩ := hu.pSet r hr
      cases hq.symm.trans hq'
      exact hok h
    · exact h.p r q ((hu.p r hr).symm.trans hq)

/-! ### ERRS -/

/-- No command's failure is `UnsupportedModulus` (R244). -/
theorem unsupportedModulus_not_mem_codes (i : Instr) : Failure.unsupportedModulus ∉ i.codes := by
  cases i <;> simp [Instr.codes]

/-- Only an ERRS bit that may become 1 is set by a failure other than `UnsupportedModulus` (R30). -/
theorem errsOk_raise {k : Failure} (hk : k ≠ .unsupportedModulus) (h : ErrsOk s) : ErrsOk (s.raise k) := by
  have hbit : (1#16 <<< k.code.toNat) &&& 0xC181#16 = 0 := by
    cases k
    case unsupportedModulus => exact absurd rfl hk
    all_goals decide
  have hor : (s.status.errs ||| (1#16 <<< k.code.toNat)) &&& 0xC181#16
      = (s.status.errs &&& 0xC181#16) ||| ((1#16 <<< k.code.toNat) &&& 0xC181#16) := BitVec.and_or_distrib_right
  show (s.status.errs ||| (1#16 <<< k.code.toNat)) &&& 0xC181#16 = 0
  rw [hor, show s.status.errs &&& 0xC181#16 = 0 from h, hbit]
  rfl

theorem Written.errsOk (hu : Written i s u) (h : ErrsOk s) : ErrsOk u := by
  unfold ErrsOk
  rw [hu.errs]
  split
  · exact BitVec.zero_and
  · exact h

/-! ### Every end of a command keeps the invariant -/

/-- After a response the block is idle (R28, R35). -/
theorem portsOk_idle (hc : t.cmd = none) (hr : t.rngReq = false) : PortsOk t :=
  ⟨by rw [hc, hr]; rfl, fun h => by rw [hc] at h; cases h⟩

/-- From a state in which a word was taken, with R23 and R30 kept: every end of the command has the invariant. -/
theorem Ends.inv (h : Ends i s t) (hwf : i.wf = true) (files : FilesOk s) (errs : ErrsOk s)
    (hc : s.cmd = some w) (hr : s.rsp = none) : Inv t := by
  cases h with
  | success u v hu _ ht =>
    subst ht
    exact ⟨(hu.filesOk files).congr rfl rfl, hu.errsOk errs, portsOk_idle rfl rfl⟩
  | failure k rest code _ _ ht =>
    subst ht
    have hk : k ≠ .unsupportedModulus := fun he => unsupportedModulus_not_mem_codes i (he ▸ code hwf)
    exact ⟨files.congr rfl rfl, errsOk_raise (s := s.withDraws rest) hk errs, portsOk_idle rfl rfl⟩
  | waiting _ ht =>
    subst ht
    exact ⟨files.congr rfl rfl, errs, ⟨congrArg Option.isSome hc.symm, fun _ => hr⟩⟩

/-- A word decodes to well-formed commands only (R85). -/
theorem decode_wf (h : decode w = .ok i) : i.wf = true := by
  unfold decode at h
  split at h
  · cases h
  · split at h
    · dsimp only at h
      split at h
      · cases h; assumption
      · cases h
    · cases h

/-- The state a word is taken in has the registers and STATUS of the state before the step. -/
theorem Inv.issued (h : Inv s) (hu : u = s ∨ ∃ rest, u = { s with host := rest }) (w : CmdWord) (d : Word) :
    FilesOk (u.take w d) ∧ ErrsOk (u.take w d) := by
  rcases hu with rfl | ⟨rest, rfl⟩ <;> exact ⟨h.files.congr rfl rfl, h.errs⟩

/-- R23, R30, R35 and R244 along a step: a command runs to one of its ends, a word is only recorded, the block is
reset, or nothing happens. -/
theorem step_inv (h : Inv s) (hs : step s = .next t) : Inv t := by
  rcases step_cases hs with ⟨u, w, d, i, hu, hw, he⟩ | ⟨u, w, d, hu, rfl⟩ | ⟨rest, ds, rfl⟩ | rfl
  · obtain ⟨files, errs⟩ := h.issued hu w d
    rcases exec_cases he with ⟨-, rfl⟩ | ⟨-, hends⟩
    · exact ⟨files.congr rfl rfl, errs, portsOk_idle rfl rfl⟩
    · exact hends.inv (decode_wf hw) files errs rfl rfl
  · obtain ⟨files, errs⟩ := h.issued hu w d
    exact ⟨files.congr rfl rfl, errsOk_raise nofun errs, portsOk_idle rfl rfl⟩
  · exact inv_reset.withInputs rest ds
  · exact h

/-! ### Which commands are in hand between two steps -/

/-- After a command its word is in hand no more, unless it takes draws and waits for one (R36). -/
theorem exec_cmd (h : exec i s = .next t) :
    (t.cmd = none ∧ t.rngReq = false) ∨ (i.takesDraws = true ∧ t = s.awaitDraw) := by
  rcases exec_cases h with ⟨-, rfl⟩ | ⟨-, hends⟩
  · exact .inl ⟨rfl, rfl⟩
  · cases hends with
    | success u v _ _ ht => subst ht; exact .inl ⟨rfl, rfl⟩
    | failure k rest _ _ _ ht => subst ht; exact .inl ⟨rfl, rfl⟩
    | waiting takes ht => exact .inr ⟨takes, ht⟩

theorem waitsOk_of_idle (hc : s.cmd = none) : WaitsOk s := fun w h => by rw [hc] at h; cases h

theorem step_waitsOk (h : WaitsOk s) (hs : step s = .next t) : WaitsOk t := by
  rcases step_cases hs with ⟨u, w, d, i, -, hw, he⟩ | ⟨u, w, d, -, rfl⟩ | ⟨rest, ds, rfl⟩ | rfl
  · rcases exec_cmd he with ⟨hc, -⟩ | ⟨takes, rfl⟩
    · exact waitsOk_of_idle hc
    · intro v hv
      cases hv
      exact ⟨i, hw, takes⟩
  · exact waitsOk_of_idle rfl
  · exact waitsOk_of_idle rfl
  · exact h

end Sys2Proof.Machine

open Sys2Proof.Machine

/-- Settles O13: a step runs a command to one of its ends, records an illegal word, resets or does nothing, and each of
them keeps the invariant (`step_inv`). -/
theorem stepKeepsInvariant : Obligations.StepKeepsInvariant := by
  unfold Obligations.StepKeepsInvariant
  exact fun _ _ => step_inv

/-- Settles O12: no register is valid after reset, ERRS is 0 and the block is idle. -/
theorem invariantHoldsAtReset : Obligations.InvariantHoldsAtReset := by
  unfold Obligations.InvariantHoldsAtReset
  exact inv_reset

/-- Settles O14: a command is in hand after a step only if it waits, and only commands that take draws do. -/
theorem onlyKeygenAndSignWait : Obligations.OnlyKeygenAndSignWait := by
  unfold Obligations.OnlyKeygenAndSignWait
  exact ⟨waitsOk_of_idle rfl, fun _ _ => step_waitsOk⟩

/-- Settles O8: by the reads of the state after reset. -/
theorem resetStateIsAsSpecified : Obligations.ResetStateIsAsSpecified := by
  unfold Obligations.ResetStateIsAsSpecified
  exact ⟨readK_reset, readF_reset, readP_reset, by decide, rfl, rfl, rfl, rfl⟩

end

section
/-! SUPPORT. What every command leaves unchanged (10_state.md R26, R29, R31): `exec_frame`, one frame for all forty
commands; then the obligations, family by family. -/

namespace Sys2Proof.Machine

variable {i : Instr} {s t : State}

/-- An end that writes no register, FLAG or VRES. -/
theorem Frame.ofUnwritten (hs : SameFiles s t) (flag : t.status.flag = s.status.flag)
    (vres : t.status.vres = s.status.vres) (errs : t.status.cc = .ok → t.status.errs = s.status.errs)
    (din : t.din = s.din) (host : t.host = s.host) (draws : i.takesDraws = false → t.draws = s.draws) :
    Frame i s t where
  k r _ := readK_congr hs.k r
  f r _ := readF_congr hs.f r
  p r _ := readP_congr hs.p r
  flag _ := flag
  vres _ := vres
  errs hc _ := errs hc
  din := din
  host := host
  draws := draws

/-- The frame of every end of a command: a success writes what `Written` says, a failure STATUS only, a wait nothing. -/
theorem Ends.frame (h : Ends i s t) : Frame i s t := by
  cases h with
  | success u v hu _ ht =>
    subst ht
    exact { k := hu.k, f := hu.f, p := hu.p, flag := hu.flag, vres := hu.vres, din := hu.din, host := hu.host,
            draws := hu.draws
            errs := fun _ he => hu.errs.trans (if_neg he) }
  | failure k rest _ _ draws ht =>
    subst ht
    exact .ofUnwritten ⟨rfl, rfl, rfl⟩ rfl rfl nofun rfl rfl draws
  | waiting takes ht =>
    subst ht
    exact .ofUnwritten ⟨rfl, rfl, rfl⟩ rfl rfl (fun _ => rfl) rfl rfl fun h => nomatch takes.symm.trans h

theorem exec_frame (h : exec i s = .next t) : Frame i s t := by
  rcases exec_cases h with ⟨-, rfl⟩ | ⟨-, hends⟩
  · exact .ofUnwritten ⟨rfl, rfl, rfl⟩ rfl rfl (fun _ => rfl) rfl rfl fun _ => rfl
  · exact hends.frame

/-- Draws are taken in order and none is given back (R36). -/
theorem exec_draws_suffix (h : exec i s = .next t) : t.draws <:+ s.draws := by
  rcases exec_cases h with ⟨-, rfl⟩ | ⟨-, hends⟩
  · exact List.suffix_refl _
  · cases hends with
    | success u v hu _ ht => subst ht; exact hu.drawn
    | failure k rest _ drawn _ ht => subst ht; exact drawn
    | waiting _ ht => subst ht; exact List.nil_suffix

end Sys2Proof.Machine

open Sys2Proof.Machine

/-- Settles O23: by the frame of every command. -/
theorem frameOfInterfaceCommands : Obligations.FrameOfInterfaceCommands := by
  unfold Obligations.FrameOfInterfaceCommands
  exact fun _ _ _ _ => exec_frame

/-- Settles O24: by the frame of every command. -/
theorem frameOfFieldRegisterCommands : Obligations.FrameOfFieldRegisterCommands := by
  unfold Obligations.FrameOfFieldRegisterCommands
  exact fun _ _ _ _ => exec_frame

/-- Settles O25: by the frame of every command. -/
theorem frameOfFieldArithmetic : Obligations.FrameOfFieldArithmetic := by
  unfold Obligations.FrameOfFieldArithmetic
  exact fun _ _ _ _ => exec_frame

/-- Settles O26: by the frame of every command. -/
theorem frameOfPointCommands : Obligations.FrameOfPointCommands := by
  unfold Obligations.FrameOfPointCommands
  exact fun _ _ _ _ => exec_frame

/-- Settles O27: by the frame of every command. -/
theorem frameOfCurveParameterCommands : Obligations.FrameOfCurveParameterCommands := by
  unfold Obligations.FrameOfCurveParameterCommands
  exact fun _ _ _ _ => exec_frame

/-- Settles O28: by the frame of every command, and because draws are only taken. -/
theorem frameOfEcdsaCommands : Obligations.FrameOfEcdsaCommands := by
  unfold Obligations.FrameOfEcdsaCommands
  exact fun _ _ _ _ h => ⟨exec_frame h, exec_draws_suffix h⟩

end

section
/-! SUPPORT. Valid bits (10_state.md R24): `exec_invalidSource`, the failure of a command with an invalid source, and
what an end does to the validity of a register; then the obligation. -/

namespace Sys2Proof.Machine

variable {i : Instr} {s t u : State}

/-- Some of these registers is invalid (R24). -/
def SomeInvalid (s : State) (ks : List KReg) (fs : List FReg) (ps : List PReg) : Prop :=
  (∃ r ∈ ks, s.readK r = .error .regInvalid) ∨ (∃ r ∈ fs, s.readF r = .error .regInvalid) ∨
    (∃ r ∈ ps, s.readP r = .error .regInvalid)

theorem not_someInvalid_nil : ¬ SomeInvalid s [] [] [] := by simp [SomeInvalid]

/-- An operand read raises `RegInvalid` only, so it does whenever it gives no value. -/
theorem error_of_not_ok {α : Type} {x : Except Failure α} (herr : ∀ k, x = .error k → k = .regInvalid)
    (hok : ∀ a, x ≠ .ok a) : x = .error .regInvalid := by
  cases x with
  | error k => rw [herr k rfl]
  | ok a => exact absurd rfl (hok a)

/-- A rule whose first part raises. -/
theorem finish_bind_error {α : Type} {x : Except Failure α} {g : α → Except Failure State} {k : Failure}
    (h : x = .error k) : finish s (x >>= g) = .next (s.raise k) := by rw [h]; rfl

/-! The operand reads of Machine/Operands when a register of theirs is invalid. -/

theorem readK_invalid {i : KReg} (h : SomeInvalid s [i] [] []) : s.readK i = .error .regInvalid :=
  error_of_not_ok (fun _ => readK_error) fun _ hv => by simp [SomeInvalid, hv] at h

theorem readF_invalid {i : FReg} (h : SomeInvalid s [] [i] []) : s.readF i = .error .regInvalid :=
  error_of_not_ok (fun _ => readF_error) fun _ hv => by simp [SomeInvalid, hv] at h

theorem readP_invalid {i : PReg} (h : SomeInvalid s [] [] [i]) : s.readP i = .error .regInvalid :=
  error_of_not_ok (fun _ => readP_error) fun _ hv => by simp [SomeInvalid, hv] at h

theorem readKK_invalid {i j : KReg} (h : SomeInvalid s [i, j] [] []) : s.readKK i j = .error .regInvalid :=
  error_of_not_ok (fun _ => readKK_error) fun _ hv => by simp [SomeInvalid, readKK_eq_ok.1 hv] at h

theorem readFF_invalid {i j : FReg} (h : SomeInvalid s [] [i, j] []) : s.readFF i j = .error .regInvalid :=
  error_of_not_ok (fun _ => readFF_error) fun _ hv => by simp [SomeInvalid, readFF_eq_ok.1 hv] at h

theorem readPP_invalid {i j : PReg} (h : SomeInvalid s [] [] [i, j]) : s.readPP i j = .error .regInvalid :=
  error_of_not_ok (fun _ => readPP_error) fun _ hv => by simp [SomeInvalid, readPP_eq_ok.1 hv] at h

theorem readFK_invalid {i : FReg} {j : KReg} (h : SomeInvalid s [j] [i] []) : s.readFK i j = .error .regInvalid :=
  error_of_not_ok (fun _ => readFK_error) fun _ hv => by simp [SomeInvalid, readFK_eq_ok.1 hv] at h

theorem readPK_invalid {i : PReg} {j : KReg} (h : SomeInvalid s [j] [] [i]) : s.readPK i j = .error .regInvalid :=
  error_of_not_ok (fun _ => readPK_error) fun _ hv => by simp [SomeInvalid, readPK_eq_ok.1 hv] at h

theorem readFFFF_invalid {i j u v : FReg} (h : SomeInvalid s [] [i, j, u, v] []) :
    s.readFFFF i j u v = .error .regInvalid :=
  error_of_not_ok (fun _ => readFFFF_error) fun _ hv => by simp [SomeInvalid, readFFFF_eq_ok.1 hv] at h

theorem readKKKP_invalid {i j u : KReg} {v : PReg} (h : SomeInvalid s [i, j, u] [] [v]) :
    s.readKKKP i j u v = .error .regInvalid :=
  error_of_not_ok (fun _ => readKKKP_error) fun _ hv => by simp [SomeInvalid, readKKKP_eq_ok.1 hv] at h

/-- Some source of the command is invalid (R24, R26). -/
def InvalidSource (i : Instr) (s : State) : Prop := SomeInvalid s i.srcK i.srcF i.srcP

/-- PNEW reads its sources only if its mode bits agree (R187). -/
theorem execPnew_invalidSource {pd : PReg} {fx fy fa fb : FReg} {xp yp : Bool}
    (h : InvalidSource (.pnew pd fx fy fa fb xp yp) s) :
    execPnew pd fx fy fa fb xp yp s = .next (s.raise .regInvalid) := by
  cases xp <;> cases yp
  · exact finish_bind_error (readFF_invalid h)
  · exact absurd h not_someInvalid_nil
  · exact absurd h not_someInvalid_nil
  · exact finish_bind_error (readFFFF_invalid h)

/-- SIGN reads its sources after the check of its destinations (R260). -/
theorem execSign_invalidSource {kr ks kz kd : KReg} (hne : kr ≠ ks) (h : InvalidSource (.sign kr ks kz kd) s) :
    execSign kr ks kz kd s = .next (s.raise .regInvalid) := by
  have hop : signOperands kr ks kz kd s = .error .regInvalid := by
    rw [signOperands, if_neg hne, readKK_invalid h]
    rfl
  simp only [execSign, hop]

/-- An invalid source is `RegInvalid`, and nothing else happens (R24): every command begins with its operand read. -/
theorem exec_invalidSource (hwf : i.wf = true) (h : InvalidSource i s) : exec i s = .next (s.raise .regInvalid) := by
  cases i
  case nop | kld | statrd | errclr | cpp | cpn | cpa | cpb | cpg | keygen => exact absurd h not_someInvalid_nil
  case kst ks => exact congrArg (finishOut s) (readK_invalid h)
  case kmov | fzero | liftx | keypair => exact finish_bind_error (readK_invalid h)
  case fval | fmodu | fmov | finv => exact finish_bind_error (readF_invalid h)
  case pgetx | pgety | pgeta | pgetb | pisinf | pmov => exact finish_bind_error (readP_invalid h)
  case fnew | cppoint => exact finish_bind_error (readKK_invalid h)
  case feq | fadd | fsub | fmul | fmont | fdiv => exact finish_bind_error (readFF_invalid h)
  case peq | padd => exact finish_bind_error (readPP_invalid h)
  case fpow => exact finish_bind_error (readFK_invalid h)
  case pmul => exact finish_bind_error (readPK_invalid h)
  case verify => exact finish_bind_error (readKKKP_invalid h)
  case pnew => exact execPnew_invalidSource h
  case sign => exact execSign_invalidSource (by simpa [Instr.wf] using hwf) h

/-- Every destination holds a value after a success (R24). -/
theorem exec_destsValid (h : exec i s = .next t) (hr : t.rngReq = false) (hc : t.rsp.map Response.cc = some .ok) :
    (∀ r ∈ i.destK, ∃ v, t.readK r = .ok v) ∧ (∀ r ∈ i.destF, ∃ e, t.readF r = .ok e) ∧
    (∀ r ∈ i.destP, ∃ q, t.readP r = .ok q) := by
  rcases exec_cases h with ⟨rfl, -⟩ | ⟨-, hends⟩
  · exact ⟨nofun, nofun, nofun⟩
  · cases hends with
    | success u v hu _ ht =>
      subst ht
      exact ⟨hu.kSet, fun r hr => (hu.fSet r hr).imp fun _ h => h.1, fun r hr => (hu.pSet r hr).imp fun _ h => h.1⟩
    | failure k rest _ _ _ ht => subst ht; cases hc
    | waiting _ ht => subst ht; cases hr

/-- Every register valid in `s` is valid in `t`. -/
def KeepsValid (s t : State) : Prop :=
  (∀ r v, s.readK r = .ok v → ∃ v', t.readK r = .ok v') ∧ (∀ r e, s.readF r = .ok e → ∃ e', t.readF r = .ok e') ∧
    (∀ r q, s.readP r = .ok q → ∃ q', t.readP r = .ok q')

theorem SameFiles.keepsValid (h : SameFiles s t) : KeepsValid s t :=
  ⟨fun r v hv => ⟨v, (readK_congr h.k r).trans hv⟩, fun r e he => ⟨e, (readF_congr h.f r).trans he⟩,
    fun r q hq => ⟨q, (readP_congr h.p r).trans hq⟩⟩

theorem Written.keepsValid (hu : Written i s u) : KeepsValid s u := by
  refine ⟨fun r v hv => ?_, fun r e he => ?_, fun r q hq => ?_⟩
  · by_cases hr : r ∈ i.destK
    · exact hu.kSet r hr
    · exact ⟨v, (hu.k r hr).trans hv⟩
  · by_cases hr : r ∈ i.destF
    · exact (hu.fSet r hr).imp fun _ h => h.1
    · exact ⟨e, (hu.f r hr).trans he⟩
  · by_cases hr : r ∈ i.destP
    · exact (hu.pSet r hr).imp fun _ h => h.1
    · exact ⟨q, (hu.p r hr).trans hq⟩

/-- No command clears a valid bit (R24): a success sets its destinations, and no other end writes a register. -/
theorem exec_keepsValid (h : exec i s = .next t) : KeepsValid s t := by
  rcases exec_cases h with ⟨-, rfl⟩ | ⟨-, hends⟩
  · exact SameFiles.keepsValid ⟨rfl, rfl, rfl⟩
  · cases hends with
    | success u v hu _ ht => subst ht; exact hu.keepsValid
    | failure k rest _ _ _ ht => subst ht; exact SameFiles.keepsValid ⟨rfl, rfl, rfl⟩
    | waiting _ ht => subst ht; exact SameFiles.keepsValid ⟨rfl, rfl, rfl⟩

end Sys2Proof.Machine

open Sys2Proof.Machine

/-- Settles O21: a command's operand read fails first, `Written` gives the destinations a value, and nothing else
touches a register. -/
theorem validBits : Obligations.ValidBits := by
  unfold Obligations.ValidBits
  exact ⟨fun _ _ => exec_invalidSource, fun _ _ _ => exec_destsValid, fun _ _ _ => exec_keepsValid⟩

end

section
/-! SUPPORT. Reset and waits (10_state.md R36, R37, R39; 49_ecdsa_engines.md R256, R260, R336): the step of a reset, of
a command that reset cuts short, and of a command without an acceptable draw; then the obligations. -/

namespace Sys2Proof.Machine

variable {i : Instr} {s t u : State} {v w : CmdWord} {d z : Word} {n : Nat} {rest : List HostMove} {l : List Word}

/-! ### Reset -/

/-- The state after reset with the host's further moves and the source's further draws. -/
def resetWith (ds : List Word) (l : List HostMove) : State := { State.reset with draws := ds, host := l }

/-- The plain reset is taken in every state (R37, R323). -/
theorem step_reset (hh : s.host = .reset :: rest) : step s = .next (resetWith s.draws rest) := by
  have hf : fetch s = .settled (s.withHost rest).afterReset := by
    unfold fetch
    cases s.cmd with
    | none => simp only [idle, hh, State.withHost]
    | some w => simp only [busy, hh, State.withHost]
  rw [step, hf]
  rfl

theorem fetch_abandon_idle (hc : s.cmd = none) (hh : s.host = .abandon w d n :: rest) :
    fetch s = issueCut w d n (s.withHost rest) := by
  simp only [fetch, hc, idle, hh, State.withHost]

theorem fetch_abandon_busy (hc : s.cmd = some v) (hh : s.host = .abandon w d n :: rest) :
    fetch s = issueCut v s.din n (s.withHost rest) := by
  simp only [fetch, hc, busy, hh, State.withHost]

/-- How many draws are gone when reset cuts the word `w` short in `u`: none if no command that takes draws runs, else up
to `n`, and at most those its whole execution takes (R37, R323; log 4). -/
structure DrawsLost (w : CmdWord) (d : Word) (n : Nat) (u : State) (m : Nat) : Prop where
  le : m ≤ n
  illegal : ∀ e, decode w = .error e → m = 0
  undrawn : ∀ i, decode w = .ok i → i.takesDraws = false → m = 0
  drawn : ∀ i t, decode w = .ok i → exec i (u.take w d) = .next t → m = min n (u.draws.length - t.draws.length)

/-- The step of a word that reset cuts short: the block is reset, and some draws are gone. -/
theorem step_cut (hf : fetch s = issueCut w d n u) :
    ∃ m, DrawsLost w d n u m ∧ step s = .next (resetWith (u.draws.drop m) u.host) := by
  cases hw : decode w with
  | error e =>
    refine ⟨0, ⟨Nat.zero_le n, fun _ _ => rfl, fun _ _ _ => rfl, fun i t hi _ => ?_⟩, ?_⟩
    · rw [hw] at hi; cases hi
    · simp only [step, hf, issueCut, hw]; rfl
  | ok i =>
    obtain ⟨t, ht⟩ := exec_next i (u.take w d)
    refine ⟨min n (u.draws.length - t.draws.length), ⟨Nat.min_le_left _ _, fun e he => ?_, fun j hj hd => ?_,
      fun j t' hj ht' => ?_⟩, ?_⟩
    · rw [hw] at he; cases he
    · cases hw.symm.trans hj
      have hds : t.draws = u.draws := (exec_frame ht).draws hd
      rw [hds, Nat.sub_self, Nat.min_zero]
    · cases hw.symm.trans hj
      cases ht.symm.trans ht'
      rfl
    · simp only [step, hf, issueCut, hw, ht]; rfl

/-! ### Waits -/

theorem sampleScalar_eq_none (h : ∀ c ∈ l, ¬ Accepted c) : sampleScalar l = none := by
  cases hs : sampleScalar l with
  | none => rfl
  | some r =>
    obtain ⟨before, rfl, -, hr⟩ := sampleScalar_eq_some hs
    exact absurd hr (h r.1 (by simp))

/-- Every draw is rejected, so no pass of SIGN's loop begins (R260). -/
theorem signLoop_starved (h : ∀ c ∈ l, ¬ Accepted c) : signLoop z d l = .starved := by
  induction l with
  | nil => rfl
  | cons c cs ih =>
    have hc : ¬ inScalarRange c = true := fun hc => h c List.mem_cons_self (inScalarRange_iff.1 hc)
    rw [signLoop, if_neg hc]
    exact ih fun x hx => h x (List.mem_cons_of_mem c hx)

theorem exec_keygen_waits (pq : PReg) (kd : KReg) (h : ∀ c ∈ s.draws, ¬ Accepted c) :
    exec (.keygen pq kd) s = .next s.awaitDraw := by
  simp only [exec, execKeygen, sampleScalar_eq_none h]

theorem exec_sign_waits {kr ks kz kd : KReg} (hne : kr ≠ ks) (hz : s.readK kz = .ok z) (hd : s.readK kd = .ok d)
    (had : Accepted d) (h : ∀ c ∈ s.draws, ¬ Accepted c) : exec (.sign kr ks kz kd) s = .next s.awaitDraw := by
  have hop : signOperands kr ks kz kd s = .ok (z, d) := signOperands_eq_ok.2 ⟨hne, hz, hd, had⟩
  simp only [exec, execSign, hop, signLoop_starved h]

/-- A wait without draws goes on while the host does not reset: no command is taken (R74, R336). -/
theorem step_waiting (hc : s.cmd = some w) (hd : s.draws = [])
    (hh : s.host = [] ∨ ∃ c x rest, s.host = .command c x :: rest) : step s = .next s := by
  have hf : fetch s = .settled s := by
    rcases hh with hh | ⟨c, x, rest, hh⟩ <;> simp only [fetch, hc, busy, hh, resume, if_pos hd]
  rw [step, hf]

end Sys2Proof.Machine

open Sys2Proof.Machine

/-- Settles O9: a reset and an abandoned command, presented or in hand, leave the state after reset (`step_reset`,
`step_cut`), the latter less the draws it took. -/
theorem resetAbandonsAndResets : Obligations.ResetAbandonsAndResets := by
  unfold Obligations.ResetAbandonsAndResets
  refine ⟨fun s rest hh => step_reset hh, fun s w d n rest hc hh => ?_, fun s v w d n rest hc hh => ?_⟩
  · obtain ⟨m, hm, hs⟩ := step_cut (fetch_abandon_idle hc hh)
    exact ⟨m, hm.le, hm.illegal, hm.undrawn, hm.drawn, hs⟩
  · obtain ⟨m, hm, hs⟩ := step_cut (fetch_abandon_busy hc hh)
    exact ⟨m, hm.le, hm.illegal, hm.undrawn, hm.drawn, hs⟩

/-- Settles O11: every draw is rejected, so `SampleScalar` and SIGN's loop use them all up, and a wait without draws
goes on. -/
theorem noAcceptableDrawMeansWaiting : Obligations.NoAcceptableDrawMeansWaiting := by
  unfold Obligations.NoAcceptableDrawMeansWaiting
  exact ⟨fun pq kd _ h => exec_keygen_waits pq kd h,
    fun _ _ _ _ _ _ _ hne hz hd had h => exec_sign_waits hne hz hd had h, fun _ _ => step_waiting⟩

end

section
/-! SUPPORT. STATUS (10_state.md R30, R31): the bits of its word, and what an end of a command makes of it; then the
obligations. -/

namespace Sys2Proof.Machine

open Sys2Proof.Config

variable {i : Instr} {s t : State}

/-! ### The word -/

/-- The STATUS word bit by bit (R30). -/
theorem getLsbD_statusWord (st : Status) (n : Nat) : st.word.getLsbD n =
    if n < 4 then st.cc.code.getLsbD n
    else if n < 5 then st.flag
    else if n < 7 then st.vres.getLsbD (n - 5)
    else if n < 8 then false
    else if n < 24 then (st.errs &&& errsMask).getLsbD (n - 8)
    else false := by
  simp only [Status.word, BitVec.getLsbD_append, BitVec.getLsbD_ofBool, BitVec.getLsbD_zero]
  grind

theorem statusWord_cc (st : Status) : st.word.extractLsb' 0 4 = st.cc.code := by
  apply BitVec.eq_of_getLsbD_eq
  intro n hn
  simp [getLsbD_statusWord, hn]

theorem statusWord_flag (st : Status) : st.word.getLsbD 4 = st.flag := getLsbD_statusWord st 4

theorem statusWord_vres (st : Status) : st.word.extractLsb' 5 2 = st.vres := by
  apply BitVec.eq_of_getLsbD_eq
  intro n hn
  rw [BitVec.getLsbD_extractLsb', getLsbD_statusWord]
  grind

theorem statusWord_reserved (st : Status) : st.word.getLsbD 7 = false ∧ st.word.extractLsb' 24 8 = 0 := by
  refine ⟨getLsbD_statusWord st 7, BitVec.eq_of_getLsbD_eq fun n hn => ?_⟩
  have h0 : (0 : BitVec 8).getLsbD n = false := BitVec.getLsbD_zero
  rw [BitVec.getLsbD_extractLsb', getLsbD_statusWord, h0]
  grind

/-- The bits of the mask: all but the hardwired ones (R30). -/
theorem getLsbD_errsMask {c : Nat} (hc : c < 16) :
    errsMask.getLsbD c = !decide (c = 0 ∨ c = 8 ∨ c = 14 ∨ c = 15) := by
  revert c
  decide

theorem statusWord_errs (st : Status) {c : Nat} (hc : c < 16) : st.word.getLsbD (8 + c) =
    if c = 0 ∨ c = 8 ∨ c = 14 ∨ c = 15 then false else st.errs.getLsbD c := by
  have hw : st.word.getLsbD (8 + c) = (st.errs.getLsbD c && errsMask.getLsbD c) := by
    rw [getLsbD_statusWord, ← BitVec.getLsbD_and]
    grind
  rw [hw, getLsbD_errsMask hc]
  by_cases h : c = 0 ∨ c = 8 ∨ c = 14 ∨ c = 15
  · rw [if_pos h, decide_eq_true h, Bool.not_true, Bool.and_false]
  · rw [if_neg h, decide_eq_false h, Bool.not_false, Bool.and_true]

/-- FLAG and VRES in `DOUT` of STATRD (R104). -/
theorem dout_flag (st : Status) : (st.word.setWidth 256).getLsbD 4 = st.flag := by
  rw [BitVec.getLsbD_setWidth, statusWord_flag]
  rfl

theorem dout_vres (st : Status) : (st.word.setWidth 256).extractLsb' 5 2 = st.vres := by
  rw [← statusWord_vres]
  apply BitVec.eq_of_getLsbD_eq
  intro n hn
  have h256 : 5 + n < 256 := by omega
  simp [BitVec.getLsbD_extractLsb', h256]

/-- No completion code is 8 (R291), 14 or 15. -/
theorem code_assigned (c : CC) : c.code ≠ 8 ∧ c.code ≠ 14 ∧ c.code ≠ 15 := by
  cases c with
  | ok => decide
  | fail k => cases k <;> decide

/-! ### What an end makes of it -/

/-- A failure sets its own bit of ERRS and no other (R31). -/
theorem getLsbD_errs_raise (s : State) (k : Failure) (c : Nat) :
    (s.raise k).status.errs.getLsbD c = (s.status.errs.getLsbD c || decide (c = k.code.toNat)) := by
  have hk : k.code.toNat < 16 := k.code.isLt
  have hbit : (1#16 <<< k.code.toNat).getLsbD c = decide (c = k.code.toNat) := by
    rw [BitVec.getLsbD_shiftLeft, BitVec.getLsbD_one]
    grind
  rw [State.raise_status, Status.ended_fail_errs, BitVec.getLsbD_or, hbit]

/-- STATUS after an end of a command that is not a wait (R31). -/
theorem Ends.status (h : Ends i s t) (hr : t.rngReq = false) :
    (t.status.cc = .ok ∧ t.status.errs = (if i = .errclr then 0 else s.status.errs) ∧
      (i.writesFlag = false → t.status.flag = s.status.flag) ∧
      (i.writesVres = false → t.status.vres = s.status.vres)) ∨
    (∃ k, t.status.cc = .fail k ∧
      (∀ c, t.status.errs.getLsbD c = (s.status.errs.getLsbD c || decide (c = k.code.toNat))) ∧
      t.status.flag = s.status.flag ∧ t.status.vres = s.status.vres ∧ SameFiles s t) := by
  cases h with
  | success u v hu _ ht => subst ht; exact .inl ⟨rfl, hu.errs, hu.flag, hu.vres⟩
  | failure k rest _ _ _ ht =>
    subst ht
    exact .inr ⟨k, rfl, getLsbD_errs_raise (s.withDraws rest) k, rfl, rfl, ⟨rfl, rfl, rfl⟩⟩
  | waiting _ ht => subst ht; cases hr

/-- A command that changes FLAG or VRES writes it and succeeds (R29). -/
theorem exec_changes_flags (h : exec i s = .next t) :
    (t.status.flag ≠ s.status.flag → i.writesFlag = true ∧ t.status.cc = .ok) ∧
    (t.status.vres ≠ s.status.vres → i.writesVres = true ∧ t.status.cc = .ok) := by
  rcases exec_cases h with ⟨-, rfl⟩ | ⟨-, hends⟩
  · exact ⟨fun hne => absurd rfl hne, fun hne => absurd rfl hne⟩
  · cases hends with
    | success u v hu _ ht =>
      subst ht
      exact ⟨fun hne => ⟨Bool.of_not_eq_false fun hw => hne (hu.flag hw), rfl⟩,
        fun hne => ⟨Bool.of_not_eq_false fun hw => hne (hu.vres hw), rfl⟩⟩
    | failure k rest _ _ _ ht => subst ht; exact ⟨fun hne => absurd rfl hne, fun hne => absurd rfl hne⟩
    | waiting _ ht => subst ht; exact ⟨fun hne => absurd rfl hne, fun hne => absurd rfl hne⟩

/-- Every response carries FLAG as STATUS has it after the command (R64). -/
theorem exec_rsp_flag (h : exec i s = .next t) (hr : t.rngReq = false) :
    ∃ r, t.rsp = some r ∧ r.flag = t.status.flag := by
  rcases exec_cases h with ⟨-, rfl⟩ | ⟨-, hends⟩
  · exact ⟨_, rfl, rfl⟩
  · cases hends with
    | success u v _ _ ht => subst ht; exact ⟨_, rfl, rfl⟩
    | failure k rest _ _ _ ht => subst ht; exact ⟨_, rfl, rfl⟩
    | waiting _ ht => subst ht; cases hr

/-! ### Commands do not read STATUS -/

/-- `s` with another STATUS. -/
def State.withStatus (s : State) (st : Status) : State := { s with status := st }

/-- The fields of STATUS that the command writes from `v`, the others from `st` (R29, R105). -/
def writtenStatus (i : Instr) (v st : Status) : Status where
  cc := st.cc
  flag := if i.writesFlag then v.flag else st.flag
  vres := if i.writesVres then v.vres else st.vres
  errs := if i = .errclr then v.errs else st.errs

/-- Two outcomes of a command, of `s` and of `s` with STATUS `st`, that are the same end of it: a success with the same
writes, the same failure, or a wait. -/
inductive SameEnd (i : Instr) (s : State) (st : Status) : Outcome → Outcome → Prop
  | success (u : State) (d : Word) : SameEnd i s st (.next (u.completeWith d))
      (.next ((u.withStatus (writtenStatus i u.status st)).completeWith d))
  | failure (k : Failure) (rest : List Word) : SameEnd i s st (.next ((s.withDraws rest).raise k))
      (.next (((s.withDraws rest).withStatus st).raise k))
  | waiting : SameEnd i s st (.next s.awaitDraw) (.next (s.withStatus st).awaitDraw)

section
variable {st : Status}

/-- A rule that goes on after a part that does not see STATUS. -/
theorem SameEnd.ofBind {α : Type} {x : Except Failure α} {g g' : α → Except Failure State}
    (h : ∀ a, SameEnd i s st (finish s (g a)) (finish (s.withStatus st) (g' a))) :
    SameEnd i s st (finish s (x >>= g)) (finish (s.withStatus st) (x >>= g')) := by
  cases x with
  | error k => exact .failure k s.draws
  | ok a => exact h a

theorem execPnew_sameEnd (pd : PReg) (fx fy fa fb : FReg) (xp yp : Bool) :
    SameEnd (.pnew pd fx fy fa fb xp yp) s st (execPnew pd fx fy fa fb xp yp s)
      (execPnew pd fx fy fa fb xp yp (s.withStatus st)) := by
  cases xp <;> cases yp
  · exact .ofBind fun ⟨_, _⟩ => .ofBind fun _ => .success _ 0
  · exact .failure _ s.draws
  · exact .failure _ s.draws
  · exact .ofBind fun ⟨_, _, _, _⟩ => .ofBind fun _ => .success _ 0

theorem execKeygen_sameEnd (pq : PReg) (kd : KReg) :
    SameEnd (.keygen pq kd) s st (execKeygen pq kd s) (execKeygen pq kd (s.withStatus st)) := by
  have hd : (s.withStatus st).draws = s.draws := rfl
  unfold execKeygen
  rw [hd]
  cases sampleScalar s.draws with
  | none => exact .waiting
  | some r =>
    dsimp only
    cases scalarMul cpG r.1 with
    | error k => exact .failure k r.2
    | ok q => exact .success _ 0

theorem execSign_sameEnd (kr ks kz kd : KReg) :
    SameEnd (.sign kr ks kz kd) s st (execSign kr ks kz kd s) (execSign kr ks kz kd (s.withStatus st)) := by
  have hd : (s.withStatus st).draws = s.draws := rfl
  have hop : signOperands kr ks kz kd (s.withStatus st) = signOperands kr ks kz kd s := rfl
  unfold execSign
  rw [hop, hd]
  cases signOperands kr ks kz kd s with
  | error k => exact .failure k s.draws
  | ok zd =>
    dsimp only
    cases signLoop zd.1 zd.2 s.draws with
    | signed r t rest => exact .success _ 0
    | failed k rest => exact .failure k rest
    | starved => exact .waiting

end

/-- No command but STATRD reads STATUS (R29, R33): with another one before, it comes to the same end. -/
theorem exec_sameEnd (hi : i ≠ .statrd) (s : State) (st : Status) :
    SameEnd i s st (exec i s) (exec i (s.withStatus st)) := by
  cases i
  case statrd => exact absurd rfl hi
  case nop | kld | errclr | cpp | cpn | cpa | cpb | cpg => exact .success _ 0
  case kst ks =>
    show SameEnd _ s st (finishOut s (s.readK ks)) (finishOut (s.withStatus st) (s.readK ks))
    cases s.readK ks with
    | error k => exact .failure k s.draws
    | ok v => exact .success s v
  case kmov | fval | fmodu | fmov | pgeta | pgetb | pisinf | pmov => exact .ofBind fun _ => .success _ 0
  case fpow | peq => exact .ofBind fun ⟨_, _⟩ => .success _ 0
  case fzero | finv | pgetx | pgety | liftx | keypair => exact .ofBind fun _ => .ofBind fun _ => .success _ 0
  case fnew | feq | padd | pmul | cppoint | fadd | fsub | fmul | fmont | fdiv =>
    exact .ofBind fun ⟨_, _⟩ => .ofBind fun _ => .success _ 0
  case verify => exact .ofBind fun ⟨_, _, _, _⟩ => .ofBind fun _ => .success _ 0
  case pnew => exact execPnew_sameEnd _ _ _ _ _ _ _
  case keygen => exact execKeygen_sameEnd _ _
  case sign => exact execSign_sameEnd _ _ _ _

/-- With other FLAG and VRES before, a command does the same (R29). -/
theorem exec_withFlags (h : exec i s = .next t) (b : Bool) (v : BitVec 2) :
    ∃ u, exec i (s.withFlags b v) = .next u ∧ SameFiles t u ∧ u.draws = t.draws ∧
      u.status.cc = t.status.cc ∧ u.status.errs = t.status.errs ∧ u.rngReq = t.rngReq ∧
      (i.writesFlag = true → t.status.cc = .ok → t.rngReq = false → u.status.flag = t.status.flag) ∧
      (i.writesVres = true → t.status.cc = .ok → t.rngReq = false → u.status.vres = t.status.vres) := by
  obtain ⟨u, hu⟩ := exec_next i (s.withFlags b v)
  refine ⟨u, hu, ?_⟩
  by_cases hi : i = .statrd
  · subst hi
    cases h
    cases hu
    exact ⟨⟨rfl, rfl, rfl⟩, rfl, rfl, rfl, rfl, nofun, nofun⟩
  · have hframe := exec_frame h
    have hend : SameEnd i s (s.withFlags b v).status (.next t) (.next u) := h ▸ hu ▸ exec_sameEnd hi s _
    cases hend with
    | success u' d =>
      refine ⟨⟨rfl, rfl, rfl⟩, rfl, rfl, ?_, rfl, fun hf _ _ => if_pos hf, fun hv _ _ => if_pos hv⟩
      by_cases he : i = .errclr
      · exact if_pos he
      · exact (if_neg he).trans (hframe.errs rfl he).symm
    | failure k rest => exact ⟨⟨rfl, rfl, rfl⟩, rfl, rfl, rfl, rfl, nofun, nofun⟩
    | waiting => exact ⟨⟨rfl, rfl, rfl⟩, rfl, rfl, rfl, rfl, nofun, nofun⟩

/-- With another ERRS before, a command does the same (R33). -/
theorem exec_withErrs (h : exec i s = .next t) (e : BitVec 16) :
    ∃ u, exec i (s.withErrs e) = .next u ∧ SameFiles t u ∧ u.draws = t.draws ∧
      u.status.cc = t.status.cc ∧ u.status.flag = t.status.flag ∧ u.status.vres = t.status.vres ∧
      u.rngReq = t.rngReq ∧ u.cmd = t.cmd ∧ (i ≠ .statrd → u.rsp = t.rsp) := by
  obtain ⟨u, hu⟩ := exec_next i (s.withErrs e)
  refine ⟨u, hu, ?_⟩
  by_cases hi : i = .statrd
  · subst hi
    cases h
    cases hu
    exact ⟨⟨rfl, rfl, rfl⟩, rfl, rfl, rfl, rfl, rfl, rfl, fun hn => absurd rfl hn⟩
  · have hframe := exec_frame h
    have hend : SameEnd i s (s.withErrs e).status (.next t) (.next u) := h ▸ hu ▸ exec_sameEnd hi s _
    cases hend with
    | success u' d =>
      have hflag : (writtenStatus i u'.status (s.withErrs e).status).flag = u'.status.flag := by
        cases hf : i.writesFlag with
        | true => exact if_pos hf
        | false => exact (if_neg (Bool.eq_false_iff.1 hf)).trans (hframe.flag hf).symm
      have hvres : (writtenStatus i u'.status (s.withErrs e).status).vres = u'.status.vres := by
        cases hv : i.writesVres with
        | true => exact if_pos hv
        | false => exact (if_neg (Bool.eq_false_iff.1 hv)).trans (hframe.vres hv).symm
      exact ⟨⟨rfl, rfl, rfl⟩, rfl, rfl, hflag, hvres, rfl, rfl, fun _ => by
        show some (Response.mk .ok (writtenStatus i u'.status (s.withErrs e).status).flag d) = _
        rw [hflag]; rfl⟩
    | failure k rest => exact ⟨⟨rfl, rfl, rfl⟩, rfl, rfl, rfl, rfl, rfl, rfl, fun _ => rfl⟩
    | waiting => exact ⟨⟨rfl, rfl, rfl⟩, rfl, rfl, rfl, rfl, rfl, rfl, fun _ => rfl⟩

end Sys2Proof.Machine

open Sys2Proof.Machine

/-- Settles O15: by the STATUS word bit by bit, and by the list of codes. -/
theorem statusWordLayout : Obligations.StatusWordLayout := by
  unfold Obligations.StatusWordLayout
  exact fun st => ⟨statusWord_cc st, statusWord_flag st, statusWord_vres st, (statusWord_reserved st).1,
    (statusWord_reserved st).2, fun _ => statusWord_errs st, rfl, rfl, rfl, rfl, rfl, rfl, rfl, rfl, rfl, rfl, rfl, rfl,
    rfl, code_assigned⟩

/-- Settles O16: STATRD only responds, and every other end is a success or a failure as R31 has it. -/
theorem statusUpdateAfterEveryCommand : Obligations.StatusUpdateAfterEveryCommand := by
  unfold Obligations.StatusUpdateAfterEveryCommand
  refine ⟨fun s t h => ?_, fun i s t hi h hr => ?_⟩
  · cases h
    rfl
  · rcases exec_cases h with ⟨hs, -⟩ | ⟨-, hends⟩
    · exact absurd hs hi
    · exact hends.status hr

/-- Settles O17: only a writer's success changes FLAG or VRES, and with other values of both a command comes to the same
end (`exec_sameEnd`). -/
theorem flagAndVresWritersAndReaders : Obligations.FlagAndVresWritersAndReaders := by
  unfold Obligations.FlagAndVresWritersAndReaders
  refine ⟨fun _ _ _ => exec_changes_flags, fun _ _ _ b v h => exec_withFlags h b v, fun _ _ _ => exec_rsp_flag,
    fun s => ⟨_, _, rfl, rfl, ?_, ?_⟩⟩
  · exact dout_flag s.status
  · exact dout_vres s.status

/-- Settles O18: with another ERRS a command comes to the same end (`exec_sameEnd`), and a failure is an end, which
leaves no command in hand. -/
theorem errsNeverConsulted : Obligations.ErrsNeverConsulted := by
  unfold Obligations.ErrsNeverConsulted
  refine ⟨fun _ _ _ e h => exec_withErrs h e, fun i s t k h hr _ => ?_⟩
  rcases exec_cmd h with ⟨hc, -⟩ | ⟨-, ht⟩
  · exact hc
  · rw [ht] at hr
    cases hr

end

section
/-! SUPPORT. The words of a row (30_encoding.md R84, R85): every row of the opcode map that builds well-formed commands
has `RowIs`. -/

namespace Sys2Proof

variable {r : OpRow} {w : CmdWord}

/-- The opcode of a word that matches a row is the row's: every mask covers it (R84). -/
theorem op_of_match (hr : r ∈ opRows) (h : w &&& r.mask = r.pattern) : r.op = (splitWord w).op := by
  have hmask : ∀ q ∈ opRows, q.mask.extractLsb' 24 8 = 0xFF#8 := by decide
  calc r.op = (w &&& r.mask).extractLsb' 24 8 := by rw [h]; rfl
    _ = w.extractLsb' 24 8 &&& 0xFF#8 := by rw [BitVec.extractLsb'_and, hmask r hr]
    _ = (splitWord w).op := BitVec.and_allOnes

theorem rowIs_of_mem (hr : r ∈ opRows) (hwf : ∀ f, (r.build f).wf = true) : RowIs r.pattern r.mask r.build where
  legal w h := by rw [decode_row hr (op_of_match hr h), if_pos h, if_pos (hwf _)]
  illegal w ho h := by rw [decode_row hr ho.symm, if_neg h]

/-- Row `n` of the map. -/
theorem rowIs_getElem (n : Nat) (hn : n < opRows.length) (hwf : ∀ f, (opRows[n].build f).wf = true) :
    RowIs opRows[n].pattern opRows[n].mask opRows[n].build :=
  rowIs_of_mem (List.getElem_mem hn) hwf

end Sys2Proof
end

section
/-! SUPPORT. VERIFY (49_ecdsa_engines.md R262): the arithmetic modulo `CP.n`, the result of each of its tests, and the
command's end from its operands; then the obligation. -/

namespace Sys2Proof.Machine

open Sys2Proof.Config

variable {s : State} {z r t tinv : Word} {q g1 q2 : Pt} {kz kr ks : KReg} {pq : PReg}

/-! ### Inverses and products -/

/-- The inverter answers the inverse that there is: a reduced `w` with `v * w = 1` modulo `m` (R171). -/
theorem fInv_of_mul_eq_one {v w m : Word} (hw : w.toNat < m.toNat) (h : v.toNat * w.toNat % m.toNat = 1) :
    fInv ⟨v, m⟩ = .ok ⟨w, m⟩ := by
  obtain ⟨hgcd, hdvd⟩ := euclid_spec v.toNat m.toNat
  have hcop : Nat.gcd v.toNat m.toNat = 1 := by
    have hd : Nat.gcd v.toNat m.toNat ∣ v.toNat * w.toNat % m.toNat :=
      (Nat.dvd_mod_iff (Nat.gcd_dvd_right _ _)).2 (Dvd.dvd.mul_right (Nat.gcd_dvd_left _ _) _)
    rw [h] at hd
    exact Nat.dvd_one.1 hd
  have hm : 1 < m.toNat := h ▸ Nat.mod_lt _ (by omega)
  have hvw : (v.toNat * w.toNat : Int) ≡ 1 [ZMOD m.toNat] := by
    exact_mod_cast show v.toNat * w.toNat ≡ 1 [MOD m.toNat] from h.trans (Nat.mod_eq_of_lt hm).symm
  have hvx : (v.toNat * (euclid v.toNat m.toNat).2 : Int) ≡ 1 [ZMOD m.toNat] := by
    rw [hgcd, hcop] at hdvd
    exact (Int.modEq_iff_dvd.2 hdvd).symm
  have hx : (euclid v.toNat m.toNat).2 ≡ w.toNat [ZMOD m.toNat] := by
    calc (euclid v.toNat m.toNat).2 = (euclid v.toNat m.toNat).2 * 1 := (mul_one _).symm
      _ ≡ (euclid v.toNat m.toNat).2 * (v.toNat * w.toNat) [ZMOD m.toNat] := hvw.symm.mul_left _
      _ = w.toNat * (v.toNat * (euclid v.toNat m.toNat).2) := by ring
      _ ≡ w.toNat * 1 [ZMOD m.toNat] := hvx.mul_left _
      _ = w.toNat := mul_one _
  have hred : ((reduce (euclid v.toNat m.toNat).2 m).toNat : Int) = w.toNat := by
    rw [reduce_toNat (by omega), hx.eq]
    exact Int.emod_eq_of_lt (by omega) (by omega)
  exact fInv_eq_ok.2 ⟨hgcd.trans hcop, by rw [BitVec.eq_of_toNat_eq (Int.ofNat_inj.1 hred)]⟩

/-- `x *n y` (R260) as a remainder. -/
theorem mulN_toNat (x y : Word) : (mulN x y).toNat = x.toNat * y.toNat % cpN.toNat := by
  rw [← reduce_natCast cpN_pos, Nat.cast_mul]
  rfl

theorem eq_reduce_iff {x : Word} : r = reduce x.toNat cpN ↔ r.toNat = x.toNat % cpN.toNat := by
  rw [← reduce_natCast cpN_pos]
  exact ⟨fun h => congrArg BitVec.toNat h, BitVec.eq_of_toNat_eq⟩

/-! ### The tests -/

theorem verifySig_badShape (h : ¬ (Accepted r ∧ Accepted t)) : verifySig z r t q = .ok .badShape := by
  rw [verifySig, if_neg]
  rwa [Bool.and_eq_true, inScalarRange_iff, inScalarRange_iff]

theorem verifySig_curveMismatch (hr : Accepted r) (ht : Accepted t) (hq : q.curve ≠ (0, 7, cpP)) :
    verifySig z r t q = .error .curveMismatch := by
  rw [verifySig, if_pos, if_pos hq]
  rw [inScalarRange_iff.2 hr, inScalarRange_iff.2 ht, Bool.and_self]

theorem verifySig_equation (hr : Accepted r) (ht : Accepted t) (hq : q.curve = (0, 7, cpP)) :
    verifySig z r t q = verifyEquation z r t q := by
  rw [verifySig, if_pos, if_neg (not_not.2 hq)]
  rw [inScalarRange_iff.2 hr, inScalarRange_iff.2 ht, Bool.and_self]

/-- What the sum `u1*G + u2*Q` says of the signature (R262, step 5). -/
def sumResult (r : Word) : Pt → VerifyResult
  | .inf _ _ _ => .atInfinity
  | .aff x _ _ _ _ => if r = reduce x.toNat cpN then .valid else .unequal

/-- The result of R262's equation, from the inverse of `t`, the two multiples and their sum. -/
theorem verifyEquation_eq {u1 u2 : Word} {p : Pt} (hi : tinv.toNat < cpN.toNat)
    (hti : t.toNat * tinv.toNat % cpN.toNat = 1) (hu1 : u1.toNat = z.toNat % cpN.toNat * tinv.toNat % cpN.toNat)
    (hu2 : u2.toNat = r.toNat * tinv.toNat % cpN.toNat) (h1 : scalarMul cpG u1 = .ok g1)
    (h2 : scalarMul q u2 = .ok q2) (hp : pAdd g1 q2 = .ok p) : verifyEquation z r t q = .ok (sumResult r p) := by
  have e1 : mulN (reduce z.toNat cpN) tinv = u1 := BitVec.eq_of_toNat_eq (by
    rw [mulN_toNat, reduce_natCast cpN_pos, hu1])
  have e2 : mulN r tinv = u2 := BitVec.eq_of_toNat_eq (by rw [mulN_toNat, hu2])
  unfold verifyEquation
  rw [fInv_of_mul_eq_one hi hti, ok_bind, e1, e2]
  dsimp only
  rw [h1, ok_bind, h2, ok_bind, hp, ok_bind]
  cases p <;> rfl

/-! ### The command -/

/-- VERIFY with valid sources ends as R262's tests say. -/
theorem exec_verify (hz : s.readK kz = .ok z) (hr : s.readK kr = .ok r) (ht : s.readK ks = .ok t)
    (hq : s.readP pq = .ok q) : exec (.verify kz kr ks pq) s =
      finish s (verifySig z r t q >>= fun v => .ok (s.setVerify v)) := by
  simp only [exec, execVerify, readKKKP_eq_ok.2 ⟨hz, hr, ht, hq⟩, ok_bind]
  rfl

theorem exec_verify_invalid (h : s.readK kz = .error .regInvalid ∨ s.readK kr = .error .regInvalid ∨
    s.readK ks = .error .regInvalid ∨ s.readP pq = .error .regInvalid) :
    exec (.verify kz kr ks pq) s = .next (s.raise .regInvalid) := by
  refine exec_invalidSource rfl ?_
  rcases h with h | h | h | h
  · exact .inl ⟨kz, by simp [Instr.srcK], h⟩
  · exact .inl ⟨kr, by simp [Instr.srcK], h⟩
  · exact .inl ⟨ks, by simp [Instr.srcK], h⟩
  · exact .inr (.inr ⟨pq, by simp [Instr.srcP], h⟩)

end Sys2Proof.Machine

open Sys2Proof Sys2Proof.Machine

/-- Settles O58: by the row of VERIFY, its invalid sources, and `exec_verify` with the result of each test. -/
theorem verifyVerifies : Obligations.VerifyVerifies := by
  unfold Obligations.VerifyVerifies
  refine ⟨rowIs_getElem 39 (by decide) fun _ => rfl, fun _ _ _ _ _ => exec_verify_invalid,
    fun kz kr ks pq s z r t q hz hr ht hq => ?_⟩
  rw [exec_verify hz hr ht hq]
  refine ⟨fun hs => ?_, fun har hat hc => ?_, fun tinv u1 u2 g1 q2 har hat hc hi hti hu1 hu2 h1 h2 => ?_⟩
  · rw [verifySig_badShape hs]
    rfl
  · rw [verifySig_curveMismatch har hat hc]
    rfl
  · have hsum (p : Pt) (hp : pAdd g1 q2 = .ok p) : verifySig z r t q = .ok (sumResult r p) :=
      (verifySig_equation har hat hc).trans (verifyEquation_eq hi hti hu1 hu2 h1 h2 hp)
    refine ⟨fun a b m hp => ?_, fun x y a b m hp => ⟨fun hx => ?_, fun hx => ?_⟩⟩
    · rw [hsum _ hp]
      rfl
    · rw [hsum _ hp, sumResult, if_pos (eq_reduce_iff.2 hx)]
      rfl
    · rw [hsum _ hp, sumResult, if_neg (mt eq_reduce_iff.1 hx)]
      rfl

end

section
/-! SUPPORT. Commands and responses (20_memory.md R64, R65, R74): the steps that run a command in hand or one placed
with `present`, what a response carries, and that only KLD sees `DIN`; then the obligations. -/

namespace Sys2Proof.Machine

variable {i : Instr} {s t : State} {w : CmdWord} {d : Word} {r : Response}

/-! ### Steps that run a command -/

/-- A command in hand runs from its beginning when there is a draw and the host does not reset (R74, logs 3, 18). -/
theorem step_resumes (hc : s.cmd = some w) (hd : s.draws ≠ [])
    (hh : s.host = [] ∨ ∃ c x rest, s.host = .command c x :: rest) (hw : decode w = .ok i) :
    step s = exec i (s.take w s.din) := by
  have hf : fetch s = issue w s.din s := by
    rcases hh with hh | ⟨c, x, rest, hh⟩ <;> simp only [fetch, hc, busy, hh, resume, if_neg hd]
  simp only [step, hf, issue, hw]

/-- A word placed with `present` is the next command taken, in any state (log 13). -/
theorem step_present (hw : decode w = .ok i) : step (s.present w) = exec i (s.take w s.din) :=
  step_command (s := s.present w) rfl rfl hw

/-! ### What a response carries -/

/-- The response of every end but STATRD's: the code STATUS has, and a `DOUT` only from a KST that succeeds. -/
theorem Ends.response (h : Ends i s t) (hr : t.rngReq = false) (hrsp : t.rsp = some r) :
    r.cc = t.status.cc ∧ (r.dout ≠ 0 → r.cc = .ok ∧ ∃ ks, i = .kst ks) := by
  cases h with
  | success u v _ out ht => subst ht; cases hrsp; exact ⟨rfl, fun hv => ⟨rfl, out hv⟩⟩
  | failure k rest _ _ _ ht => subst ht; cases hrsp; exact ⟨rfl, fun hv => absurd rfl hv⟩
  | waiting _ ht => subst ht; cases hr

theorem exec_statrd_response (h : exec .statrd s = .next t) (hrsp : t.rsp = some r) :
    r.cc = .ok ∧ r.dout = s.status.word.setWidth 256 := by
  cases h
  cases hrsp
  exact ⟨rfl, rfl⟩

theorem exec_kst_response {ks : KReg} (h : exec (.kst ks) s = .next t) (hrsp : t.rsp = some r) (hc : r.cc = .ok) :
    s.readK ks = .ok r.dout := by
  rcases finishOut_cases h with ⟨v, hv, rfl⟩ | ⟨k, -, rfl⟩
  · cases hrsp; exact hv
  · cases hrsp; cases hc

/-- The response of every command that ends (R64). -/
theorem exec_response (h : exec i s = .next t) (hr : t.rngReq = false) (hrsp : t.rsp = some r) :
    (i ≠ .statrd → r.cc = t.status.cc) ∧
    (i = .statrd → r.cc = .ok ∧ r.dout = s.status.word.setWidth 256) ∧
    (∀ ks, i = .kst ks → r.cc = .ok → s.readK ks = .ok r.dout) ∧
    (r.cc ≠ .ok ∨ (i ≠ .statrd ∧ ∀ ks, i ≠ .kst ks) → r.dout = 0) := by
  refine ⟨fun hi => ?_, fun hi => ?_, fun ks hi hc => ?_, fun hzero => ?_⟩
  · rcases exec_cases h with ⟨hs, -⟩ | ⟨-, hends⟩
    · exact absurd hs hi
    · exact (hends.response hr hrsp).1
  · subst hi; exact exec_statrd_response h hrsp
  · subst hi; exact exec_kst_response h hrsp hc
  · by_contra hv
    rcases exec_cases h with ⟨rfl, -⟩ | ⟨-, hends⟩
    · rcases hzero with hc | ⟨hi, -⟩
      · exact hc (exec_statrd_response h hrsp).1
      · exact hi rfl
    · obtain ⟨hok, ks, hks⟩ := (hends.response hr hrsp).2 hv
      rcases hzero with hc | ⟨-, hi⟩
      · exact hc hok
      · exact hi ks hks

/-! ### Only KLD sees DIN -/

/-- `s` with another value on the `DIN` port. -/
def State.withDin (s : State) (d : Word) : State := { s with din := d }

/-- Two next states that differ in `DIN` only, the second with `d` there. -/
inductive SameButDin (d : Word) : Outcome → Outcome → Prop
  | next (t : State) : SameButDin d (.next t) (.next (t.withDin d))

/-- A rule that goes on after a part that does not see `DIN`. -/
theorem SameButDin.ofBind {α : Type} {x : Except Failure α} {g g' : α → Except Failure State}
    (h : ∀ a, SameButDin d (finish s (g a)) (finish (s.withDin d) (g' a))) :
    SameButDin d (finish s (x >>= g)) (finish (s.withDin d) (x >>= g')) := by
  cases x with
  | error k => exact .next _
  | ok a => exact h a

theorem execPnew_sameButDin (pd : PReg) (fx fy fa fb : FReg) (xp yp : Bool) :
    SameButDin d (execPnew pd fx fy fa fb xp yp s) (execPnew pd fx fy fa fb xp yp (s.withDin d)) := by
  cases xp <;> cases yp
  · exact .ofBind fun ⟨_, _⟩ => .ofBind fun _ => .next _
  · exact .next _
  · exact .next _
  · exact .ofBind fun ⟨_, _, _, _⟩ => .ofBind fun _ => .next _

theorem execKeygen_sameButDin (pq : PReg) (kd : KReg) :
    SameButDin d (execKeygen pq kd s) (execKeygen pq kd (s.withDin d)) := by
  have hd : (s.withDin d).draws = s.draws := rfl
  unfold execKeygen
  rw [hd]
  cases sampleScalar s.draws with
  | none => exact .next _
  | some c => exact .ofBind (s := s.withDraws c.2) fun _ => .next _

theorem execSign_sameButDin (kr ks kz kd : KReg) :
    SameButDin d (execSign kr ks kz kd s) (execSign kr ks kz kd (s.withDin d)) := by
  have hd : (s.withDin d).draws = s.draws := rfl
  have hop : signOperands kr ks kz kd (s.withDin d) = signOperands kr ks kz kd s := rfl
  unfold execSign
  rw [hop, hd]
  cases signOperands kr ks kz kd s with
  | error k => exact .next _
  | ok zd =>
    dsimp only
    cases signLoop zd.1 zd.2 s.draws <;> exact .next _

/-- No command but KLD reads `DIN` (R64, R101). -/
theorem exec_sameButDin (hi : ∀ kd, i ≠ .kld kd) (s : State) (d : Word) :
    SameButDin d (exec i s) (exec i (s.withDin d)) := by
  cases i
  case kld kd => exact absurd rfl (hi kd)
  case nop | statrd | errclr | cpp | cpn | cpa | cpb | cpg => exact .next _
  case kst ks =>
    show SameButDin d (finishOut s (s.readK ks)) (finishOut (s.withDin d) (s.readK ks))
    cases s.readK ks <;> exact .next _
  case kmov | fval | fmodu | fmov | pgeta | pgetb | pisinf | pmov => exact .ofBind fun _ => .next _
  case fpow | peq => exact .ofBind fun ⟨_, _⟩ => .next _
  case fzero | finv | pgetx | pgety | liftx | keypair => exact .ofBind fun _ => .ofBind fun _ => .next _
  case fnew | feq | padd | pmul | cppoint | fadd | fsub | fmul | fmont | fdiv =>
    exact .ofBind fun ⟨_, _⟩ => .ofBind fun _ => .next _
  case verify => exact .ofBind fun ⟨_, _, _, _⟩ => .ofBind fun _ => .next _
  case pnew => exact execPnew_sameButDin _ _ _ _ _ _ _
  case keygen => exact execKeygen_sameButDin _ _
  case sign => exact execSign_sameButDin _ _ _ _

theorem exec_withDin (hi : ∀ kd, i ≠ .kld kd) (h : exec i s = .next t) (d : Word) :
    exec i (s.withDin d) = .next (t.withDin d) := by
  have hsame := exec_sameButDin hi s d
  rw [h] at hsame
  generalize exec i (s.withDin d) = o at hsame ⊢
  cases hsame
  rfl

end Sys2Proof.Machine

open Sys2Proof.Machine

/-- Settles O19: by the response of each end of a command, STATRD's and KST's apart, and because no other command than
KLD reads `DIN` (`exec_sameButDin`). -/
theorem responseDinAndDout : Obligations.ResponseDinAndDout := by
  unfold Obligations.ResponseDinAndDout
  refine ⟨fun i s t h hr => ?_, fun _ _ _ d hi h => exec_withDin hi h d⟩
  obtain ⟨r, hrsp, hflag⟩ := exec_rsp_flag h hr
  exact ⟨r, hrsp, hflag, exec_response h hr hrsp⟩

/-- Settles O5: by the step of a presented word, of a command in hand and of a word placed with `present`. -/
theorem stepRunsTheDecodedCommand : Obligations.StepRunsTheDecodedCommand := by
  unfold Obligations.StepRunsTheDecodedCommand
  exact ⟨fun _ _ _ _ _ => step_command, fun _ _ _ => step_resumes, fun _ _ _ => step_present⟩

end

section
/-! SUPPORT. Words and commands (30_encoding.md R80 to R86): the row of a word that decodes, the word of the command a
row builds, and when that command is well formed; then the obligations. -/

namespace Sys2Proof

variable {i : Instr} {r : OpRow} {w : CmdWord}

/-! ### From a command to its word and back -/

open Laws.EncodesRow in
/-- The word of every command matches a row of its opcode, which builds the command (R84). -/
theorem encodesRow : ∀ i : Instr, Statement i
  | .nop => nop
  | .kld _ => kld _
  | .kst _ => kst _
  | .kmov _ _ => kmov _ _
  | .statrd => statrd
  | .errclr => errclr
  | .fnew _ _ _ => fnew _ _ _
  | .fzero _ _ => fzero _ _
  | .fval _ _ => fval _ _
  | .fmodu _ _ => fmodu _ _
  | .fmov _ _ => fmov _ _
  | .feq _ _ => feq _ _
  | .fadd _ _ _ => fadd _ _ _
  | .fsub _ _ _ => fsub _ _ _
  | .fmul _ _ _ => fmul _ _ _
  | .fmont _ _ _ => fmont _ _ _
  | .fpow _ _ _ => fpow _ _ _
  | .finv _ _ => finv _ _
  | .fdiv _ _ _ => fdiv _ _ _
  | .pnew _ _ _ _ _ _ _ => pnew _ _ _ _ _ _ _
  | .pgetx _ _ => pgetx _ _
  | .pgety _ _ => pgety _ _
  | .pgeta _ _ => pgeta _ _
  | .pgetb _ _ => pgetb _ _
  | .pisinf _ => pisinf _
  | .peq _ _ => peq _ _
  | .pmov _ _ => pmov _ _
  | .padd _ _ _ => padd _ _ _
  | .pmul _ _ _ => pmul _ _ _
  | .cpp _ => cpp _
  | .cpn _ => cpn _
  | .cpa _ => cpa _
  | .cpb _ => cpb _
  | .cpg _ => cpg _
  | .cppoint _ _ _ => cppoint _ _ _
  | .liftx _ _ => liftx _ _
  | .keypair _ _ => keypair _ _
  | .keygen _ _ => keygen _ _
  | .sign _ _ _ _ => sign _ _ _ _
  | .verify _ _ _ _ => verify _ _ _ _

theorem splitWord_encode (i : Instr) : splitWord (encode i) = encodeFields i := splitWord_joinWord _

theorem decode_encode (hwf : i.wf = true) : decode (encode i) = .ok i := by
  obtain ⟨r, hr, hop, hmask, hbuild⟩ := encodesRow i
  rw [decode_row hr (by rw [splitWord_encode, hop]), if_pos hmask, splitWord_encode, hbuild, if_pos hwf]

/-! ### From a word to its command and back -/

/-- A word that decodes matches a row and is the command the row builds of its fields (R85). -/
theorem row_of_decode (h : decode w = .ok i) :
    ∃ r ∈ opRows, w &&& r.mask = r.pattern ∧ r.build (splitWord w) = i := by
  by_cases hrow : ∃ r ∈ opRows, r.op = (splitWord w).op
  · obtain ⟨r, hr, hop⟩ := hrow
    rw [decode_row hr hop] at h
    split_ifs at h with hmatch hwf
    cases h
    exact ⟨r, hr, hmatch, rfl⟩
  · rw [decode_no_row fun r hr hop => hrow ⟨r, hr, hop⟩] at h
    cases h

/-- A used field is kept whole by its row's complemented mask. -/
theorem and_fifteen (x : BitVec 4) : x &&& 15#4 = x := BitVec.and_allOnes

/-- PNEW's mode field is its two presence bits; the mask clears the upper two (R82). -/
theorem modeBits_getElem (w : CmdWord) : modeBits w[1] w[0] = w.extractLsb' 0 4 &&& 3#4 := by
  have hbits : ∀ x : BitVec 4, modeBits x[1] x[0] = x &&& 3#4 := by decide
  simpa using hbits (w.extractLsb' 0 4)

/-- Row by row of the map, the fields of the command it builds of `w`: those of `w` where the row's mask is free, the
row's opcode, and 0 elsewhere (R84). -/
theorem encodeFields_build : ∀ r ∈ opRows,
    encodeFields (r.build (splitWord w)) = splitWord (w &&& ~~~r.mask ||| r.pattern) := by
  simp [opRows, rowsInterface, rowsField, rowsPoint, rowsCurve, encodeFields, splitWord, BitVec.extractLsb'_and,
    BitVec.extractLsb'_or, and_fifteen, modeBits_getElem]

theorem encode_build (hr : r ∈ opRows) : encode (r.build (splitWord w)) = w &&& ~~~r.mask ||| r.pattern := by
  rw [encode, encodeFields_build r hr, joinWord_splitWord]

/-- A word that decodes is the word of its command: it is free only where its row's mask is, and there the command keeps
it. -/
theorem encode_of_decode (h : decode w = .ok i) : encode i = w := by
  obtain ⟨r, hr, hmatch, rfl⟩ := row_of_decode h
  calc encode (r.build (splitWord w)) = w &&& ~~~r.mask ||| w &&& r.mask := by rw [encode_build hr, hmatch]
    _ = w &&& (~~~r.mask ||| r.mask) := BitVec.and_or_distrib_left.symm
    _ = w &&& BitVec.allOnes 32 := by rw [BitVec.or_comm, BitVec.or_not_self]
    _ = w := BitVec.and_allOnes

/-! ### The opcode map's cases -/

/-- SIGN with one destination is the only command a row builds that has no word (R85, step 3). -/
theorem wf_build (f : Fields) : ∀ r ∈ opRows, (r.build f).wf = true ↔ ¬ (r.op = 0x52 ∧ f.a = f.b) := by
  simp [opRows, rowsInterface, rowsField, rowsPoint, rowsCurve, OpRow.op, Instr.wf]

end Sys2Proof

open Sys2Proof Sys2Proof.Machine

/-- Settles O1: the word of a command matches the row that builds the command of its fields. -/
theorem decodeEncodeRoundTrip : Obligations.DecodeEncodeRoundTrip := by
  unfold Obligations.DecodeEncodeRoundTrip
  exact fun _ => decode_encode

/-- Settles O2: the command of a word takes every field its row's mask leaves free. -/
theorem encodeDecodeRoundTrip : Obligations.EncodeDecodeRoundTrip := by
  unfold Obligations.EncodeDecodeRoundTrip
  exact fun _ _ h => ⟨encode_of_decode h, decode_wf h⟩

/-- Settles O3: by `decode` on a word of a row's opcode, `wf_build`, and the step of a word that does not decode. -/
theorem decodingFollowsTheOpcodeMap : Obligations.DecodingFollowsTheOpcodeMap := by
  unfold Obligations.DecodingFollowsTheOpcodeMap
  refine ⟨fun _ => decode_no_row, fun w r hr hop hm => ?_, fun w r hr hm hop hab => ?_, fun w r hr hm hsign => ?_,
    fun _ _ _ _ _ => step_illegalCommand⟩
  · rw [decode_row hr hop, if_neg hm]
  · rw [decode_row hr (op_of_match hr hm), if_pos hm, if_neg fun hwf => (wf_build _ r hr).1 hwf ⟨hop, hab⟩]
  · rw [decode_row hr (op_of_match hr hm), if_pos hm, if_pos ((wf_build _ r hr).2 hsign)]

/-- Settles O6: by the state a failure leaves, whose ERRS is `getLsbD_errs_raise`. -/
theorem illegalWordIsOnlyRecorded : Obligations.IllegalWordIsOnlyRecorded := by
  unfold Obligations.IllegalWordIsOnlyRecorded
  intro s w d rest e hc hh hw
  exact ⟨_, step_illegalCommand hc hh hw, ⟨rfl, rfl, rfl⟩, rfl, getLsbD_errs_raise _ _, rfl, rfl, rfl, rfl, rfl,
    rfl, rfl⟩

/-- Settles O4: by the decoding of each word. -/
theorem sampleWordsDecode : Obligations.SampleWordsDecode := by
  unfold Obligations.SampleWordsDecode
  decide

end

section
/-! SUPPORT. NOP, STATRD, ERRCLR, KLD, KST and KMOV (40_system_and_scalar_regs.md R100 to R105): the end of each command
from its operand; then the obligations. -/

namespace Sys2Proof.Machine

variable {kd ks : KReg} {s : State} {v : Word}

/-! ### Commands without a register source -/

theorem exec_nop (s : State) : exec .nop s = .next s.complete := rfl

/-- STATRD only responds: STATUS is no part of what a response writes (R104). -/
theorem exec_statrd (s : State) : exec .statrd s = .next (s.respond .ok (s.status.word.setWidth 256)) := rfl

theorem exec_errclr (s : State) : exec .errclr s = .next s.clearErrs.complete := rfl

theorem exec_kld (kd : KReg) (s : State) : exec (.kld kd) s = .next (s.writeK kd s.din).complete := rfl

/-! ### KST and KMOV from their source -/

/-- A rule goes on with the value of its first part. -/
theorem finish_bind_ok {α : Type} {x : Except Failure α} {g : α → Except Failure State} {a : α} (h : x = .ok a) :
    finish s (x >>= g) = finish s (g a) := by rw [h, ok_bind]

theorem exec_kst (h : s.readK ks = .ok v) : exec (.kst ks) s = .next (s.completeWith v) :=
  congrArg (finishOut s) h

theorem exec_kst_invalid (h : s.readK ks = .error .regInvalid) : exec (.kst ks) s = .next (s.raise .regInvalid) :=
  exec_invalidSource rfl (.inl ⟨ks, List.mem_singleton.2 rfl, h⟩)

theorem exec_kmov (h : s.readK ks = .ok v) : exec (.kmov kd ks) s = .next (s.writeK kd v).complete :=
  finish_bind_ok h

theorem exec_kmov_invalid (h : s.readK ks = .error .regInvalid) :
    exec (.kmov kd ks) s = .next (s.raise .regInvalid) :=
  exec_invalidSource rfl (.inl ⟨ks, List.mem_singleton.2 rfl, h⟩)

end Sys2Proof.Machine

open Sys2Proof Sys2Proof.Machine

/-- Settles O29: by the rows of the three commands, and the end of each with its state written out. -/
theorem nopStatrdErrclr : Obligations.NopStatrdErrclr := by
  unfold Obligations.NopStatrdErrclr
  exact ⟨rowIs_getElem 0 (by decide) fun _ => rfl, rowIs_getElem 4 (by decide) fun _ => rfl,
    rowIs_getElem 5 (by decide) fun _ => rfl, exec_nop, exec_statrd, exec_errclr⟩

/-- Settles O30: by the rows of the three commands, and the end of each for a valid and for an invalid source. -/
theorem kldKstKmov : Obligations.KldKstKmov := by
  unfold Obligations.KldKstKmov
  exact ⟨rowIs_getElem 1 (by decide) fun _ => rfl, rowIs_getElem 2 (by decide) fun _ => rfl,
    rowIs_getElem 3 (by decide) fun _ => rfl, exec_kld, fun _ _ _ => exec_kst, fun _ _ => exec_kst_invalid,
    fun _ _ _ _ => exec_kmov, fun _ _ _ => exec_kmov_invalid⟩

end

section
/-! SUPPORT. FNEW, FZERO, FVAL, FMODU, FMOV and FEQ (41_field_element_regs.md R120 to R127): construction of an element
and comparison of two, the end of each command from its operands; then the obligations. -/

namespace Sys2Proof.Machine

variable {kd kv km : KReg} {fd fs fs1 fs2 : FReg} {s : State} {v m : Word} {e a b : FE}

/-! ### Construction -/

/-- The moduli FNew refuses (R120): the even ones and those below 3. -/
theorem modulusOk_eq_false_iff : modulusOk m = false ↔ m.toNat % 2 = 0 ∨ m.toNat < 3 := by
  rw [← Bool.not_eq_true, modulusOk_iff]
  omega

theorem reduce_zero (m : Word) : reduce 0 m = 0 := by
  rw [reduce, Int.zero_emod]
  rfl

/-- The part FNEW and FZERO share (R121): the new element is written. -/
theorem finish_fNew_ok (hm : modulusOk m = true) :
    finish s (fNew v m >>= fun e => pure (s.writeF fd e)) = .next (s.writeF fd ⟨reduce v.toNat m, m⟩).complete :=
  finish_bind_ok (fNew_eq_ok.2 ⟨hm, rfl⟩)

/-- … or the modulus is refused. -/
theorem finish_fNew_badModulus (hm : modulusOk m = false) :
    finish s (fNew v m >>= fun e => pure (s.writeF fd e)) = .next (s.raise .badModulus) :=
  finish_bind_error (fNew_eq_error.2 ⟨hm, rfl⟩)

theorem exec_fnew (hv : s.readK kv = .ok v) (hm : s.readK km = .ok m) :
    exec (.fnew fd kv km) s = finish s (fNew v m >>= fun e => pure (s.writeF fd e)) :=
  finish_bind_ok (readKK_eq_ok.2 ⟨hv, hm⟩)

theorem exec_fnew_invalid (h : s.readK kv = .error .regInvalid ∨ s.readK km = .error .regInvalid) :
    exec (.fnew fd kv km) s = .next (s.raise .regInvalid) :=
  exec_invalidSource rfl (.inl (by simpa [Instr.srcK] using h))

theorem exec_fzero (hm : s.readK km = .ok m) :
    exec (.fzero fd km) s = finish s (fNew 0 m >>= fun e => pure (s.writeF fd e)) :=
  finish_bind_ok hm

theorem exec_fzero_ok (hr : s.readK km = .ok m) (hm : modulusOk m = true) :
    exec (.fzero fd km) s = .next (s.writeF fd ⟨0, m⟩).complete := by
  calc exec (.fzero fd km) s
    _ = .next (s.writeF fd ⟨reduce 0 m, m⟩).complete := (exec_fzero hr).trans (finish_fNew_ok hm)
    _ = .next (s.writeF fd ⟨0, m⟩).complete := by rw [reduce_zero]

theorem exec_fzero_invalid (h : s.readK km = .error .regInvalid) :
    exec (.fzero fd km) s = .next (s.raise .regInvalid) :=
  exec_invalidSource rfl (.inl ⟨km, List.mem_singleton.2 rfl, h⟩)

/-! ### Copies -/

theorem exec_fval (h : s.readF fs = .ok e) : exec (.fval kd fs) s = .next (s.writeK kd e.value).complete :=
  finish_bind_ok h

theorem exec_fmodu (h : s.readF fs = .ok e) : exec (.fmodu kd fs) s = .next (s.writeK kd e.modulus).complete :=
  finish_bind_ok h

theorem exec_fmov (h : s.readF fs = .ok e) : exec (.fmov fd fs) s = .next (s.writeF fd e).complete :=
  finish_bind_ok h

/-- A command whose only source is an F register that is invalid. -/
theorem exec_invalidF {i : Instr} (hwf : i.wf = true) (hi : i.srcF = [fs]) (h : s.readF fs = .error .regInvalid) :
    exec i s = .next (s.raise .regInvalid) :=
  exec_invalidSource hwf (.inr (.inl ⟨fs, by rw [hi]; exact List.mem_singleton.2 rfl, h⟩))

/-! ### Comparison -/

theorem fEq_eq_ok {r : Bool} : fEq a b = .ok r ↔ a.modulus = b.modulus ∧ r = decide (a.value = b.value) := by
  rw [fEq, ite_ok_eq_ok, sameField_iff, beq_eq_decide]

theorem fEq_eq_error {k : Failure} : fEq a b = .error k ↔ a.modulus ≠ b.modulus ∧ k = .fieldMismatch := by
  rw [fEq, ite_ok_eq_error, sameField_iff]

theorem exec_feq (ha : s.readF fs1 = .ok a) (hb : s.readF fs2 = .ok b) :
    exec (.feq fs1 fs2) s = finish s (fEq a b >>= fun r => pure (s.setFlag r)) :=
  finish_bind_ok (readFF_eq_ok.2 ⟨ha, hb⟩)

theorem exec_feq_sameField (ha : s.readF fs1 = .ok a) (hb : s.readF fs2 = .ok b) (h : a.modulus = b.modulus) :
    exec (.feq fs1 fs2) s = .next (s.setFlag (decide (a.value = b.value))).complete :=
  (exec_feq ha hb).trans (finish_bind_ok (fEq_eq_ok.2 ⟨h, rfl⟩))

theorem exec_feq_fieldMismatch (ha : s.readF fs1 = .ok a) (hb : s.readF fs2 = .ok b) (h : a.modulus ≠ b.modulus) :
    exec (.feq fs1 fs2) s = .next (s.raise .fieldMismatch) :=
  (exec_feq ha hb).trans (finish_bind_error (fEq_eq_error.2 ⟨h, rfl⟩))

theorem exec_feq_invalid (h : s.readF fs1 = .error .regInvalid ∨ s.readF fs2 = .error .regInvalid) :
    exec (.feq fs1 fs2) s = .next (s.raise .regInvalid) :=
  exec_invalidSource rfl (.inr (.inl (by simpa [Instr.srcF] using h)))

end Sys2Proof.Machine

open Sys2Proof Sys2Proof.Machine

/-- Settles O31: by the rows of the two commands, and what FNew makes of an accepted and of a refused modulus. -/
theorem fnewFzeroConstruct : Obligations.FnewFzeroConstruct := by
  unfold Obligations.FnewFzeroConstruct
  refine ⟨rowIs_getElem 6 (by decide) fun _ => rfl, rowIs_getElem 7 (by decide) fun _ => rfl,
    fun fd kv km s v m hv hm hodd hge => ?accepted, fun fd kv km s v m hv hm hbad => ?refused,
    fun _ _ _ _ => exec_fnew_invalid, fun fd km s m hm hodd hge => ?zero, fun fd km s m hm hbad => ?zeroRefused,
    fun _ _ _ => exec_fzero_invalid⟩
  case accepted =>
    exact ⟨reduce v.toNat m, reduce_natCast (by omega) _,
      (exec_fnew hv hm).trans (finish_fNew_ok (modulusOk_iff.2 ⟨hodd, hge⟩))⟩
  case refused => exact (exec_fnew hv hm).trans (finish_fNew_badModulus (modulusOk_eq_false_iff.2 hbad))
  case zero => exact exec_fzero_ok hm (modulusOk_iff.2 ⟨hodd, hge⟩)
  case zeroRefused => exact (exec_fzero hm).trans (finish_fNew_badModulus (modulusOk_eq_false_iff.2 hbad))

/-- Settles O32: by the rows of the three commands, and the end of each for a valid and for an invalid source. -/
theorem fvalFmoduFmovCopy : Obligations.FvalFmoduFmovCopy := by
  unfold Obligations.FvalFmoduFmovCopy
  exact ⟨rowIs_getElem 8 (by decide) fun _ => rfl, rowIs_getElem 9 (by decide) fun _ => rfl,
    rowIs_getElem 10 (by decide) fun _ => rfl, fun _ _ _ _ _ h => ⟨exec_fval h, exec_fmodu h, exec_fmov h⟩,
    fun _ _ _ _ h => ⟨exec_invalidF rfl rfl h, exec_invalidF rfl rfl h, exec_invalidF rfl rfl h⟩⟩

/-- Settles O33: by the row of FEQ, and its end in one field, across fields and for an invalid source. -/
theorem feqComparesInOneField : Obligations.FeqComparesInOneField := by
  unfold Obligations.FeqComparesInOneField
  exact ⟨rowIs_getElem 11 (by decide) fun _ => rfl, fun _ _ _ _ _ => exec_feq_sameField,
    fun _ _ _ _ _ => exec_feq_fieldMismatch, fun _ _ _ => exec_feq_invalid⟩

end

section
/-! SUPPORT. FADD and FSUB (42_field_adder_subtracter.md R140 to R143): the units' one conditional correction is the
remainder, and the end of a command over two F sources from the result of its unit; then the obligations. -/

namespace Sys2Proof.Machine

variable {fd fs1 fs2 : FReg} {s : State} {e a b : FE} {op : FE → FE → Except Failure FE} {k : Failure}

/-! ### The units -/

/-- One conditional subtraction is enough: the sum of two values below `m` is below `2 * m` (R140). -/
theorem adderUnit_eq_mod {x y m : Nat} (hx : x < m) (hy : y < m) : adderUnit x y m = (x + y) % m := by
  rw [adderUnit]
  split
  case isTrue h => rw [Nat.mod_eq_sub_mod h, Nat.mod_eq_of_lt (by omega)]
  case isFalse h => rw [Nat.mod_eq_of_lt (by omega)]

/-- One conditional addition is enough: the difference of two values below `m` is above `-m` (R141). -/
theorem subtracterUnit_eq_emod {x y m : Nat} (hx : x < m) (hy : y < m) :
    subtracterUnit x y m = ((x : Int) - y) % m := by
  rw [subtracterUnit]
  split
  case isTrue h => rw [← Int.add_emod_right, Int.emod_eq_of_lt (by omega) (by omega)]
  case isFalse h => rw [Int.emod_eq_of_lt (by omega) (by omega)]

theorem fAdd_eq_error : fAdd a b = .error k ↔ a.modulus ≠ b.modulus ∧ k = .fieldMismatch := by
  rw [fAdd, ite_ok_eq_error, sameField_iff]

theorem fSub_eq_error : fSub a b = .error k ↔ a.modulus ≠ b.modulus ∧ k = .fieldMismatch := by
  rw [fSub, ite_ok_eq_error, sameField_iff]

/-! ### A command over two F sources -/

theorem fieldBinary_reads (ha : s.readF fs1 = .ok a) (hb : s.readF fs2 = .ok b) :
    fieldBinary op fd fs1 fs2 s = finish s (op a b >>= fun e => pure (s.writeF fd e)) :=
  finish_bind_ok (readFF_eq_ok.2 ⟨ha, hb⟩)

theorem fieldBinary_ok (ha : s.readF fs1 = .ok a) (hb : s.readF fs2 = .ok b) (h : op a b = .ok e) :
    fieldBinary op fd fs1 fs2 s = .next (s.writeF fd e).complete :=
  (fieldBinary_reads ha hb).trans (finish_bind_ok h)

theorem fieldBinary_error (ha : s.readF fs1 = .ok a) (hb : s.readF fs2 = .ok b) (h : op a b = .error k) :
    fieldBinary op fd fs1 fs2 s = .next (s.raise k) :=
  (fieldBinary_reads ha hb).trans (finish_bind_error h)

theorem fieldBinary_invalid (h : s.readF fs1 = .error .regInvalid ∨ s.readF fs2 = .error .regInvalid) :
    fieldBinary op fd fs1 fs2 s = .next (s.raise .regInvalid) :=
  finish_bind_error (readFF_invalid (.inr (.inl (by simpa using h))))

/-! ### FADD and FSUB -/

/-- FADD in one field leaves the sum's remainder, which is what the adder forms (R140, R142). -/
theorem exec_fadd_sameField (ha : s.readF fs1 = .ok a) (hb : s.readF fs2 = .ok b) (oka : FeOk a) (okb : FeOk b)
    (hm : a.modulus = b.modulus) :
    ∃ v : Word, v.toNat = (a.value.toNat + b.value.toNat) % a.modulus.toNat ∧
      v.toNat = adderUnit a.value.toNat b.value.toNat a.modulus.toNat ∧
      exec (.fadd fd fs1 fs2) s = .next (s.writeF fd ⟨v, a.modulus⟩).complete := by
  have hv := reduce_natCast oka.pos (a.value.toNat + b.value.toNat)
  have hunit := adderUnit_eq_mod oka.value_lt (hm ▸ okb.value_lt)
  exact ⟨_, hv, hv.trans hunit.symm, fieldBinary_ok ha hb (fAdd_eq_ok.2 ⟨hm, rfl⟩)⟩

/-- FSUB in one field leaves the difference's remainder, which is what the subtracter forms (R141, R143). -/
theorem exec_fsub_sameField (ha : s.readF fs1 = .ok a) (hb : s.readF fs2 = .ok b) (oka : FeOk a) (okb : FeOk b)
    (hm : a.modulus = b.modulus) :
    ∃ v : Word, (v.toNat : Int) = ((a.value.toNat : Int) - b.value.toNat) % a.modulus.toNat ∧
      (v.toNat : Int) = subtracterUnit a.value.toNat b.value.toNat a.modulus.toNat ∧
      exec (.fsub fd fs1 fs2) s = .next (s.writeF fd ⟨v, a.modulus⟩).complete := by
  have hv := reduce_toNat oka.pos ((a.value.toNat : Int) - b.value.toNat)
  have hunit := subtracterUnit_eq_emod oka.value_lt (hm ▸ okb.value_lt)
  exact ⟨_, hv, hv.trans hunit.symm, fieldBinary_ok ha hb (fSub_eq_ok.2 ⟨hm, rfl⟩)⟩

end Sys2Proof.Machine

open Sys2Proof Sys2Proof.Machine

/-- Settles O34: by the row of FADD, and its end in one field, across fields and for an invalid source. -/
theorem faddAddsModuloM : Obligations.FaddAddsModuloM := by
  unfold Obligations.FaddAddsModuloM
  exact ⟨rowIs_getElem 12 (by decide) fun _ => rfl, fun _ _ _ _ _ _ => exec_fadd_sameField,
    fun _ _ _ _ _ _ ha hb hm => fieldBinary_error ha hb (fAdd_eq_error.2 ⟨hm, rfl⟩),
    fun _ _ _ _ => fieldBinary_invalid⟩

/-- Settles O35: by the row of FSUB, and its end in one field, across fields and for an invalid source. -/
theorem fsubSubtractsModuloM : Obligations.FsubSubtractsModuloM := by
  unfold Obligations.FsubSubtractsModuloM
  exact ⟨rowIs_getElem 13 (by decide) fun _ => rfl, fun _ _ _ _ _ _ => exec_fsub_sameField,
    fun _ _ _ _ _ _ ha hb hm => fieldBinary_error ha hb (fSub_eq_error.2 ⟨hm, rfl⟩),
    fun _ _ _ _ => fieldBinary_invalid⟩

end

section
/-! SUPPORT. The Montgomery mechanism (43_montgomery_modular_mult.md R151 to R155): the Newton steps square the error of
the inverse, REDC divides by the radix modulo `m`, and `MontForm` is the relation of a value to its Montgomery form that
every pass keeps. Then the obligations on the unit. -/

namespace Sys2Proof.Machine

open Sys2Proof.Config

variable {m : Word} {t x y u v : Nat}

/-! ### The constants of a modulus (R151) -/

/-- One Newton step squares the error `1 - m * inv`, so `n` steps raise it to the power `2 ^ n`. -/
theorem one_sub_mul_newton (m : Word) : ∀ (n : Nat) (inv : Word),
    1 - m * newton m n inv = (1 - m * inv) ^ 2 ^ n
  | 0, inv => by rw [newton, pow_zero, pow_one]
  | n + 1, inv => by
    have step : 1 - m * (inv * (2 - m * inv)) = (1 - m * inv) ^ 2 := by ring
    rw [newton, one_sub_mul_newton m n, step, ← pow_mul, ← pow_succ']

/-- The first error `1 - m` is even, so its power `2 ^ 8` is a multiple of the radix. -/
theorem one_sub_pow_eq_zero (hodd : m.toNat % 2 = 1) : (1 - m) ^ 2 ^ 8 = 0 := by
  have heven : 2 ∣ 1 - m := ⟨-(m >>> 1), by bv_omega⟩
  have hradix : (2 : Word) ^ 2 ^ 8 = 0 := (BitVec.ofNat_pow 256 2 (2 ^ 8)).symm
  exact zero_dvd_iff.1 (hradix ▸ pow_dvd_pow_of_dvd heven (2 ^ 8))

theorem mul_montNegInv (hodd : m.toNat % 2 = 1) : m * montNegInv m = -1 := by
  have h := one_sub_mul_newton m 8 1
  rw [mul_one, one_sub_pow_eq_zero hodd, sub_eq_zero] at h
  rw [montNegInv, mul_neg, ← h]

theorem mul_montNegInv_mod (hodd : m.toNat % 2 = 1) : m.toNat * (montNegInv m).toNat % montR = montR - 1 := by
  have h := congrArg BitVec.toNat (mul_montNegInv hodd)
  rwa [BitVec.toNat_mul] at h

theorem montR2_eq (m : Word) : montR2 m = montR * montR % m.toNat := by rw [montR2, montR, ← pow_add]

/-! ### REDC (R152) -/

/-- The multiple of the radix that REDC shifts: `t` plus a multiple of `m`. -/
def redcSum (t : Nat) (m : Word) : Nat := t + t % montR * (montNegInv m).toNat % montR * m.toNat

theorem montR_dvd_redcSum (hodd : m.toNat % 2 = 1) (t : Nat) : montR ∣ redcSum t m := by
  have hinv : montR ∣ 1 + m.toNat * (montNegInv m).toNat := by
    rw [Nat.dvd_iff_mod_eq_zero, Nat.add_mod, mul_montNegInv_mod hodd]
    rfl
  have hq : t % montR * (montNegInv m).toNat % montR ≡ t * (montNegInv m).toNat [MOD montR] :=
    (Nat.mod_modEq _ _).trans ((Nat.mod_modEq t montR).mul_right _)
  have hsum : redcSum t m ≡ t * (1 + m.toNat * (montNegInv m).toNat) [MOD montR] := by
    calc redcSum t m ≡ t + t * (montNegInv m).toNat * m.toNat [MOD montR] := (hq.mul_right _).add_left _
      _ = t * (1 + m.toNat * (montNegInv m).toNat) := by ring
  exact (hsum.dvd_iff dvd_rfl).2 (hinv.mul_left t)

theorem redc_eq (t : Nat) (m : Word) : redc t m =
    if redcSum t m / montR ≥ m.toNat then redcSum t m / montR - m.toNat else redcSum t m / montR := rfl

/-- The conditional subtraction of REDC does not change the residue. -/
theorem redc_modEq_div (t : Nat) (m : Word) : redc t m ≡ redcSum t m / montR [MOD m.toNat] := by
  rw [redc_eq]
  split
  case isTrue h => exact (Nat.mod_eq_sub_mod h).symm
  case isFalse => rfl

theorem redc_mul_montR (hodd : m.toNat % 2 = 1) (t : Nat) : redc t m * montR ≡ t [MOD m.toNat] := by
  calc redc t m * montR ≡ redcSum t m / montR * montR [MOD m.toNat] := (redc_modEq_div t m).mul_right _
    _ = redcSum t m := Nat.div_mul_cancel (montR_dvd_redcSum hodd t)
    _ ≡ t [MOD m.toNat] := Nat.add_mul_mod_self_right ..

theorem montMul_mul_montR (hodd : m.toNat % 2 = 1) (x y : Nat) : montMul x y m * montR ≡ x * y [MOD m.toNat] :=
  redc_mul_montR hodd (x * y)

/-! ### Montgomery forms (R154, R155) -/

/-- The radix has an inverse modulo an odd `m`, so it cancels. -/
theorem cancel_montR (hodd : m.toNat % 2 = 1) (h : x * montR ≡ y * montR [MOD m.toNat]) : x ≡ y [MOD m.toNat] :=
  h.cancel_right_of_coprime ((Nat.coprime_two_right.2 (Nat.odd_iff.2 hodd)).pow_right 256)

/-- `x` is the Montgomery form of `v`: the residue of `v * R`. -/
structure MontForm (m : Word) (x v : Nat) : Prop where
  lt : x < m.toNat
  modEq : x ≡ v * montR [MOD m.toNat]

/-- A form does not see by which number its residue is given. -/
theorem MontForm.mod (h : MontForm m x v) : MontForm m x (v % m.toNat) :=
  ⟨h.lt, h.modEq.trans ((Nat.mod_modEq v m.toNat).symm.mul_right _)⟩

/-- A pass with `R2` brings a value into Montgomery form. -/
theorem montForm_montMul_montR2 (hodd : m.toNat % 2 = 1) (hv : v < m.toNat) :
    MontForm m (montMul v (montR2 m) m) v where
  lt := montMul_lt hv (Nat.mod_lt _ (by omega))
  modEq := by
    apply cancel_montR hodd
    calc montMul v (montR2 m) m * montR ≡ v * montR2 m [MOD m.toNat] := montMul_mul_montR hodd ..
      _ ≡ v * (montR * montR) [MOD m.toNat] := by rw [montR2_eq]; exact (Nat.mod_modEq _ _).mul_left v
      _ = v * montR * montR := (mul_assoc ..).symm

/-- A pass on two forms is the form of the product. -/
theorem MontForm.mul (hodd : m.toNat % 2 = 1) (hx : MontForm m x u) (hy : MontForm m y v) :
    MontForm m (montMul x y m) (u * v) where
  lt := montMul_lt hx.lt hy.lt
  modEq := by
    apply cancel_montR hodd
    calc montMul x y m * montR ≡ x * y [MOD m.toNat] := montMul_mul_montR hodd ..
      _ ≡ u * montR * (v * montR) [MOD m.toNat] := hx.modEq.mul hy.modEq
      _ = u * v * montR * montR := by ring

/-- A pass with 1 brings a form back to its residue. -/
theorem MontForm.montMul_one (hodd : m.toNat % 2 = 1) (h : MontForm m x v) (h1 : 1 < m.toNat) :
    montMul x 1 m = v % m.toNat := by
  have hres : montMul x 1 m ≡ v [MOD m.toNat] := by
    apply cancel_montR hodd
    calc montMul x 1 m * montR ≡ x * 1 [MOD m.toNat] := montMul_mul_montR hodd ..
      _ = x := mul_one x
      _ ≡ v * montR [MOD m.toNat] := h.modEq
  exact (Nat.mod_eq_of_modEq hres.symm (montMul_lt h.lt h1)).symm

/-- The loop on Montgomery forms follows the loop on plain residues, pass by pass (R155). -/
theorem MontForm.loop (hodd : m.toNat % 2 = 1) : ∀ (n : Nat) {acc base u v : Nat} (e : Nat),
    MontForm m acc u → MontForm m base v → MontForm m (powLoopMont m n acc base e) (powLoop m.toNat n u v e)
  | 0, _, _, _, _, _, hacc, _ => hacc
  | n + 1, acc, base, u, v, e, hacc, hbase => by
    rw [powLoopMont, powLoop]
    split
    case isTrue => exact hacc
    case isFalse =>
      apply MontForm.loop hodd n _ _ (hbase.mul hodd hbase).mod
      split
      case isTrue => exact (hacc.mul hodd hbase).mod
      case isFalse => exact hacc

/-- The first pass leaves `p` with `p * R = a * b`, and the pass with `R2` leaves the residue of `p * R` (R154). -/
theorem fMulTwoPass_eq {a b : FE} (ha : FeOk a) (hb : FeOk b) (hm : a.modulus = b.modulus) :
    fMulTwoPass a b = a.value.toNat * b.value.toNat % a.modulus.toNat := by
  have hform := montForm_montMul_montR2 ha.odd (montMul_lt ha.value_lt (hm ▸ hb.value_lt))
  have hres := hform.modEq.trans (montMul_mul_montR ha.odd ..)
  exact (Nat.mod_eq_of_modEq hres.symm hform.lt).symm

theorem fPowMont_eq {a : FE} (ha : FeOk a) (e : Word) :
    fPowMont a e = a.value.toNat ^ e.toNat % a.modulus.toNat := by
  have h1 : 1 < a.modulus.toNat := lt_of_lt_of_le (by decide) ha.three_le
  have hacc := (montForm_montMul_montR2 ha.odd h1).mod
  have hbase := (montForm_montMul_montR2 ha.odd ha.value_lt).mod
  calc fPowMont a e
    _ = powMod a.value.toNat e.toNat a.modulus.toNat % a.modulus.toNat :=
      (MontForm.loop ha.odd 256 e.toNat hacc hbase).montMul_one ha.odd h1
    _ = a.value.toNat ^ e.toNat % a.modulus.toNat := by rw [powMod_eq ha.pos e.isLt, Nat.mod_mod]

end Sys2Proof.Machine

open Sys2Proof Sys2Proof.Machine

/-- Settles O37: the Newton steps leave an error that is 0 modulo the radix (`mul_montNegInv`). -/
theorem montgomeryConstants : Obligations.MontgomeryConstants := by
  unfold Obligations.MontgomeryConstants
  exact fun m hodd _ => ⟨mul_montNegInv_mod hodd, montR2_eq m⟩

/-- Settles O38: the number that is shifted is a multiple of the radix, and it differs from `t` by a multiple of `m`. -/
theorem redcDividesByTheRadix : Obligations.RedcDividesByTheRadix := by
  unfold Obligations.RedcDividesByTheRadix
  exact fun m t hodd _ ht => ⟨redc_lt ht, redc_mul_montR hodd t, montR_dvd_redcSum hodd t⟩

/-- Settles O41: a pass with `R2` brings a value into Montgomery form, and the loop keeps forms in step with the plain
residues. -/
theorem montgomeryFormsReachTheContracts : Obligations.MontgomeryFormsReachTheContracts := by
  unfold Obligations.MontgomeryFormsReachTheContracts
  exact ⟨fun _ _ => fMulTwoPass_eq, fun _ e ha => fPowMont_eq ha e⟩

end

section
/-! SUPPORT. FMUL, FMONT and FPOW (43_montgomery_modular_mult.md R156 to R158): the end of each command from its
operands; then the obligations. -/

namespace Sys2Proof.Machine

variable {fd fs fs1 fs2 : FReg} {ke : KReg} {s : State} {a b : FE} {e : Word} {k : Failure}

theorem fMul_eq_error : fMul a b = .error k ↔ a.modulus ≠ b.modulus ∧ k = .fieldMismatch := by
  rw [fMul, ite_ok_eq_error, sameField_iff]

theorem fMont_eq_error : fMont a b = .error k ↔ a.modulus ≠ b.modulus ∧ k = .fieldMismatch := by
  rw [fMont, ite_ok_eq_error, sameField_iff]

/-- FMUL in one field leaves the remainder of the exact product (R156). -/
theorem exec_fmul_sameField (ha : s.readF fs1 = .ok a) (hb : s.readF fs2 = .ok b) (oka : FeOk a)
    (hm : a.modulus = b.modulus) :
    ∃ v : Word, v.toNat = a.value.toNat * b.value.toNat % a.modulus.toNat ∧
      exec (.fmul fd fs1 fs2) s = .next (s.writeF fd ⟨v, a.modulus⟩).complete :=
  ⟨_, reduce_natCast oka.pos (a.value.toNat * b.value.toNat), fieldBinary_ok ha hb (fMul_eq_ok.2 ⟨hm, rfl⟩)⟩

/-- FMONT in one field leaves the residue of one pass, which fits in a word (R157). -/
theorem exec_fmont_sameField (ha : s.readF fs1 = .ok a) (hb : s.readF fs2 = .ok b) (oka : FeOk a) (okb : FeOk b)
    (hm : a.modulus = b.modulus) :
    ∃ v : Word, v.toNat < a.modulus.toNat ∧
      v.toNat * 2 ^ 256 % a.modulus.toNat = a.value.toNat * b.value.toNat % a.modulus.toNat ∧
      exec (.fmont fd fs1 fs2) s = .next (s.writeF fd ⟨v, a.modulus⟩).complete := by
  have hlt := montMul_lt oka.value_lt (hm ▸ okb.value_lt)
  have hv := BitVec.toNat_ofNat (montMul a.value.toNat b.value.toNat a.modulus) 256
  rw [Nat.mod_eq_of_lt (hlt.trans a.modulus.isLt)] at hv
  refine ⟨_, hv.trans_lt hlt, ?residue, fieldBinary_ok ha hb (fMont_eq_ok.2 ⟨hm, rfl⟩)⟩
  case residue => rw [hv]; exact montMul_mul_montR oka.odd ..

theorem exec_fpow (ha : s.readF fs = .ok a) (he : s.readK ke = .ok e) :
    exec (.fpow fd fs ke) s = .next (s.writeF fd (fPow a e)).complete :=
  finish_bind_ok (readFK_eq_ok.2 ⟨ha, he⟩)

theorem exec_fpow_invalid (h : s.readF fs = .error .regInvalid ∨ s.readK ke = .error .regInvalid) :
    exec (.fpow fd fs ke) s = .next (s.raise .regInvalid) :=
  finish_bind_error (readFK_invalid (by simpa [SomeInvalid] using h.symm))

end Sys2Proof.Machine

open Sys2Proof Sys2Proof.Machine

/-- Settles O36: by the row of FMUL, and its end in one field, across fields and for an invalid source. -/
theorem fmulMultipliesModuloM : Obligations.FmulMultipliesModuloM := by
  unfold Obligations.FmulMultipliesModuloM
  exact ⟨rowIs_getElem 14 (by decide) fun _ => rfl, fun _ _ _ _ _ _ ha hb oka _ => exec_fmul_sameField ha hb oka,
    fun _ _ _ _ _ _ ha hb hm => fieldBinary_error ha hb (fMul_eq_error.2 ⟨hm, rfl⟩),
    fun _ _ _ _ => fieldBinary_invalid⟩

/-- Settles O39: by the row of FMONT, and its end in one field, across fields and for an invalid source. -/
theorem fmontIsOneMontgomeryPass : Obligations.FmontIsOneMontgomeryPass := by
  unfold Obligations.FmontIsOneMontgomeryPass
  exact ⟨rowIs_getElem 15 (by decide) fun _ => rfl, fun _ _ _ _ _ _ => exec_fmont_sameField,
    fun _ _ _ _ _ _ ha hb hm => fieldBinary_error ha hb (fMont_eq_error.2 ⟨hm, rfl⟩),
    fun _ _ _ _ => fieldBinary_invalid⟩

/-- Settles O40: by the row of FPOW, the power `fPow_value` says its unit leaves, and its invalid sources. -/
theorem fpowRaisesToThePower : Obligations.FpowRaisesToThePower := by
  unfold Obligations.FpowRaisesToThePower
  exact ⟨rowIs_getElem 16 (by decide) fun _ => rfl,
    fun _ _ _ _ _ e ha he oka => ⟨_, fPow_value oka e, exec_fpow ha he⟩, fun _ _ _ _ => exec_fpow_invalid⟩

end

section
/-! SUPPORT. FINV and FDIV (44_modular_inverter.md R170 to R176): the unit inverts the units of a modulus and no other
value, and it divides by its inverse; the end of each command from its operands; then the obligations. -/

namespace Sys2Proof.Machine

variable {fd fs fs1 fs2 : FReg} {s : State} {a b e : FE} {k : Failure}

/-! ### The unit -/

/-- FInv of a unit answers its inverse in `[0, m)` (R170, R171). -/
theorem fInv_unit (oka : FeOk a) (hg : Nat.gcd a.value.toNat a.modulus.toNat = 1) :
    ∃ w : Word, w.toNat < a.modulus.toNat ∧ a.value.toNat * w.toNat % a.modulus.toNat = 1 ∧
      fInv a = .ok ⟨w, a.modulus⟩ := by
  obtain ⟨n, hlt, hn⟩ := Nat.exists_mul_mod_eq_one_of_coprime hg (lt_of_lt_of_le (by decide) oka.three_le)
  have hw : (BitVec.ofNat 256 n).toNat = n := Nat.mod_eq_of_lt (hlt.trans a.modulus.isLt)
  rw [← hw] at hlt hn
  exact ⟨_, hlt, hn, fInv_of_mul_eq_one hlt hn⟩

/-- FInv of a value that is no unit fails: Euclid's loop ends with the gcd (R171). -/
theorem fInv_not_unit (hg : Nat.gcd a.value.toNat a.modulus.toNat ≠ 1) : fInv a = .error .notInvertible :=
  fInv_eq_error.2 ⟨(euclid_spec ..).1.trans_ne hg, rfl⟩

theorem fDiv_sameField (hm : a.modulus = b.modulus) : fDiv a b = fInv b >>= fMul a := if_pos (sameField_iff.2 hm)

/-- The field check comes before the inversion (R174). -/
theorem fDiv_fieldMismatch (hm : a.modulus ≠ b.modulus) : fDiv a b = .error .fieldMismatch :=
  if_neg (mt sameField_iff.1 hm)

/-- A dividend times the inverse of the divisor, times the divisor, is the dividend. -/
theorem mul_inv_mul_mod {x y w m : Nat} (hx : x < m) (hyw : y * w % m = 1) : x * w % m * y % m = x := by
  have h1 : 1 < m := hyw ▸ Nat.mod_lt _ (Nat.zero_lt_of_lt hx)
  have hone : y * w ≡ 1 [MOD m] := hyw.trans (Nat.mod_eq_of_lt h1).symm
  have hres : x * w % m * y ≡ x [MOD m] := by
    calc x * w % m * y ≡ x * w * y [MOD m] := (Nat.mod_modEq _ m).mul_right y
      _ = x * (y * w) := by ring
      _ ≡ x * 1 [MOD m] := hone.mul_left x
      _ = x := mul_one x
  exact Nat.mod_eq_of_modEq hres hx

/-- FDiv by a unit answers the quotient in `[0, m)` (R174). -/
theorem fDiv_unit (oka : FeOk a) (okb : FeOk b) (hm : a.modulus = b.modulus)
    (hg : Nat.gcd b.value.toNat b.modulus.toNat = 1) :
    ∃ v : Word, v.toNat < a.modulus.toNat ∧ v.toNat * b.value.toNat % a.modulus.toNat = a.value.toNat ∧
      fDiv a b = .ok ⟨v, a.modulus⟩ := by
  obtain ⟨w, -, hbw, hw⟩ := fInv_unit okb hg
  refine ⟨_, reduce_lt oka.pos _, ?quotient, fDiv_eq_ok.2 ⟨hm, _, hw, fMul_eq_ok.2 ⟨hm, rfl⟩⟩⟩
  case quotient =>
    have hv := reduce_natCast oka.pos (a.value.toNat * w.toNat)
    rw [Nat.cast_mul] at hv
    rw [hv]
    exact mul_inv_mul_mod oka.value_lt (hm ▸ hbw)

/-! ### FINV and FDIV -/

theorem exec_finv (ha : s.readF fs = .ok a) (h : fInv a = .ok e) :
    exec (.finv fd fs) s = .next (s.writeF fd e).complete :=
  (finish_bind_ok ha).trans (finish_bind_ok h)

theorem exec_finv_error (ha : s.readF fs = .ok a) (h : fInv a = .error k) :
    exec (.finv fd fs) s = .next (s.raise k) :=
  (finish_bind_ok ha).trans (finish_bind_error h)

/-- FINV of a unit leaves its inverse (R175). -/
theorem exec_finv_unit (ha : s.readF fs = .ok a) (oka : FeOk a)
    (hg : Nat.gcd a.value.toNat a.modulus.toNat = 1) :
    ∃ v : Word, v.toNat < a.modulus.toNat ∧ a.value.toNat * v.toNat % a.modulus.toNat = 1 ∧
      exec (.finv fd fs) s = .next (s.writeF fd ⟨v, a.modulus⟩).complete :=
  (fInv_unit oka hg).imp fun _ ⟨hlt, hinv, h⟩ => ⟨hlt, hinv, exec_finv ha h⟩

/-- FDIV by a unit of the dividend's field leaves the quotient (R176). -/
theorem exec_fdiv_unit (ha : s.readF fs1 = .ok a) (hb : s.readF fs2 = .ok b) (oka : FeOk a) (okb : FeOk b)
    (hm : a.modulus = b.modulus) (hg : Nat.gcd b.value.toNat b.modulus.toNat = 1) :
    ∃ v : Word, v.toNat < a.modulus.toNat ∧ v.toNat * b.value.toNat % a.modulus.toNat = a.value.toNat ∧
      exec (.fdiv fd fs1 fs2) s = .next (s.writeF fd ⟨v, a.modulus⟩).complete :=
  (fDiv_unit oka okb hm hg).imp fun _ ⟨hlt, hquot, h⟩ => ⟨hlt, hquot, fieldBinary_ok ha hb h⟩

/-- FDIV by an element of the dividend's field that is no unit fails with its inversion (R176). -/
theorem exec_fdiv_not_unit (ha : s.readF fs1 = .ok a) (hb : s.readF fs2 = .ok b) (hm : a.modulus = b.modulus)
    (hg : Nat.gcd b.value.toNat b.modulus.toNat ≠ 1) :
    exec (.fdiv fd fs1 fs2) s = .next (s.raise .notInvertible) :=
  fieldBinary_error ha hb <| by rw [fDiv_sameField hm, fInv_not_unit hg, error_bind]

end Sys2Proof.Machine

open Sys2Proof Sys2Proof.Machine

/-- Settles O42: by the row of FINV, and its end for a unit, for any other value and for an invalid source. -/
theorem finvInvertsUnitsOnly : Obligations.FinvInvertsUnitsOnly := by
  unfold Obligations.FinvInvertsUnitsOnly
  exact ⟨rowIs_getElem 17 (by decide) fun _ => rfl, fun _ _ _ _ => exec_finv_unit,
    fun _ _ _ _ ha _ hg => exec_finv_error ha (fInv_not_unit hg), fun _ _ _ => finish_bind_error⟩

/-- Settles O43: by the row of FDIV, and its end for a unit and any other divisor of the field, across fields and for an
invalid source. -/
theorem fdivDividesByUnitsOnly : Obligations.FdivDividesByUnitsOnly := by
  unfold Obligations.FdivDividesByUnitsOnly
  exact ⟨rowIs_getElem 18 (by decide) fun _ => rfl, fun _ _ _ _ _ _ => exec_fdiv_unit,
    fun _ _ _ _ _ _ ha hb _ _ => exec_fdiv_not_unit ha hb,
    fun _ _ _ _ _ _ ha hb hm => fieldBinary_error ha hb (fDiv_fieldMismatch hm),
    fun _ _ _ _ => fieldBinary_invalid⟩

end

section
/-! SUPPORT. PNEW, the four accessors, PISINF, PEQ and PMOV (45_point_regs.md R187 to R194): construction of a point,
the end of each command from its operands; then the obligations. -/

namespace Sys2Proof.Machine

variable {pd ps ps1 ps2 : PReg} {fd fx fy fa fb : FReg} {xp yp : Bool} {s : State} {e x y a b : FE} {p q : Pt}
  {k : Failure}

/-! ### Construction -/

theorem newInf_sameField (hm : a.modulus = b.modulus) : newInf a b = .ok (.inf a.value b.value a.modulus) :=
  if_neg (not_not.2 hm)

theorem newInf_fieldMismatch (hm : a.modulus ≠ b.modulus) : newInf a b = .error .fieldMismatch := if_pos hm

/-- In one field the affine form is left to the curve equation (R187). -/
theorem newAff_sameField (hb : b.modulus = a.modulus) (hx : x.modulus = a.modulus) (hy : y.modulus = a.modulus) :
    newAff x y a b = if onCurve x.value y.value a.value b.value a.modulus then
      .ok (.aff x.value y.value a.value b.value a.modulus) else .error .notOnCurve := by
  have hxy : ¬ (x.modulus ≠ a.modulus ∨ y.modulus ≠ a.modulus) := not_or.2 ⟨not_not.2 hx, not_not.2 hy⟩
  rw [newAff, if_neg (not_not.2 hb.symm), if_neg hxy]

/-- Whichever of the three elements is not of the field of `a`, the failure is one (R187). -/
theorem newAff_fieldMismatch (h : ¬ (b.modulus = a.modulus ∧ x.modulus = a.modulus ∧ y.modulus = a.modulus)) :
    newAff x y a b = .error .fieldMismatch := by
  rw [newAff]
  split
  case isTrue => rfl
  case isFalse hb => exact if_pos (by tauto)

/-! ### PNEW -/

/-- One coordinate alone is refused before any register is read (R187). -/
theorem exec_pnew_badShape (h : xp ≠ yp) :
    exec (.pnew pd fx fy fa fb xp yp) s = .next (s.raise .invalidPointShape) := by
  cases xp <;> cases yp
  case false.false | true.true => exact absurd rfl h
  case false.true | true.false => rfl

theorem exec_pnew_inf (ha : s.readF fa = .ok a) (hb : s.readF fb = .ok b) :
    exec (.pnew pd fx fy fa fb false false) s = finish s (newInf a b >>= fun t => pure (s.writeP pd t)) :=
  finish_bind_ok (readFF_eq_ok.2 ⟨ha, hb⟩)

theorem exec_pnew_inf_invalid (h : s.readF fa = .error .regInvalid ∨ s.readF fb = .error .regInvalid) :
    exec (.pnew pd fx fy fa fb false false) s = .next (s.raise .regInvalid) :=
  exec_invalidSource rfl (.inr (.inl (by simpa [Instr.srcF] using h)))

theorem exec_pnew_aff (hx : s.readF fx = .ok x) (hy : s.readF fy = .ok y) (ha : s.readF fa = .ok a)
    (hb : s.readF fb = .ok b) :
    exec (.pnew pd fx fy fa fb true true) s = finish s (newAff x y a b >>= fun t => pure (s.writeP pd t)) :=
  finish_bind_ok (readFFFF_eq_ok.2 ⟨hx, hy, ha, hb⟩)

theorem exec_pnew_aff_invalid (h : s.readF fx = .error .regInvalid ∨ s.readF fy = .error .regInvalid ∨
    s.readF fa = .error .regInvalid ∨ s.readF fb = .error .regInvalid) :
    exec (.pnew pd fx fy fa fb true true) s = .next (s.raise .regInvalid) :=
  exec_invalidSource rfl (.inr (.inl (by simpa [Instr.srcF] using h)))

/-! ### Commands with one P source -/

/-- A command whose only source is a P register that is invalid. -/
theorem exec_invalidP {i : Instr} (hwf : i.wf = true) (hi : i.srcP = [ps]) (h : s.readP ps = .error .regInvalid) :
    exec i s = .next (s.raise .regInvalid) :=
  exec_invalidSource hwf (.inr (.inr ⟨ps, by rw [hi]; exact List.mem_singleton.2 rfl, h⟩))

theorem exec_pgetx (hp : s.readP ps = .ok p) (h : coordX p = .ok e) :
    exec (.pgetx fd ps) s = .next (s.writeF fd e).complete :=
  (finish_bind_ok hp).trans (finish_bind_ok h)

theorem exec_pgetx_error (hp : s.readP ps = .ok p) (h : coordX p = .error k) :
    exec (.pgetx fd ps) s = .next (s.raise k) :=
  (finish_bind_ok hp).trans (finish_bind_error h)

theorem exec_pgety (hp : s.readP ps = .ok p) (h : coordY p = .ok e) :
    exec (.pgety fd ps) s = .next (s.writeF fd e).complete :=
  (finish_bind_ok hp).trans (finish_bind_ok h)

theorem exec_pgety_error (hp : s.readP ps = .ok p) (h : coordY p = .error k) :
    exec (.pgety fd ps) s = .next (s.raise k) :=
  (finish_bind_ok hp).trans (finish_bind_error h)

theorem exec_pgeta (hp : s.readP ps = .ok p) : exec (.pgeta fd ps) s = .next (s.writeF fd ⟨p.a, p.m⟩).complete :=
  finish_bind_ok hp

theorem exec_pgetb (hp : s.readP ps = .ok p) : exec (.pgetb fd ps) s = .next (s.writeF fd ⟨p.b, p.m⟩).complete :=
  finish_bind_ok hp

theorem exec_pisinf (hp : s.readP ps = .ok p) : exec (.pisinf ps) s = .next (s.setFlag p.isInf).complete :=
  finish_bind_ok hp

theorem exec_pmov (hp : s.readP ps = .ok p) : exec (.pmov pd ps) s = .next (s.writeP pd p).complete :=
  finish_bind_ok hp

/-! ### PEQ -/

/-- PEQ has no failure once its sources are valid: equality of records is total (R186). -/
theorem exec_peq (hp : s.readP ps1 = .ok p) (hq : s.readP ps2 = .ok q) :
    exec (.peq ps1 ps2) s = .next (s.setFlag (decide (p = q))).complete :=
  finish_bind_ok (readPP_eq_ok.2 ⟨hp, hq⟩)

theorem exec_peq_invalid (h : s.readP ps1 = .error .regInvalid ∨ s.readP ps2 = .error .regInvalid) :
    exec (.peq ps1 ps2) s = .next (s.raise .regInvalid) :=
  exec_invalidSource rfl (.inr (.inr (by simpa [Instr.srcP] using h)))

end Sys2Proof.Machine

open Sys2Proof Sys2Proof.Machine

/-- Settles O44: by the row of PNEW, its mode bits before any read, and what `newInf` and `newAff` make of valid
operands; `onCurve_iff` turns the check into the curve equation. -/
theorem pnewConstructsAndValidates : Obligations.PnewConstructsAndValidates := by
  unfold Obligations.PnewConstructsAndValidates
  refine ⟨rowIs_getElem 19 (by decide) fun _ => rfl, fun _ _ _ _ _ _ _ _ => exec_pnew_badShape,
    fun _ _ _ _ _ _ => exec_pnew_inf_invalid,
    fun pd fx fy fa fb s a b ha hb => ⟨fun hm => ?inf, fun hm => ?infFields⟩,
    fun _ _ _ _ _ _ => exec_pnew_aff_invalid,
    fun pd fx fy fa fb s x y a b hx hy ha hb oka =>
      ⟨fun hm => ?affFields, fun hmb hmx hmy hc => ?onCurve, fun hmb hmx hmy hc => ?offCurve⟩⟩
  case inf => exact (exec_pnew_inf ha hb).trans (finish_bind_ok (newInf_sameField hm))
  case infFields => exact (exec_pnew_inf ha hb).trans (finish_bind_error (newInf_fieldMismatch hm))
  case affFields => exact (exec_pnew_aff hx hy ha hb).trans (finish_bind_error (newAff_fieldMismatch hm))
  case onCurve =>
    have hnew := (newAff_sameField hmb hmx hmy).trans (if_pos ((onCurve_iff oka.pos).2 hc))
    exact (exec_pnew_aff hx hy ha hb).trans (finish_bind_ok hnew)
  case offCurve =>
    have hnew := (newAff_sameField hmb hmx hmy).trans (if_neg (mt (onCurve_iff oka.pos).1 hc))
    exact (exec_pnew_aff hx hy ha hb).trans (finish_bind_error hnew)

/-- Settles O45: by the rows of the four commands, and the end of each for an affine point, at Infinity and for an
invalid source. -/
theorem pointAccessors : Obligations.PointAccessors := by
  unfold Obligations.PointAccessors
  exact ⟨rowIs_getElem 20 (by decide) fun _ => rfl, rowIs_getElem 21 (by decide) fun _ => rfl,
    rowIs_getElem 22 (by decide) fun _ => rfl, rowIs_getElem 23 (by decide) fun _ => rfl,
    fun _ _ _ _ _ _ _ _ hp => ⟨exec_pgetx hp rfl, exec_pgety hp rfl, exec_pgeta hp, exec_pgetb hp⟩,
    fun _ _ _ _ _ _ hp => ⟨exec_pgetx_error hp rfl, exec_pgety_error hp rfl, exec_pgeta hp, exec_pgetb hp⟩,
    fun _ _ _ h => ⟨exec_invalidP rfl rfl h, exec_invalidP rfl rfl h, exec_invalidP rfl rfl h,
      exec_invalidP rfl rfl h⟩⟩

/-- Settles O46: by the rows of the three commands, and the end of each for valid and for invalid sources. -/
theorem pisinfPeqPmov : Obligations.PisinfPeqPmov := by
  unfold Obligations.PisinfPeqPmov
  exact ⟨rowIs_getElem 24 (by decide) fun _ => rfl, rowIs_getElem 25 (by decide) fun _ => rfl,
    rowIs_getElem 26 (by decide) fun _ => rfl, fun _ _ _ => exec_pisinf, fun _ _ _ _ _ => exec_peq,
    fun _ _ _ _ => exec_pmov, fun _ _ _ h => ⟨exec_invalidP rfl rfl h, exec_invalidP rfl rfl h⟩,
    fun _ _ _ => exec_peq_invalid⟩

end

section
/-! SUPPORT. The point adder (46_point_adder.md R206 to R209): `pAdd` case by case, the third point of a line as
congruences when the slope's denominator is a unit, and the end of PADD from its operands; then the obligations. -/

namespace Sys2Proof.Machine

variable {pd ps1 ps2 : PReg} {s : State} {p q t : Pt} {k : Failure} {x1 y1 x2 y2 a b m : Word} {u v : Int}

theorem PtOk.m_pos (h : PtOk q) : 0 < q.m.toNat := Nat.lt_of_lt_of_le (by decide) h.three_le

/-! ### The cases of the sum -/

theorem pAdd_curveMismatch (h : p.curve ≠ q.curve) : pAdd p q = .error .curveMismatch := by
  refine if_pos ?_
  by_contra hne
  simp only [not_or, not_not] at hne
  obtain ⟨hm, ha, hb⟩ := hne
  exact h (by rw [Pt.curve, ha, hb, hm, Pt.curve])

/-- Points of one curve pass the compatibility check of R206. -/
theorem not_mismatch_of_curve_eq (h : p.curve = q.curve) : ¬ (p.m ≠ q.m ∨ p.a ≠ q.a ∨ p.b ≠ q.b) := by
  simp only [Pt.curve, Prod.mk.injEq] at h
  obtain ⟨ha, hb, hm⟩ := h
  simp only [ha, hb, hm, ne_eq, not_true_eq_false, or_self, not_false_eq_true]

theorem pAdd_inf_left (h : p.curve = q.curve) (hp : p.isInf = true) : pAdd p q = .ok q := by
  cases p with
  | inf => exact if_neg (not_mismatch_of_curve_eq h)
  | aff => cases hp

theorem pAdd_inf_right (h : p.curve = q.curve) (hq : q.isInf = true) (hp : p.isInf = false) : pAdd p q = .ok p := by
  cases p with
  | inf => cases hp
  | aff =>
    cases q with
    | inf => exact if_neg (not_mismatch_of_curve_eq h)
    | aff => cases hq

theorem pAdd_aff : pAdd (.aff x1 y1 a b m) (.aff x2 y2 a b m) = addAffine x1 y1 x2 y2 a b m :=
  if_neg (not_mismatch_of_curve_eq (p := .aff x1 y1 a b m) (q := .aff x2 y2 a b m) rfl)

/-- Opposite points, and a point doubled at `y = 0` (R208). -/
theorem pAdd_opposite (h : y1 ≠ y2 ∨ (y1 = 0 ∧ y2 = 0)) :
    pAdd (.aff x1 y1 a b m) (.aff x1 y2 a b m) = .ok (.inf a b m) := by
  rw [pAdd_aff, addAffine, if_pos rfl]
  by_cases hy : y1 = y2
  · rw [if_neg (not_not.2 hy), if_pos (h.resolve_left (not_not.2 hy)).1]
  · rw [if_pos hy]

theorem pAdd_chord (hx : x1 ≠ x2) : pAdd (.aff x1 y1 a b m) (.aff x2 y2 a b m) =
    chord (reduce ((y2.toNat : Int) - y1.toNat) m) (reduce ((x2.toNat : Int) - x1.toNat) m) x1 y1 x2 a b m := by
  rw [pAdd_aff, addAffine, if_neg hx]

theorem pAdd_tangent (hy : y1 ≠ 0) : pAdd (.aff x1 y1 a b m) (.aff x1 y1 a b m) =
    chord (reduce (3 * (x1.toNat : Int) * x1.toNat + a.toNat) m) (reduce (2 * (y1.toNat : Int)) m)
      x1 y1 x1 a b m := by
  rw [pAdd_aff, addAffine, if_pos rfl, if_neg (not_not.2 rfl), if_neg hy]

/-! ### The third point of a line -/

theorem reduce_modEq (hm : 0 < m.toNat) (u : Int) : ((reduce u m).toNat : Int) ≡ u [ZMOD m.toNat] := by
  rw [reduce_toNat hm]
  exact Int.mod_modEq u m.toNat

/-- Reduction modulo `m` keeps the common divisors with `m`. -/
theorem gcd_reduce (hm : 0 < m.toNat) (u : Int) : Nat.gcd (reduce u m).toNat m.toNat = Int.gcd u m.toNat := by
  rw [← Int.gcd_emod, ← reduce_toNat hm, Int.gcd_natCast_natCast]

/-- `P3 = (x3, y3)` is the third point of the line of slope `l = u / v` through `(x1, y1)` and a point at `x2`, reflected
(R206, cases 3 and 4). -/
structure ThirdPoint (u v : Int) (x1 y1 x2 m l x3 y3 : Word) : Prop where
  slope : (l.toNat : Int) * v ≡ u [ZMOD m.toNat]
  x : (x3.toNat : Int) ≡ (l.toNat : Int) * l.toNat - x1.toNat - x2.toNat [ZMOD m.toNat]
  y : (y3.toNat : Int) ≡ (l.toNat : Int) * ((x1.toNat : Int) - x3.toNat) - y1.toNat [ZMOD m.toNat]
  x_lt : x3.toNat < m.toNat
  y_lt : y3.toNat < m.toNat

/-- The slope `l = u * v^-1` has the residue of `u` when it is multiplied by `v`. -/
theorem reduce_mul_inv_modEq {w : Word} (hm : 0 < m.toNat) (hw : (reduce v m).toNat * w.toNat ≡ 1 [MOD m.toNat]) :
    ((reduce (((reduce u m).toNat : Int) * w.toNat) m).toNat : Int) * v ≡ u [ZMOD m.toNat] := by
  have hvw : ((reduce v m).toNat : Int) * w.toNat ≡ 1 [ZMOD m.toNat] := by exact_mod_cast hw
  calc ((reduce (((reduce u m).toNat : Int) * w.toNat) m).toNat : Int) * v
    _ ≡ (u * w.toNat) * (reduce v m).toNat [ZMOD m.toNat] :=
      ((reduce_modEq hm _).trans ((reduce_modEq hm u).mul_right _)).mul (reduce_modEq hm v).symm
    _ = u * ((reduce v m).toNat * w.toNat) := by ring
    _ ≡ u * 1 [ZMOD m.toNat] := hvw.mul_left u
    _ = u := mul_one u

theorem chord_unit (hodd : m.toNat % 2 = 1) (hge : 3 ≤ m.toNat) (hg : Int.gcd v m.toNat = 1) :
    ∃ l x3 y3 : Word, chord (reduce u m) (reduce v m) x1 y1 x2 a b m = .ok (.aff x3 y3 a b m) ∧
      ThirdPoint u v x1 y1 x2 m l x3 y3 := by
  have hm : 0 < m.toNat := by omega
  obtain ⟨w, -, hvw, hi⟩ := fInv_unit (a := ⟨reduce v m, m⟩) ⟨hodd, hge, reduce_lt hm v⟩ ((gcd_reduce hm v).trans hg)
  have hunit : (reduce v m).toNat * w.toNat ≡ 1 [MOD m.toNat] :=
    hvw.trans (Nat.mod_eq_of_lt (by omega)).symm
  exact ⟨_, _, _, chord_eq hi, reduce_mul_inv_modEq hm hunit, reduce_modEq hm _, reduce_modEq hm _,
    reduce_lt hm _, reduce_lt hm _⟩

theorem chord_not_unit (hm : 0 < m.toNat) (hg : Int.gcd v m.toNat ≠ 1) :
    chord (reduce u m) (reduce v m) x1 y1 x2 a b m = .error .notInvertible := by
  rw [chord, fInv_not_unit (a := ⟨reduce v m, m⟩) ((gcd_reduce hm v).trans_ne hg), error_bind]

theorem gcd_two_mul (y m : Word) : Int.gcd (2 * (y.toNat : Int)) m.toNat = Nat.gcd (2 * y.toNat) m.toNat := by
  rw [← Int.gcd_natCast_natCast, Nat.cast_mul]
  rfl

theorem pAdd_chord_unit (hodd : m.toNat % 2 = 1) (hge : 3 ≤ m.toNat) (hx : x1 ≠ x2)
    (hg : Int.gcd ((x2.toNat : Int) - x1.toNat) m.toNat = 1) :
    ∃ l x3 y3 : Word, pAdd (.aff x1 y1 a b m) (.aff x2 y2 a b m) = .ok (.aff x3 y3 a b m) ∧
      ThirdPoint ((y2.toNat : Int) - y1.toNat) ((x2.toNat : Int) - x1.toNat) x1 y1 x2 m l x3 y3 := by
  rw [pAdd_chord hx]
  exact chord_unit hodd hge hg

theorem pAdd_tangent_unit (hodd : m.toNat % 2 = 1) (hge : 3 ≤ m.toNat) (hy : y1 ≠ 0)
    (hg : Nat.gcd (2 * y1.toNat) m.toNat = 1) :
    ∃ l x3 y3 : Word, pAdd (.aff x1 y1 a b m) (.aff x1 y1 a b m) = .ok (.aff x3 y3 a b m) ∧
      ThirdPoint (3 * (x1.toNat : Int) * x1.toNat + a.toNat) (2 * (y1.toNat : Int)) x1 y1 x1 m l x3 y3 := by
  rw [pAdd_tangent hy]
  exact chord_unit hodd hge ((gcd_two_mul y1 m).trans hg)

/-! ### PADD -/

theorem exec_padd (hp : s.readP ps1 = .ok p) (hq : s.readP ps2 = .ok q) :
    exec (.padd pd ps1 ps2) s = finish s (pAdd p q >>= fun t => pure (s.writeP pd t)) :=
  finish_bind_ok (readPP_eq_ok.2 ⟨hp, hq⟩)

theorem exec_padd_ok (hp : s.readP ps1 = .ok p) (hq : s.readP ps2 = .ok q) (h : pAdd p q = .ok t) :
    exec (.padd pd ps1 ps2) s = .next (s.writeP pd t).complete :=
  (exec_padd hp hq).trans (finish_bind_ok h)

theorem exec_padd_error (hp : s.readP ps1 = .ok p) (hq : s.readP ps2 = .ok q) (h : pAdd p q = .error k) :
    exec (.padd pd ps1 ps2) s = .next (s.raise k) :=
  (exec_padd hp hq).trans (finish_bind_error h)

theorem exec_padd_invalid (h : s.readP ps1 = .error .regInvalid ∨ s.readP ps2 = .error .regInvalid) :
    exec (.padd pd ps1 ps2) s = .next (s.raise .regInvalid) :=
  exec_invalidSource rfl (.inr (.inr (by simpa [Instr.srcP] using h)))

end Sys2Proof.Machine

open Sys2Proof Sys2Proof.Machine

/-- Settles O47: by the row of PADD, its invalid sources, and the sum in each case that needs no slope. -/
theorem paddCases : Obligations.PaddCases := by
  unfold Obligations.PaddCases
  exact ⟨rowIs_getElem 27 (by decide) fun _ => rfl, fun _ _ _ _ => exec_padd_invalid,
    fun pd ps1 ps2 s p q hp hq => ⟨fun hc => exec_padd_error hp hq (pAdd_curveMismatch hc),
      fun hc hinf => exec_padd_ok hp hq (pAdd_inf_left hc hinf),
      fun hc hinf haff => exec_padd_ok hp hq (pAdd_inf_right hc hinf haff),
      fun t => exec_padd_ok hp hq, fun k => exec_padd_error hp hq⟩,
    fun pd ps1 ps2 s x y1 y2 a b m hp hq hy => exec_padd_ok hp hq (pAdd_opposite hy)⟩

/-- Settles O48: each slope case of `pAdd` is a line whose denominator is a unit modulo `m` or has no inverse
(`chord_unit`, `chord_not_unit`). -/
theorem pointAdderChordAndTangent : Obligations.PointAdderChordAndTangent := by
  unfold Obligations.PointAdderChordAndTangent
  refine ⟨fun x1 y1 x2 y2 a b m hp _ hx => ⟨fun hg => ?chord, fun hg => ?noChord⟩,
    fun x1 y1 a b m hp hy => ⟨fun hg => ?tangent, fun hg => ?noTangent⟩⟩
  case chord =>
    obtain ⟨l, x3, y3, hsum, h⟩ := pAdd_chord_unit hp.odd hp.three_le hx hg
    exact ⟨l, x3, y3, hsum, h.slope, h.x, h.y, h.x_lt, h.y_lt⟩
  case noChord => exact (pAdd_chord hx).trans (chord_not_unit hp.m_pos hg)
  case tangent =>
    obtain ⟨l, x3, y3, hsum, h⟩ := pAdd_tangent_unit hp.odd hp.three_le hy hg
    have hx : (x3.toNat : Int) ≡ (l.toNat : Int) * l.toNat - 2 * x1.toNat [ZMOD m.toNat] := by
      rw [two_mul, ← sub_sub]
      exact h.x
    exact ⟨l, x3, y3, hsum, h.slope, hx, h.y, h.x_lt, h.y_lt⟩
  case noTangent => exact (pAdd_tangent hy).trans (chord_not_unit hp.m_pos ((gcd_two_mul y1 m).trans_ne hg))

end

section
/-! SUPPORT. Over a prime modulus (46_point_adder.md R209): every denominator of a slope is a unit, so `pAdd` and
`scalarMul` answer a point for all valid operands, on the curve or not; over `CP.n` every accepted scalar has an inverse,
and its multiple of the generator is not Infinity. -/

namespace Sys2Proof.Machine

open Sys2Proof.Config

variable {p q : Pt} {m x y k : Word}

/-! ### The point adder -/

/-- The chord's denominator is a unit (R209). -/
theorem gcd_sub_of_prime (hm : m.toNat.Prime) (hx : x.toNat < m.toNat) (hy : y.toNat < m.toNat) (hne : x ≠ y) :
    Int.gcd ((y.toNat : Int) - x.toNat) m.toNat = 1 := by
  have hne' : x.toNat ≠ y.toNat := BitVec.toNat_ne.1 hne
  exact (Nat.coprime_of_lt_prime (by omega) (by omega) hm).symm

/-- The tangent's denominator is a unit (R209). -/
theorem gcd_two_mul_of_prime (hm : m.toNat.Prime) (hge : 3 ≤ m.toNat) (hy : y.toNat < m.toNat) (h0 : y ≠ 0) :
    Nat.gcd (2 * y.toNat) m.toNat = 1 :=
  Nat.Coprime.mul_left (Nat.coprime_of_lt_prime two_ne_zero hge hm).symm
    (Nat.coprime_of_lt_prime (BitVec.toNat_ne.1 h0) hy hm).symm

/-- `PAdd` does not fail on valid points of one curve over a prime modulus (R209). -/
theorem pAdd_prime (hp : PtOk p) (hq : PtOk q) (hc : p.curve = q.curve) (hm : p.m.toNat.Prime) :
    ∃ t, pAdd p q = .ok t ∧ PtOk t ∧ t.curve = p.curve := by
  suffices h : ∃ t, pAdd p q = .ok t from h.imp fun t ht => ⟨ht, pAdd_ok hp hq ht, pAdd_curve ht⟩
  cases p with
  | inf => exact ⟨_, pAdd_inf_left hc rfl⟩
  | aff x1 y1 a b m =>
    cases q with
    | inf => exact ⟨_, pAdd_inf_right hc rfl rfl⟩
    | aff x2 y2 a' b' m' =>
      cases hc
      obtain ⟨hx1, hy1, -, -⟩ := hp.below
      by_cases hx : x1 = x2
      · subst hx
        by_cases hy : y1 ≠ y2 ∨ (y1 = 0 ∧ y2 = 0)
        · exact ⟨_, pAdd_opposite hy⟩
        · obtain ⟨hne, hzero⟩ := not_or.1 hy
          obtain rfl := not_not.1 hne
          have h0 : y1 ≠ 0 := fun h => hzero ⟨h, h⟩
          obtain ⟨_, _, _, hsum, -⟩ :=
            pAdd_tangent_unit hp.odd hp.three_le h0 (gcd_two_mul_of_prime hm hp.three_le hy1 h0)
          exact ⟨_, hsum⟩
      · obtain ⟨_, _, _, hsum, -⟩ :=
          pAdd_chord_unit hp.odd hp.three_le hx (gcd_sub_of_prime hm hx1 hq.below.1 hx)
        exact ⟨_, hsum⟩

/-! ### The scalar multiplier -/

theorem m_eq_of_curve_eq (h : p.curve = q.curve) : p.m = q.m := congrArg (fun c => c.2.2) h

theorem addOnBit_prime (hp : PtOk p) (hq : PtOk q) (hc : p.curve = q.curve) (hm : p.m.toNat.Prime) (n : Nat) :
    ∃ t, addOnBit n p q = .ok t ∧ PtOk t ∧ t.curve = p.curve := by
  unfold addOnBit
  split
  · exact pAdd_prime hp hq hc hm
  · exact ⟨p, rfl, hp, rfl⟩

/-- Every pass of R221 adds and doubles points of one curve. -/
theorem scalarLoop_prime : ∀ (n : Nat) (acc base : Pt) (k : Nat), PtOk acc → PtOk base → acc.curve = base.curve →
    base.m.toNat.Prime → ∃ t, scalarLoop n acc base k = .ok t
  | 0, acc, _, _, _, _, _, _ => ⟨acc, rfl⟩
  | n + 1, acc, base, k, hacc, hbase, hc, hm => by
    unfold scalarLoop
    split
    · exact ⟨acc, rfl⟩
    · obtain ⟨acc', hadd, hacc', hca⟩ := addOnBit_prime hacc hbase hc (m_eq_of_curve_eq hc ▸ hm) k
      obtain ⟨base', hdbl, hbase', hcb⟩ := pAdd_prime hbase hbase rfl hm
      rw [hadd, ok_bind, hdbl, ok_bind]
      exact scalarLoop_prime n acc' base' (k / 2) hacc' hbase' (hca.trans (hc.trans hcb.symm))
        (m_eq_of_curve_eq hcb ▸ hm)

/-- `ScalarMul` does not fail on a valid point over a prime modulus (R209). -/
theorem scalarMul_prime (hp : PtOk p) (hm : p.m.toNat.Prime) (k : Word) :
    ∃ t, scalarMul p k = .ok t ∧ PtOk t ∧ t.curve = p.curve := by
  obtain ⟨t, ht⟩ := scalarLoop_prime 256 (.inf p.a p.b p.m) p k.toNat ⟨hp.odd, hp.three_le, hp.a_lt, hp.b_lt⟩ hp rfl hm
  exact ⟨t, ht, scalarMul_ok hp ht, scalarMul_curve ht⟩

/-! ### The ROM's moduli -/

theorem Rep.aff_of_ne_zero {a b m : Word} {P : (curveOf a b m).Point} (h : Rep a b m p P) (h0 : P ≠ 0) :
    ∃ x y, p = .aff x y a b m := by
  cases h with
  | inf => exact absurd rfl h0
  | aff => exact ⟨_, _, rfl⟩

theorem Accepted.lt (h : Accepted k) : k.toNat < cpN.toNat := by
  obtain ⟨hge, hle⟩ := h
  omega

/-- No multiple of the generator by an accepted scalar is Infinity: its order is the prime `CP.n`. -/
theorem scalarMul_cpG_accepted (hk : Accepted k) : ∃ x y, scalarMul cpG k = .ok (.aff x y 0 7 cpP) := by
  have : Fact cpP.toNat.Prime := ⟨prime_cpP⟩
  obtain ⟨G, hG, -, hne⟩ := rep_cpG
  obtain ⟨t, ht, hrep⟩ := scalarMul_rep cpP_odd hG k
  obtain ⟨x, y, rfl⟩ := hrep.aff_of_ne_zero (hne _ hk.1 hk.lt)
  exact ⟨x, y, ht⟩

theorem cpN_odd : cpN.toNat % 2 = 1 := by decide

theorem three_le_cpN : 3 ≤ cpN.toNat := by decide

/-- An accepted scalar is a unit modulo `CP.n`. -/
theorem fInv_accepted (hk : Accepted k) :
    ∃ w : Word, w.toNat < cpN.toNat ∧ k.toNat * w.toNat % cpN.toNat = 1 ∧ fInv ⟨k, cpN⟩ = .ok ⟨w, cpN⟩ :=
  fInv_unit (a := ⟨k, cpN⟩) ⟨cpN_odd, three_le_cpN, hk.lt⟩
    (Nat.coprime_of_lt_prime (Nat.one_le_iff_ne_zero.1 hk.1) hk.lt prime_cpN).symm

end Sys2Proof.Machine
end

section
/-! SUPPORT. The failures that R302 calls unreachable: the end of PMUL, KEYPAIR, KEYGEN, one pass of SIGN and VERIFY from
acceptable operands, and that no command on the ROM's curve ends with `NotInvertible`; then the obligation. -/

namespace Sys2Proof.Machine

open Sys2Proof.Config

variable {i : Instr} {s t : State} {c : Failure} {p q u : Pt} {pd ps pq : PReg} {kk kr ks kz kd : KReg}
  {x y a b m d k w z r v : Word} {l rest : List Word}

/-! ### The code of a failure -/

/-- Every failure of a command is one of its codes (R295). -/
theorem failure_mem_codes (hwf : i.wf = true) (h : exec i s = .next t) (hr : t.rngReq = false)
    (hc : t.rsp.map Response.cc = some (.fail c)) : c ∈ i.codes := by
  rcases exec_cases h with ⟨-, rfl⟩ | ⟨-, hends⟩
  · cases hc
  · cases hends with
    | success u v _ _ ht => subst ht; cases hc
    | failure k rest code _ _ ht => subst ht; cases hc; exact code hwf
    | waiting _ ht => subst ht; cases hr

/-- A rule that does not raise `c` does not end with it. -/
theorem finish_cc_ne {e : Except Failure State} (h : finish s e = .next t) (he : e ≠ .error c) :
    t.rsp.map Response.cc ≠ some (.fail c) := by
  rcases finish_cases h with ⟨u, -, rfl⟩ | ⟨k, hk, rfl⟩
  · exact nofun
  · rintro ⟨⟩
    exact he hk

/-- LIFTX ends with neither of the two failures its rule keeps for other curves (R243, R244). -/
theorem exec_liftx_codes {kx : KReg} (h : exec (.liftx pd kx) s = .next t) :
    t.rsp.map Response.cc ≠ some (.fail .unsupportedModulus) ∧
      t.rsp.map Response.cc ≠ some (.fail .notOnCurve) := by
  have hr : t.rngReq = false := (exec_cmd h).elim And.right fun hw => nomatch hw.1
  have hcodes (c : Failure) (hc : t.rsp.map Response.cc = some (.fail c)) : c = .regInvalid ∨ c = .noSquareRoot := by
    simpa [Instr.codes] using failure_mem_codes rfl h hr hc
  exact ⟨fun hc => (hcodes _ hc).elim nofun nofun, fun hc => (hcodes _ hc).elim nofun nofun⟩

/-! ### PMUL -/

theorem exec_pmul_ok (hp : s.readP ps = .ok p) (hk : s.readK kk = .ok k) (h : scalarMul p k = .ok u) :
    exec (.pmul pd ps kk) s = .next (s.writeP pd u).complete :=
  (finish_bind_ok (readPK_eq_ok.2 ⟨hp, hk⟩)).trans (finish_bind_ok h)

/-! ### KEYPAIR -/

theorem keyPair_accepted (hd : Accepted d) : keyPair d = scalarMul cpG d := if_pos (inScalarRange_iff.2 hd)

theorem keyPair_ne_notInvertible (d : Word) : keyPair d ≠ .error .notInvertible := by
  by_cases hd : Accepted d
  · obtain ⟨x, y, hq⟩ := scalarMul_cpG_accepted hd
    rw [keyPair_accepted hd, hq]
    exact nofun
  · rw [keyPair, if_neg (mt inScalarRange_iff.1 hd)]
    exact nofun

theorem exec_keypair (hd : s.readK kd = .ok d) (h : keyPair d = .ok q) :
    exec (.keypair pq kd) s = .next (s.writeP pq q).complete :=
  (finish_bind_ok hd).trans (finish_bind_ok h)

theorem exec_keypair_accepted (hd : s.readK kd = .ok d) (had : Accepted d) :
    ∃ x y, exec (.keypair pq kd) s = .next (s.writeP pq (.aff x y 0 7 cpP)).complete := by
  obtain ⟨x, y, hq⟩ := scalarMul_cpG_accepted had
  exact ⟨x, y, exec_keypair hd ((keyPair_accepted had).trans hq)⟩

/-! ### KEYGEN -/

/-- `SampleScalar` finds an acceptable draw if there is one (R256). -/
theorem sampleScalar_of_mem (hk : k ∈ l) (hak : Accepted k) : ∃ d rest, sampleScalar l = some (d, rest) := by
  induction l with
  | nil => cases hk
  | cons c cs ih =>
    unfold sampleScalar
    by_cases hc : inScalarRange c = true
    · exact ⟨c, cs, if_pos hc⟩
    · have hne : k ≠ c := fun he => hc (inScalarRange_iff.2 (he ▸ hak))
      rw [if_neg hc]
      exact ih ((List.mem_cons.1 hk).resolve_left hne)

theorem exec_keygen (h : sampleScalar s.draws = some (d, rest)) (hq : scalarMul cpG d = .ok q) :
    exec (.keygen pq kd) s = .next (((s.withDraws rest).writeP pq q).writeK kd d).complete := by
  simp only [exec, execKeygen, h]
  exact finish_bind_ok hq

theorem exec_keygen_accepted (hk : k ∈ s.draws) (hak : Accepted k) :
    ∃ d rest x y, Accepted d ∧ d :: rest <:+ s.draws ∧ exec (.keygen pq kd) s =
      .next (((s.withDraws rest).writeP pq (.aff x y 0 7 cpP)).writeK kd d).complete := by
  obtain ⟨d, rest, hs⟩ := sampleScalar_of_mem hk hak
  obtain ⟨before, hdraws, -, hd⟩ := sampleScalar_eq_some hs
  obtain ⟨x, y, hq⟩ := scalarMul_cpG_accepted hd
  exact ⟨d, rest, x, y, hd, ⟨before, hdraws.symm⟩, exec_keygen hs hq⟩

/-! ### SIGN -/

theorem addN_toNat (x y : Word) : (addN x y).toNat = (x.toNat + y.toNat) % cpN.toNat := by
  rw [← reduce_natCast cpN_pos, Nat.cast_add]
  rfl

/-- The second half `k^-1 *n (z +n r *n d)` of a signature (R260, step 4), `w` the inverse of the nonce `k`. -/
def signatureS (w z r d : Word) : Word := mulN w (addN (reduce z.toNat cpN) (mulN r d))

theorem signatureS_lt (w z r d : Word) : (signatureS w z r d).toNat < cpN.toNat := reduce_lt cpN_pos _

/-- The signature equation `k s = z + r d` modulo `CP.n`. -/
theorem mul_signatureS (h : k.toNat * w.toNat % cpN.toNat = 1) (z r d : Word) :
    k.toNat * (signatureS w z r d).toNat % cpN.toNat = (z.toNat + r.toNat * d.toNat) % cpN.toNat := by
  have hkw : k.toNat * w.toNat ≡ 1 [MOD cpN.toNat] := h.trans (Nat.mod_eq_of_lt prime_cpN.one_lt).symm
  have he : (addN (reduce z.toNat cpN) (mulN r d)).toNat ≡ z.toNat + r.toNat * d.toNat [MOD cpN.toNat] := by
    rw [addN_toNat, mulN_toNat, reduce_natCast cpN_pos]
    exact (Nat.mod_modEq _ _).trans ((Nat.mod_modEq _ _).add (Nat.mod_modEq _ _))
  calc k.toNat * (signatureS w z r d).toNat
    _ ≡ k.toNat * (w.toNat * (addN (reduce z.toNat cpN) (mulN r d)).toNat) [MOD cpN.toNat] := by
      rw [signatureS, mulN_toNat]
      exact (Nat.mod_modEq _ _).mul_left _
    _ = k.toNat * w.toNat * (addN (reduce z.toNat cpN) (mulN r d)).toNat := (mul_assoc ..).symm
    _ ≡ 1 * (z.toNat + r.toNat * d.toNat) [MOD cpN.toNat] := hkw.mul he
    _ = z.toNat + r.toNat * d.toNat := one_mul _

/-- What one pass of SIGN answers: the signature, unless one of its halves is 0 (R260). -/
theorem signPass_eq (hk : scalarMul cpG k = .ok (.aff x y a b m)) (hw : fInv ⟨k, cpN⟩ = .ok ⟨w, cpN⟩)
    (hr : r = reduce x.toNat cpN) (hv : v = signatureS w z r d) :
    signPass z d k = .ok (if r = 0 ∨ v = 0 then none else some (r, v)) := by
  subst hr hv
  rw [signPass, hk, ok_bind]
  dsimp only
  by_cases hr : reduce x.toNat cpN = 0
  · rw [if_pos hr, if_pos (.inl hr)]
    rfl
  · rw [if_neg hr, hw, ok_bind]
    by_cases hv : signatureS w z (reduce x.toNat cpN) d = 0
    · exact (if_pos hv).trans (congrArg Except.ok (if_pos (.inr hv)).symm)
    · exact (if_neg hv).trans (congrArg Except.ok (if_neg (not_or.2 ⟨hr, hv⟩)).symm)

/-- A pass of SIGN with an acceptable draw does not fail, and what it answers solves the signature equation. -/
theorem signPass_accepted (hk : Accepted k) (z d : Word) :
    ∃ x y r v : Word, scalarMul cpG k = .ok (.aff x y 0 7 cpP) ∧ r.toNat = x.toNat % cpN.toNat ∧
      v.toNat < cpN.toNat ∧ k.toNat * v.toNat % cpN.toNat = (z.toNat + r.toNat * d.toNat) % cpN.toNat ∧
      signPass z d k = .ok (if r = 0 ∨ v = 0 then none else some (r, v)) := by
  obtain ⟨x, y, hq⟩ := scalarMul_cpG_accepted hk
  obtain ⟨w, -, hkw, hw⟩ := fInv_accepted hk
  exact ⟨x, y, _, _, hq, reduce_natCast cpN_pos _, signatureS_lt w z _ d, mul_signatureS hkw z _ d,
    signPass_eq hq hw rfl rfl⟩

/-- An accepted draw whose pass does not fail: the loop ends with the pass's signature, or goes on (R260). -/
theorem signLoop_accepted {o : Option (Word × Word)} (hk : Accepted k) (hpass : signPass z d k = .ok o) :
    signLoop z d (k :: rest) = o.elim (signLoop z d rest) fun rv => .signed rv.1 rv.2 rest := by
  rw [signLoop, if_pos (inScalarRange_iff.2 hk), hpass]
  cases o <;> rfl

theorem signLoop_rejected (hk : ¬ Accepted k) : signLoop z d (k :: rest) = signLoop z d rest :=
  if_neg (mt inScalarRange_iff.1 hk)

/-- SIGN's loop never ends in a failure (R302). -/
theorem signLoop_ne_failed (z d : Word) (c : Failure) (rest : List Word) : ∀ l, signLoop z d l ≠ .failed c rest
  | [] => nofun
  | k :: l => by
    by_cases hk : Accepted k
    · obtain ⟨x, y, r, v, -, -, -, -, hpass⟩ := signPass_accepted hk z d
      rw [signLoop_accepted hk hpass]
      split_ifs
      · exact signLoop_ne_failed z d c rest l
      · exact nofun
    · rw [signLoop_rejected hk]
      exact signLoop_ne_failed z d c rest l

/-- The state SIGN leaves when its loop has ended. -/
def afterSign (kr ks : KReg) (s : State) : SignEnd → State
  | .signed r v rest => (((s.withDraws rest).writeK kr r).writeK ks v).complete
  | .failed c rest => (s.withDraws rest).raise c
  | .starved => s.awaitDraw

/-- SIGN with good operands ends as its loop does (R260). -/
theorem exec_sign (hop : signOperands kr ks kz kd s = .ok (z, d)) :
    exec (.sign kr ks kz kd) s = .next (afterSign kr ks s (signLoop z d s.draws)) := by
  simp only [exec, execSign, hop]
  cases signLoop z d s.draws <;> rfl

/-- The draws SIGN starts from are no part of the state it leaves. -/
theorem afterSign_withDraws (kr ks : KReg) (s : State) (l : List Word) (e : SignEnd) :
    afterSign kr ks (s.withDraws l) e = afterSign kr ks s e := by
  cases e <;> rfl

theorem exec_sign_withDraws (hop : signOperands kr ks kz kd s = .ok (z, d)) (l : List Word) :
    exec (.sign kr ks kz kd) (s.withDraws l) = .next (afterSign kr ks s (signLoop z d l)) := by
  have hop' : signOperands kr ks kz kd (s.withDraws l) = .ok (z, d) := hop
  rw [exec_sign hop', State.withDraws_draws, afterSign_withDraws]

/-- One pass of SIGN with an acceptable draw: it resamples, or it ends with the signature (R260). -/
theorem exec_sign_pass (hop : signOperands kr ks kz kd s = .ok (z, d)) (hs : s.draws = k :: rest) (hk : Accepted k)
    (hpass : signPass z d k = .ok (if r = 0 ∨ v = 0 then none else some (r, v))) :
    exec (.sign kr ks kz kd) s = if r = 0 ∨ v = 0 then exec (.sign kr ks kz kd) (s.withDraws rest)
      else .next (((s.withDraws rest).writeK kr r).writeK ks v).complete := by
  rw [exec_sign hop, exec_sign_withDraws hop, hs, signLoop_accepted hk hpass]
  split_ifs <;> rfl

theorem exec_sign_ne_notInvertible (h : exec (.sign kr ks kz kd) s = .next t) (hr : t.rngReq = false) :
    t.rsp.map Response.cc ≠ some (.fail .notInvertible) := by
  cases hop : signOperands kr ks kz kd s with
  | error c =>
    simp only [exec, execSign, hop] at h
    cases h
    rcases signOperands_eq_error hop with ⟨-, rfl⟩ | rfl | rfl <;> exact nofun
  | ok zd =>
    rw [exec_sign hop] at h
    cases h
    cases hl : signLoop zd.1 zd.2 s.draws with
    | signed r v rest => exact nofun
    | failed c rest => exact absurd hl (signLoop_ne_failed _ _ _ _ _)
    | starved => rw [hl] at hr; cases hr

/-! ### VERIFY -/

/-- Steps 3 to 5 of VERIFY complete (R262, R302). -/
theorem verifyEquation_accepted (hq : PtOk q) (hc : q.curve = (0, 7, cpP)) (hv : Accepted v) (z r : Word) :
    ∃ f, verifyEquation z r v q = .ok f := by
  obtain ⟨w, hw, hvw, -⟩ := fInv_accepted hv
  have hG : cpG.m.toNat.Prime := prime_cpP
  have hm : q.m.toNat.Prime := m_eq_of_curve_eq (p := cpG) (q := q) hc.symm ▸ hG
  obtain ⟨g1, h1, ok1, c1⟩ := scalarMul_prime cpG_ok hG (mulN (reduce z.toNat cpN) w)
  obtain ⟨q2, h2, ok2, c2⟩ := scalarMul_prime hq hm (mulN r w)
  obtain ⟨p, hp, -, -⟩ := pAdd_prime ok1 ok2 (c1.trans (c2.trans hc).symm) (m_eq_of_curve_eq c1 ▸ hG)
  have hu1 : (mulN (reduce z.toNat cpN) w).toNat = z.toNat % cpN.toNat * w.toNat % cpN.toNat := by
    rw [mulN_toNat, reduce_natCast cpN_pos]
  exact ⟨_, verifyEquation_eq hw hvw hu1 (mulN_toNat r w) h1 h2 hp⟩

theorem verifySig_accepted (hq : PtOk q) (hc : q.curve = (0, 7, cpP)) (hr : Accepted r) (hv : Accepted v) (z : Word) :
    ∃ f, verifySig z r v q = .ok f := by
  rw [verifySig_equation hr hv hc]
  exact verifyEquation_accepted hq hc hv z r

theorem verifySig_ne_notInvertible (hq : PtOk q) (z r v : Word) : verifySig z r v q ≠ .error .notInvertible := by
  by_cases hs : Accepted r ∧ Accepted v
  · by_cases hc : q.curve = (0, 7, cpP)
    · obtain ⟨f, hf⟩ := verifySig_accepted hq hc hs.1 hs.2 z
      rw [hf]
      exact nofun
    · rw [verifySig_curveMismatch hs.1 hs.2 hc]
      exact nofun
  · rw [verifySig_badShape hs]
    exact nofun

/-! ### The commands on the ROM's curve -/

/-- A rule raises `c` only if one of its parts does. -/
theorem bind_ne_error {α β : Type} {e : Except Failure α} {g : α → Except Failure β} (he : e ≠ .error c)
    (hg : ∀ a, e = .ok a → g a ≠ .error c) : (e >>= g) ≠ .error c := fun h =>
  (bind_eq_error.1 h).elim he fun ⟨a, ha, hga⟩ => hg a ha hga

/-- No command on the ROM's curve ends with `NotInvertible` (R302). -/
theorem exec_ne_notInvertible (files : FilesOk s) (hi : i.onRomCurve = true) (h : exec i s = .next t)
    (hr : t.rngReq = false) : t.rsp.map Response.cc ≠ some (.fail .notInvertible) := by
  cases i <;> cases hi
  case cppoint | liftx => exact fun hc => absurd (failure_mem_codes rfl h hr hc) (by simp [Instr.codes])
  case keypair pq kd =>
    exact finish_cc_ne h (bind_ne_error (fun hk => nomatch readK_error hk) fun d _ =>
      bind_ne_error (keyPair_ne_notInvertible d) fun _ _ => nofun)
  case keygen pq kd =>
    by_cases hex : ∃ k ∈ s.draws, Accepted k
    · obtain ⟨k, hk, hak⟩ := hex
      obtain ⟨d, rest, x, y, -, -, he⟩ := exec_keygen_accepted (pq := pq) (kd := kd) hk hak
      cases h.symm.trans he
      exact nofun
    · cases h.symm.trans (exec_keygen_waits pq kd fun k hk hak => hex ⟨k, hk, hak⟩)
      cases hr
  case sign => exact exec_sign_ne_notInvertible h hr
  case verify kz kr ks pq =>
    refine finish_cc_ne h (bind_ne_error (fun hk => nomatch readKKKP_error hk) fun ⟨z, r, v, q⟩ hread => ?_)
    obtain ⟨-, -, -, hq⟩ := readKKKP_eq_ok.1 hread
    exact bind_ne_error (verifySig_ne_notInvertible (files.p _ _ hq) z r v) fun _ _ => nofun

end Sys2Proof.Machine

open Sys2Proof Sys2Proof.Machine

/-- Settles O59: over a prime modulus every denominator is a unit (`pAdd_prime`, `scalarMul_prime`, `fInv_accepted`), and
the generator's prime order keeps its multiples from Infinity. -/
theorem primeModuliLeaveNoFailure : Obligations.PrimeModuliLeaveNoFailure := by
  unfold Obligations.PrimeModuliLeaveNoFailure
  refine ⟨prime_cpP, prime_cpN, fun _ _ _ => exec_ne_notInvertible, fun _ _ _ _ => exec_liftx_codes,
    fun _ => scalarMul_cpG_accepted, fun _ _ _ _ => exec_keypair_accepted, fun _ _ _ _ => exec_keygen_accepted,
    fun kr ks kz kd s z d k rest hne hz hd had hs hk => ?sign,
    fun kz kr ks pq s z r v q hz hr hv hq okq har hav hc => ?verify,
    fun pd ps1 ps2 s p q hp hq okp okq hc hm => ?padd, fun pd ps kk s p k hp hk okp hm => ?pmul⟩
  case sign =>
    obtain ⟨x, y, r, v, hq, hr, hv, heq, hpass⟩ := signPass_accepted hk z d
    exact ⟨x, y, r, v, hq, hr, hv, heq, exec_sign_pass (signOperands_eq_ok.2 ⟨hne, hz, hd, had⟩) hs hk hpass⟩
  case verify =>
    obtain ⟨f, hf⟩ := verifySig_accepted okq hc har hav z
    exact ⟨f, (exec_verify hz hr hv hq).trans (finish_bind_ok hf)⟩
  case padd =>
    obtain ⟨u, hu, -, -⟩ := pAdd_prime okp okq hc hm
    exact ⟨u, hu, exec_padd_ok hp hq hu⟩
  case pmul =>
    obtain ⟨u, hu, -, -⟩ := scalarMul_prime okp hm k
    exact ⟨u, hu, exec_pmul_ok hp hk hu⟩

end

section
/-! SUPPORT. The scalar multiplier (47_scalar_multiplier.md R221 to R224): the loop pass by pass, PMUL from its operands,
and the sum of two multiples in the point group; then the obligations. -/

namespace Sys2Proof.Machine

open Sys2Proof.Config

variable {pd ps : PReg} {kk : KReg} {s : State} {p q t u v : Pt} {a b m j k l : Word} {c : Failure}

/-! ### The loop -/

theorem scalarLoop_zero : ∀ (n : Nat) (acc base : Pt), scalarLoop n acc base 0 = .ok acc
  | 0, _, _ => rfl
  | _ + 1, _, _ => rfl

/-- One pass on a scalar that is not used up (R221). -/
theorem scalarLoop_pass {i : Nat} (hi : i ≠ 0) (n : Nat) (acc base : Pt) :
    scalarLoop (n + 1) acc base i = (do
      let acc' ← addOnBit i acc base
      let base' ← pAdd base base
      scalarLoop n acc' base' (i / 2)) := if_neg hi

/-- The loop ends when the scalar is used up: more passes than it has bits change nothing (R221). -/
theorem scalarLoop_bound : ∀ {n r : Nat} (acc base : Pt) {i : Nat}, i < 2 ^ n → n ≤ r →
    scalarLoop r acc base i = scalarLoop n acc base i
  | 0, r, acc, base, i, hi, _ => by
    obtain rfl : i = 0 := by omega
    rw [scalarLoop_zero, scalarLoop_zero]
  | n + 1, 0, _, _, _, _, hr => absurd hr (Nat.not_succ_le_zero n)
  | n + 1, r + 1, acc, base, i, hi, hr => by
    by_cases h0 : i = 0
    · rw [h0, scalarLoop_zero, scalarLoop_zero]
    · have hrest (acc' base' : Pt) : scalarLoop r acc' base' (i / 2) = scalarLoop n acc' base' (i / 2) :=
        scalarLoop_bound acc' base' (by omega) (Nat.le_of_succ_le_succ hr)
      simp only [scalarLoop_pass h0, hrest]

/-- On a 1 bit the base is added (R221). -/
theorem scalarLoop_odd (n : Nat) (acc base : Pt) (i : Nat) :
    scalarLoop (n + 1) acc base (2 * i + 1) = (do
      let acc' ← pAdd acc base
      let base' ← pAdd base base
      scalarLoop n acc' base' i) := by
  have hadd : addOnBit (2 * i + 1) acc base = pAdd acc base := if_pos (by omega)
  rw [scalarLoop_pass (by omega), hadd, show (2 * i + 1) / 2 = i by omega]

/-- On a 0 bit the base is doubled only (R223). -/
theorem scalarLoop_even (n : Nat) (acc base : Pt) {i : Nat} (hi : 0 < i) :
    scalarLoop (n + 1) acc base (2 * i) = (do
      let base' ← pAdd base base
      scalarLoop n acc base' i) := by
  have hkeep : addOnBit (2 * i) acc base = .ok acc := if_neg (by omega)
  rw [scalarLoop_pass (by omega), hkeep, ok_bind, show 2 * i / 2 = i by omega]

/-! ### The multiples that are Infinity -/

theorem scalarMul_zero (p : Pt) : scalarMul p 0 = .ok (.inf p.a p.b p.m) := scalarLoop_zero 256 _ p

/-- Every pass adds Infinity to itself. -/
theorem scalarLoop_inf : ∀ (n i : Nat), scalarLoop n (.inf a b m) (.inf a b m) i = .ok (.inf a b m)
  | 0, _ => rfl
  | n + 1, i => by
    have hsum : pAdd (.inf a b m) (.inf a b m) = .ok (.inf a b m) := pAdd_inf_left rfl rfl
    have hadd : addOnBit i (.inf a b m) (.inf a b m) = .ok (.inf a b m) := by
      rw [addOnBit, hsum, ite_self]
    by_cases hi : i = 0
    · rw [hi, scalarLoop_zero]
    · rw [scalarLoop_pass hi, hadd, ok_bind, hsum, ok_bind, scalarLoop_inf n]

theorem scalarMul_inf (hp : p.isInf = true) (k : Word) : scalarMul p k = .ok (.inf p.a p.b p.m) := by
  cases p with
  | inf a b m => exact scalarLoop_inf 256 k.toNat
  | aff => cases hp

/-! ### PMUL -/

theorem exec_pmul_error (hp : s.readP ps = .ok p) (hk : s.readK kk = .ok k) (h : scalarMul p k = .error c) :
    exec (.pmul pd ps kk) s = .next (s.raise c) :=
  (finish_bind_ok (readPK_eq_ok.2 ⟨hp, hk⟩)).trans (finish_bind_error h)

theorem exec_pmul_invalid (h : s.readP ps = .error .regInvalid ∨ s.readK kk = .error .regInvalid) :
    exec (.pmul pd ps kk) s = .next (s.raise .regInvalid) := by
  refine exec_invalidSource rfl ?_
  rcases h with h | h
  · exact .inr (.inr ⟨ps, List.mem_singleton.2 rfl, h⟩)
  · exact .inl ⟨kk, List.mem_singleton.2 rfl, h⟩

/-! ### Records of points of a curve -/

/-- The discriminant of a curve (R224), up to the factor -16. -/
theorem curveOf_disc (a b m : Word) :
    (curveOf a b m).Δ = -16 * ((4 * a.toNat ^ 3 + 27 * b.toNat ^ 2 : Nat) : ZMod m.toNat) := by
  simp only [curveOf, WeierstrassCurve.Δ, WeierstrassCurve.b₂, WeierstrassCurve.b₄, WeierstrassCurve.b₆,
    WeierstrassCurve.b₈, el]
  push_cast
  ring

theorem curveOf_disc_ne_zero [Fact m.toNat.Prime] (ho : m.toNat % 2 = 1)
    (hd : (4 * a.toNat ^ 3 + 27 * b.toNat ^ 2) % m.toNat ≠ 0) : (curveOf a b m).Δ ≠ 0 := by
  have h16 : (-16 : ZMod m.toNat) ≠ 0 := by
    rw [show (-16 : ZMod m.toNat) = -(2 ^ 4) by norm_num]
    exact neg_ne_zero.2 (pow_ne_zero 4 (two_ne_zero_of_odd ho))
  rw [curveOf_disc]
  refine mul_ne_zero h16 fun h => hd ?_
  exact Nat.mod_eq_zero_of_dvd ((ZMod.natCast_eq_zero_iff _ _).1 h)

/-- A point of an elliptic curve over a prime field stands for a point of the group. -/
theorem EllipticOk.rep (h : EllipticOk q) : ∃ P, Rep q.a q.b q.m q P := by
  have : Fact q.m.toNat.Prime := ⟨h.prime⟩
  cases q with
  | inf a b m => exact ⟨_, .inf⟩
  | aff x y a b m =>
    obtain ⟨hx, hy, -, -⟩ := h.ok.below
    exact rep_of_onCurve (curveOf_disc_ne_zero h.ok.odd h.disc) hx hy ((onCurve_iff h.ok.m_pos).2 h.onCurve)

/-- A record that stands for a point of the group satisfies the curve equation (R185). -/
theorem Rep.onCurve {P : (curveOf a b m).Point} (h : Rep a b m t P) : OnCurve t := by
  cases h with
  | inf => trivial
  | @aff x y hx hy hn =>
    have heq := (WeierstrassCurve.Affine.equation_iff _ _).1 hn.1
    simp only [curveOf, el] at heq
    refine (ZMod.natCast_eq_natCast_iff' _ _ _).1 ?_
    push_cast
    linear_combination heq

/-! ### Sums of multiples -/

section

variable [Fact m.toNat.Prime] {P Q : (curveOf a b m).Point}

theorem pAdd_eq_of_rep (ho : m.toNat % 2 = 1) (hu : Rep a b m u P) (hv : Rep a b m v Q) (ht : Rep a b m t (P + Q)) :
    pAdd u v = .ok t := by
  obtain ⟨t', hsum, ht'⟩ := pAdd_rep ho hu hv
  rw [hsum, ht'.unique ht]

/-- `(j+k)*P = j*P + k*P` (R224). -/
theorem scalarMul_add (ho : m.toNat % 2 = 1) (hq : Rep a b m q P) (hl : l.toNat = j.toNat + k.toNat) :
    ∃ u v w, scalarMul q j = .ok u ∧ scalarMul q k = .ok v ∧ scalarMul q l = .ok w ∧ pAdd u v = .ok w ∧
      OnCurve w := by
  obtain ⟨u, hu, hur⟩ := scalarMul_rep ho hq j
  obtain ⟨v, hv, hvr⟩ := scalarMul_rep ho hq k
  obtain ⟨w, hw, hwr⟩ := scalarMul_rep ho hq l
  have hsum : Rep a b m w (j.toNat • P + k.toNat • P) := by rwa [← add_nsmul, ← hl]
  exact ⟨u, v, w, hu, hv, hw, pAdd_eq_of_rep ho hur hvr hsum, hwr.onCurve⟩

/-- `k*P + P = (k+1)*P`. -/
theorem scalarMul_succ (ho : m.toNat % 2 = 1) (hq : Rep a b m q P) (hl : l.toNat = k.toNat + 1) :
    ∃ u w, scalarMul q k = .ok u ∧ pAdd u q = .ok w ∧ scalarMul q l = .ok w := by
  obtain ⟨u, hu, hur⟩ := scalarMul_rep ho hq k
  obtain ⟨w, hw, hwr⟩ := scalarMul_rep ho hq l
  have hsum : Rep a b m w (k.toNat • P + P) := by rwa [← succ_nsmul, ← hl]
  exact ⟨u, w, hu, pAdd_eq_of_rep ho hur hq hsum, hw⟩

end

end Sys2Proof.Machine

open Sys2Proof Sys2Proof.Machine Sys2Proof.Config

/-- Settles O49: by the row of PMUL, its invalid sources, and the two ends of the multiplier's rule. -/
theorem pmulMultiplies : Obligations.PmulMultiplies := by
  unfold Obligations.PmulMultiplies
  refine ⟨rowIs_getElem 28 (by decide) fun _ => rfl, fun pd ps kk s p k hp hk => ⟨fun t => exec_pmul_ok hp hk,
    fun c hc => ⟨exec_pmul_error hp hk hc, scalarMul_eq_error hc⟩, fun h => exec_pmul_ok hp hk ?_⟩,
    fun _ _ _ _ => exec_pmul_invalid⟩
  rcases h with rfl | hinf
  · exact scalarMul_zero p
  · exact scalarMul_inf hinf k

/-- Settles O50: by the loop's equation on a used-up, an odd and an even scalar, and the bound on its passes. -/
theorem scalarLoopTakesBitsInOrder : Obligations.ScalarLoopTakesBitsInOrder := by
  unfold Obligations.ScalarLoopTakesBitsInOrder
  exact ⟨fun _ _ => rfl, scalarLoop_zero, fun _ _ acc base _ => scalarLoop_bound acc base, scalarLoop_odd,
    fun n acc base _ => scalarLoop_even n acc base⟩

/-- Settles O51: multiples and sums of points are those of the group of the curve (`scalarMul_rep`, `pAdd_rep`), in which
a point has one record. -/
theorem scalarMultiplesAdd : Obligations.ScalarMultiplesAdd := by
  unfold Obligations.ScalarMultiplesAdd
  refine ⟨fun q j k l hq hl => ?sum, scalarMul_zero, scalarMul_order, ?succ⟩
  case sum =>
    have : Fact q.m.toNat.Prime := ⟨hq.prime⟩
    obtain ⟨P, hP⟩ := hq.rep
    exact scalarMul_add hq.ok.odd hP hl
  case succ =>
    have : Fact cpP.toNat.Prime := ⟨prime_cpP⟩
    obtain ⟨G, hG, -⟩ := rep_cpG
    exact scalarMul_succ cpP_odd hG (by decide)

end

section
/-! SUPPORT. The completion codes (60_exceptions.md R295): the obligation, from the code of every end of a command. -/

open Sys2Proof Sys2Proof.Machine

/-- Settles O20: every failure of a command is one of its codes (`failure_mem_codes`). -/
theorem codesOfEachCommand : Obligations.CodesOfEachCommand := by
  unfold Obligations.CodesOfEachCommand
  exact fun _ _ _ _ => failure_mem_codes

end

section
/-! SUPPORT. The commands on the constant ROM (48_curve_parameters.md R235 to R243): the validation of CPPOINT's point, the
Legendre test and the root of LIFTX in remainders of naturals, and the end of each command from its operands; then the
obligations. -/

namespace Sys2Proof.Machine

open Sys2Proof.Config

variable {pd : PReg} {kx ky : KReg} {s : State} {u v x y m : Word} {q : Pt} {c : Failure}

/-- The reduced word of a remainder. -/
theorem reduce_eq_of_toNat {n : Nat} (hm : 0 < m.toNat) (h : x.toNat = n % m.toNat) : reduce n m = x :=
  BitVec.eq_of_toNat_eq ((reduce_natCast hm n).trans h.symm)

/-! ### CPPOINT -/

/-- The equation of the ROM's curve (R241). -/
theorem onCurve_rom : onCurve x y 0 7 cpP = true ↔
    y.toNat * y.toNat % cpP.toNat = (x.toNat * x.toNat * x.toNat + 7) % cpP.toNat := by
  have hab : x.toNat * x.toNat * x.toNat + (0 : Word).toNat * x.toNat + (7 : Word).toNat =
      x.toNat * x.toNat * x.toNat + 7 := by
    rw [show (0 : Word).toNat = 0 by rfl, show (7 : Word).toNat = 7 by rfl, zero_mul, add_zero]
  rw [onCurve_iff cpP_pos, hab]

theorem exec_cppoint (hu : s.readK kx = .ok u) (hv : s.readK ky = .ok v) (hx : x.toNat = u.toNat % cpP.toNat)
    (hy : y.toNat = v.toNat % cpP.toNat) :
    exec (.cppoint pd kx ky) s = finish s (romPoint x y >>= fun t => pure (s.writeP pd t)) := by
  simp only [exec, execCppoint, readKK_eq_ok.2 ⟨hu, hv⟩, ok_bind, reduce_eq_of_toNat cpP_pos hx,
    reduce_eq_of_toNat cpP_pos hy]

theorem exec_cppoint_invalid (h : s.readK kx = .error .regInvalid ∨ s.readK ky = .error .regInvalid) :
    exec (.cppoint pd kx ky) s = .next (s.raise .regInvalid) :=
  exec_invalidSource rfl (.inl (by simpa [Instr.srcK] using h))

/-! ### LIFTX -/

theorem liftW_toNat (x : Word) : (liftW x).toNat = (x.toNat * x.toNat * x.toNat + 7) % cpP.toNat := by
  rw [← reduce_natCast cpP_pos]
  push_cast
  rw [liftW, zero_mul, add_zero]

/-- A power of `w` (R242). -/
theorem fPow_liftW {e : Nat} (he : e < 2 ^ 256) (x : Word) :
    (fPow ⟨liftW x, cpP⟩ (BitVec.ofNat 256 e)).value.toNat = (liftW x).toNat ^ e % cpP.toNat := by
  rw [fPow_value (liftW_ok x), BitVec.toNat_ofNat, Nat.mod_eq_of_lt he]

theorem legendre_toNat (x : Word) : (fPow ⟨liftW x, cpP⟩ (BitVec.ofNat 256 ((cpP.toNat - 1) / 2))).value.toNat =
    (liftW x).toNat ^ ((cpP.toNat - 1) / 2) % cpP.toNat := fPow_liftW (by decide) x

theorem root_toNat (x : Word) : (fPow ⟨liftW x, cpP⟩ (BitVec.ofNat 256 ((cpP.toNat + 1) / 4))).value.toNat =
    (liftW x).toNat ^ ((cpP.toNat + 1) / 4) % cpP.toNat := fPow_liftW (by decide) x

/-- Where the Legendre test gives 1, the point with the root of `w` (R242), which squares to `w` (R243). -/
theorem liftX_square (hx : x.toNat = u.toNat % cpP.toNat)
    (h : (liftW x).toNat ^ ((cpP.toNat - 1) / 2) % cpP.toNat = 1) :
    ∃ y : Word, y.toNat = (liftW x).toNat ^ ((cpP.toNat + 1) / 4) % cpP.toNat ∧
      y.toNat * y.toNat % cpP.toNat = (liftW x).toNat ∧ liftX u = .ok (.aff x y 0 7 cpP) := by
  have hlift := liftX_cases u
  rw [reduce_eq_of_toNat cpP_pos hx] at hlift
  rcases hlift with ⟨-, hne⟩ | ⟨-, hok⟩
  · exact absurd (BitVec.eq_of_toNat_eq (y := 1) ((legendre_toNat x).trans h)) hne
  · refine ⟨_, root_toNat x, ?_, hok⟩
    rw [root_toNat]
    exact pow_root (by decide) (liftW_ok x).value_lt h

theorem liftX_nonSquare (hx : x.toNat = u.toNat % cpP.toNat)
    (h : (liftW x).toNat ^ ((cpP.toNat - 1) / 2) % cpP.toNat ≠ 1) : liftX u = .error .noSquareRoot := by
  have hlift := liftX_cases u
  rw [reduce_eq_of_toNat cpP_pos hx] at hlift
  rcases hlift with ⟨herr, -⟩ | ⟨hone, -⟩
  · exact herr
  · exact absurd ((legendre_toNat x).symm.trans (congrArg BitVec.toNat hone)) h

theorem exec_liftx (hu : s.readK kx = .ok u) (h : liftX u = .ok q) :
    exec (.liftx pd kx) s = .next (s.writeP pd q).complete :=
  (finish_bind_ok hu).trans (finish_bind_ok h)

theorem exec_liftx_error (hu : s.readK kx = .ok u) (h : liftX u = .error c) :
    exec (.liftx pd kx) s = .next (s.raise c) :=
  (finish_bind_ok hu).trans (finish_bind_error h)

theorem exec_liftx_invalid (h : s.readK kx = .error .regInvalid) :
    exec (.liftx pd kx) s = .next (s.raise .regInvalid) :=
  exec_invalidSource rfl (.inl ⟨kx, List.mem_singleton.2 rfl, h⟩)

end Sys2Proof.Machine

open Sys2Proof Sys2Proof.Machine Sys2Proof.Config

/-- Settles O52: by the rows of the five copies, and the constants of the ROM written out. -/
theorem romCopies : Obligations.RomCopies := by
  unfold Obligations.RomCopies
  exact ⟨rowIs_getElem 29 (by decide) fun _ => rfl, rowIs_getElem 30 (by decide) fun _ => rfl,
    rowIs_getElem 31 (by decide) fun _ => rfl, rowIs_getElem 32 (by decide) fun _ => rfl,
    rowIs_getElem 33 (by decide) fun _ => rfl, by decide, by decide, fun _ _ => ⟨rfl, rfl, rfl, rfl, rfl⟩⟩

/-- Settles O53: by the row of CPPOINT, its invalid sources, and `romPoint` on the reduced coordinates. -/
theorem cppointValidates : Obligations.CppointValidates := by
  unfold Obligations.CppointValidates
  refine ⟨rowIs_getElem 34 (by decide) fun _ => rfl, fun _ _ _ _ => exec_cppoint_invalid,
    fun pd kx ky s u v x y hu hv hx hy => ?_⟩
  rw [exec_cppoint hu hv hx hy]
  refine ⟨fun h => ?_, fun h => ?_⟩
  · exact finish_bind_ok (romPoint_eq_ok.2 ⟨onCurve_rom.2 h, rfl⟩)
  · exact finish_bind_error (if_neg (mt onCurve_rom.1 h))

/-- Settles O54: by the row of LIFTX, its invalid source, and `liftX` on the two answers of the Legendre test. -/
theorem liftxLifts : Obligations.LiftxLifts := by
  unfold Obligations.LiftxLifts
  refine ⟨rowIs_getElem 35 (by decide) fun _ => rfl, fun _ _ _ => exec_liftx_invalid,
    fun pd kx s u x w hu hx hw => ?_⟩
  rw [← liftW_toNat] at hw
  subst hw
  refine ⟨fun h => ?_, fun h => exec_liftx_error hu (liftX_nonSquare hx h)⟩
  obtain ⟨y, hy, hsq, hq⟩ := liftX_square hx h
  exact ⟨y, hy, hsq, exec_liftx hu hq⟩

end

section
/-! SUPPORT. KEYPAIR, KEYGEN and SIGN (49_ecdsa_engines.md R256 to R260): the ends of each command that the statement on
acceptable operands does not give; then the obligations. -/

namespace Sys2Proof.Machine

open Sys2Proof.Config

variable {s : State} {pq : PReg} {kr ks kz kd : KReg} {c d k w z r e v : Word} {rest : List Word} {f : Failure}

theorem not_accepted_of_out_of_range (h : c.toNat = 0 ∨ cpN.toNat ≤ c.toNat) : ¬ Accepted c := by
  rintro ⟨hge, hle⟩
  have := cpN_pos
  omega

theorem accepted_of_ne_zero (h0 : c ≠ 0) (hlt : c.toNat < cpN.toNat) : Accepted c :=
  ⟨Nat.one_le_iff_ne_zero.2 (BitVec.toNat_ne.1 h0), Nat.le_sub_one_of_lt hlt⟩

/-! ### KEYPAIR -/

theorem exec_keypair_outOfRange (hd : s.readK kd = .ok d) (h : ¬ Accepted d) :
    exec (.keypair pq kd) s = .next (s.raise .invalidScalar) :=
  (finish_bind_ok hd).trans (finish_bind_error (if_neg (mt inScalarRange_iff.1 h)))

theorem exec_keypair_invalid (h : s.readK kd = .error .regInvalid) :
    exec (.keypair pq kd) s = .next (s.raise .regInvalid) :=
  exec_invalidSource rfl (.inl ⟨kd, List.mem_singleton.2 rfl, h⟩)

/-! ### KEYGEN -/

/-- `SampleScalar` answers the first acceptable draw (R256). -/
theorem sampleScalar_append (hd : Accepted d) : ∀ {before : List Word}, (∀ c ∈ before, ¬ Accepted c) →
    sampleScalar (before ++ d :: rest) = some (d, rest)
  | [], _ => if_pos (inScalarRange_iff.2 hd)
  | c :: before, h => by
    rw [List.forall_mem_cons] at h
    exact (if_neg (mt inScalarRange_iff.1 h.1)).trans (sampleScalar_append hd h.2)

/-! ### SIGN -/

/-- SIGN's row of the opcode map (R84). -/
def signRow : OpRow := ⟨0x52000000#32, 0xFF0000FF#32, fun f => .sign f.a f.b f.c f.d⟩

theorem signRow_mem : signRow ∈ opRows := by simp [opRows, rowsCurve, signRow]

/-- A word of SIGN's row is legal when its two destinations differ (R260). -/
theorem decode_signWord {i : CmdWord} (h : i &&& 0xFF0000FF#32 = 0x52000000#32) :
    decode i = if (splitWord i).a ≠ (splitWord i).b then
      .ok (.sign (splitWord i).a (splitWord i).b (splitWord i).c (splitWord i).d) else .error .signSameDestination := by
  have hm : i &&& signRow.mask = signRow.pattern := h
  have hwf : (signRow.build (splitWord i)).wf = true ↔ (splitWord i).a ≠ (splitWord i).b := bne_iff_ne
  rw [decode_row signRow_mem (op_of_match signRow_mem hm), if_pos hm, ite_cond_congr (propext hwf)]
  rfl

/-- SIGN with a bad operand ends before any draw (R260). -/
theorem exec_sign_error (h : signOperands kr ks kz kd s = .error f) :
    exec (.sign kr ks kz kd) s = .next (s.raise f) := by
  simp only [exec, execSign, h]

theorem exec_sign_invalid (hne : kr ≠ ks) (h : s.readK kz = .error .regInvalid ∨ s.readK kd = .error .regInvalid) :
    exec (.sign kr ks kz kd) s = .next (s.raise .regInvalid) :=
  exec_invalidSource (bne_iff_ne.2 hne) (.inl (by simpa [Instr.srcK] using h))

theorem signOperands_outOfRange (hne : kr ≠ ks) (hz : s.readK kz = .ok z) (hd : s.readK kd = .ok d)
    (h : ¬ Accepted d) : signOperands kr ks kz kd s = .error .invalidScalar := by
  rw [signOperands, if_neg hne, readKK_eq_ok.2 ⟨hz, hd⟩, ok_bind]
  exact if_neg (mt inScalarRange_iff.1 h)

theorem exec_sign_rejected (hop : signOperands kr ks kz kd s = .ok (z, d)) (hs : s.draws = k :: rest)
    (hk : ¬ Accepted k) : exec (.sign kr ks kz kd) s = exec (.sign kr ks kz kd) (s.withDraws rest) := by
  rw [exec_sign hop, exec_sign_withDraws hop, hs, signLoop_rejected hk]

/-- The second half of a signature from the sum `e = z +n r *n d` (R260, step 4). -/
theorem eq_signatureS (he : e.toNat = (z.toNat % cpN.toNat + r.toNat * d.toNat % cpN.toNat) % cpN.toNat)
    (hv : v.toNat = w.toNat * e.toNat % cpN.toNat) : v = signatureS w z r d := by
  apply BitVec.eq_of_toNat_eq
  rw [signatureS, mulN_toNat, addN_toNat, mulN_toNat, reduce_natCast cpN_pos, ← he, hv]

end Sys2Proof.Machine

open Sys2Proof Sys2Proof.Machine Sys2Proof.Config

/-- Settles O55: by the row of KEYPAIR, its invalid source, and the range check of its scalar. -/
theorem keypairDerivesThePublicPoint : Obligations.KeypairDerivesThePublicPoint := by
  unfold Obligations.KeypairDerivesThePublicPoint
  exact ⟨rowIs_getElem 36 (by decide) fun _ => rfl, fun _ _ _ => exec_keypair_invalid,
    fun _ _ _ _ hd h => exec_keypair_outOfRange hd (not_accepted_of_out_of_range h),
    fun _ _ _ _ _ hd hge hle hq => exec_keypair hd ((keyPair_accepted ⟨hge, hle⟩).trans hq)⟩

/-- Settles O56: by the row of KEYGEN and the first acceptable draw. -/
theorem keygenTakesTheFirstAcceptableDraw : Obligations.KeygenTakesTheFirstAcceptableDraw := by
  unfold Obligations.KeygenTakesTheFirstAcceptableDraw
  refine ⟨rowIs_getElem 37 (by decide) fun _ => rfl, fun pq kd s before rest d q hs hbefore hd hq => ?_⟩
  exact exec_keygen (hs ▸ sampleScalar_append hd hbefore) hq

/-- Settles O57: by the words of SIGN's row, the checks before its loop, and the loop on its first draw. -/
theorem signSigns : Obligations.SignSigns := by
  unfold Obligations.SignSigns
  refine ⟨fun w hw => ⟨fun hne => (decode_signWord hw).trans (if_pos hne),
      fun heq => (decode_signWord hw).trans (if_neg (not_not.2 heq))⟩,
    fun kr ks kz kd s heq => exec_sign_error (if_pos heq), fun kr ks kz kd s => exec_sign_invalid,
    fun kr ks kz kd s z d hne hz hd h =>
      exec_sign_error (signOperands_outOfRange hne hz hd (not_accepted_of_out_of_range h)),
    fun kr ks kz kd s z d k rest hne hz hd had hs => ?_⟩
  have hop : signOperands kr ks kz kd s = .ok (z, d) := signOperands_eq_ok.2 ⟨hne, hz, hd, had⟩
  refine ⟨exec_sign_rejected hop hs, fun x y a b m w r e v hk hR hw hkw hr he hv => ?_⟩
  have hpass : signPass z d k = .ok (if r = 0 ∨ v = 0 then none else some (r, v)) :=
    signPass_eq hR (fInv_of_mul_eq_one hw hkw) (eq_reduce_iff.2 hr) (eq_signatureS he hv)
  rw [exec_sign_pass hop hs hk hpass]
  refine ⟨fun h0 => if_pos h0, fun hr0 hv0 => ⟨accepted_of_ne_zero hr0 ?_, accepted_of_ne_zero hv0 ?_,
    if_neg (not_or.2 ⟨hr0, hv0⟩)⟩⟩
  · exact hr ▸ Nat.mod_lt _ cpN_pos
  · exact hv ▸ Nat.mod_lt _ cpN_pos

end

section
/-! SUPPORT. The round trip of a signature (49_ecdsa_engines.md R265): what SIGN's loop leaves solves the signature
equation, and on such a signature the sum `u1*G + u2*Q` of VERIFY is the multiple of the generator by the nonce; then
the obligation. -/

namespace Sys2Proof.Machine

open Sys2Proof.Config

variable {s t : State} {q : Pt} {kr ks kz kd : KReg} {d k w z r v u1 u2 : Word} {rest : List Word}

/-! ### What SIGN leaves -/

/-- `(r, v)` is a signature of the digest `z` under the scalar `d` with the nonce `k` (R260, steps 3 and 4). -/
structure IsSignature (z d r v k : Word) : Prop where
  nonce : Accepted k
  r_accepted : Accepted r
  v_accepted : Accepted v
  first : ∃ x y, scalarMul cpG k = .ok (.aff x y 0 7 cpP) ∧ r = reduce x.toNat cpN
  second : k.toNat * v.toNat ≡ z.toNat + r.toNat * d.toNat [MOD cpN.toNat]

theorem signPass_isSignature (hk : Accepted k) (h : signPass z d k = .ok (some (r, v))) : IsSignature z d r v k := by
  obtain ⟨x, y, r', v', hR, hr, hv, heq, hpass⟩ := signPass_accepted hk z d
  rw [hpass] at h
  split_ifs at h with h0
  · cases h
  · obtain ⟨hr0, hv0⟩ := not_or.1 h0
    cases h
    exact ⟨hk, accepted_of_ne_zero hr0 (hr ▸ Nat.mod_lt _ cpN_pos), accepted_of_ne_zero hv0 hv,
      ⟨x, y, hR, eq_reduce_iff.2 hr⟩, heq⟩

/-- The loop ends with the signature of one of its passes. -/
theorem signLoop_isSignature : ∀ {l : List Word}, signLoop z d l = .signed r v rest → ∃ k, IsSignature z d r v k
  | [], h => nomatch h
  | c :: l, h => by
    by_cases hc : Accepted c
    · cases hpass : signPass z d c with
      | error f => rw [signLoop, if_pos (inScalarRange_iff.2 hc), hpass] at h; cases h
      | ok o =>
        rw [signLoop_accepted hc hpass] at h
        cases o with
        | none => exact signLoop_isSignature h
        | some rv => cases h; exact ⟨c, signPass_isSignature hc hpass⟩
    · exact signLoop_isSignature ((signLoop_rejected hc).symm.trans h)

/-- SIGN that ends with code 0 has written a signature (R260). -/
theorem exec_sign_success (hz : s.readK kz = .ok z) (hd : s.readK kd = .ok d)
    (h : exec (.sign kr ks kz kd) s = .next t) (hr : t.rngReq = false) (hc : t.status.cc = .ok) :
    ∃ k r v rest, kr ≠ ks ∧ IsSignature z d r v k ∧
      t = (((s.withDraws rest).writeK kr r).writeK ks v).complete := by
  cases hop : signOperands kr ks kz kd s with
  | error f => cases (exec_sign_error hop).symm.trans h; cases hc
  | ok zd =>
    obtain ⟨z', d'⟩ := zd
    obtain ⟨hne, hz', hd', -⟩ := signOperands_eq_ok.1 hop
    cases hz.symm.trans hz'
    cases hd.symm.trans hd'
    cases (exec_sign hop).symm.trans h
    cases hl : signLoop z d s.draws with
    | signed r v rest =>
      obtain ⟨k, hsig⟩ := signLoop_isSignature hl
      exact ⟨k, r, v, rest, hne, hsig, rfl⟩
    | failed f rest => rw [hl] at hc; cases hc
    | starved => rw [hl] at hr; cases hr

/-! ### What VERIFY computes from it -/

/-- The scalars of R262, `w` the inverse of `v`: `u1 + u2 d` is the nonce modulo `CP.n`. -/
theorem IsSignature.verifyScalars (h : IsSignature z d r v k) (hvw : v.toNat * w.toNat % cpN.toNat = 1)
    (hu1 : u1.toNat = z.toNat % cpN.toNat * w.toNat % cpN.toNat) (hu2 : u2.toNat = r.toNat * w.toNat % cpN.toNat) :
    u1.toNat + u2.toNat * d.toNat ≡ k.toNat [MOD cpN.toNat] := by
  have hunit : v.toNat * w.toNat ≡ 1 [MOD cpN.toNat] := hvw.trans (Nat.mod_eq_of_lt prime_cpN.one_lt).symm
  have h1 : u1.toNat ≡ z.toNat * w.toNat [MOD cpN.toNat] :=
    hu1 ▸ (Nat.mod_modEq _ _).trans ((Nat.mod_modEq _ _).mul_right _)
  have h2 : u2.toNat ≡ r.toNat * w.toNat [MOD cpN.toNat] := hu2 ▸ Nat.mod_modEq _ _
  calc u1.toNat + u2.toNat * d.toNat
    _ ≡ z.toNat * w.toNat + r.toNat * w.toNat * d.toNat [MOD cpN.toNat] := h1.add (h2.mul_right _)
    _ = (z.toNat + r.toNat * d.toNat) * w.toNat := by ring
    _ ≡ k.toNat * v.toNat * w.toNat [MOD cpN.toNat] := h.second.symm.mul_right _
    _ = k.toNat * (v.toNat * w.toNat) := mul_assoc ..
    _ ≡ k.toNat * 1 [MOD cpN.toNat] := hunit.mul_left _
    _ = k.toNat := mul_one _

/-- `u1*G + u2*Q = k*G` for the public point `Q = d*G`, where `u1 + u2 d` is `k` modulo the order of `G`. -/
theorem pAdd_scalarMul_cpG (hq : scalarMul cpG d = .ok q)
    (h : u1.toNat + u2.toNat * d.toNat ≡ k.toNat [MOD cpN.toNat]) :
    ∃ g1 q2 p, scalarMul cpG u1 = .ok g1 ∧ scalarMul q u2 = .ok q2 ∧ scalarMul cpG k = .ok p ∧ pAdd g1 q2 = .ok p := by
  have : Fact cpP.toNat.Prime := ⟨prime_cpP⟩
  obtain ⟨G, hG, hn, -⟩ := rep_cpG
  obtain ⟨q', hq', hQ⟩ := scalarMul_rep cpP_odd hG d
  cases hq.symm.trans hq'
  obtain ⟨g1, hg1, hG1⟩ := scalarMul_rep cpP_odd hG u1
  obtain ⟨q2, hq2, hQ2⟩ := scalarMul_rep cpP_odd hQ u2
  obtain ⟨p, hp, hP⟩ := scalarMul_rep cpP_odd hG k
  have hsum : k.toNat • G = u1.toNat • G + u2.toNat • d.toNat • G := by
    calc k.toNat • G
      _ = (u1.toNat + u2.toNat * d.toNat) • G := by rw [← nsmul_mod hn, ← h, nsmul_mod hn]
      _ = u1.toNat • G + u2.toNat • d.toNat • G := by rw [add_nsmul, mul_nsmul']
  exact ⟨g1, q2, p, hg1, hq2, hp, pAdd_eq_of_rep cpP_odd hG1 hQ2 (hsum ▸ hP)⟩

/-- VERIFY of a signature with the public point of its scalar (R265). -/
theorem IsSignature.verifySig_valid (h : IsSignature z d r v k) (hq : scalarMul cpG d = .ok q) :
    verifySig z r v q = .ok .valid := by
  obtain ⟨w, hw, hvw, -⟩ := fInv_accepted h.v_accepted
  have hu1 : (mulN (reduce z.toNat cpN) w).toNat = z.toNat % cpN.toNat * w.toNat % cpN.toNat := by
    rw [mulN_toNat, reduce_natCast cpN_pos]
  have hu2 := mulN_toNat r w
  obtain ⟨g1, q2, p, hg1, hq2, hp, hsum⟩ := pAdd_scalarMul_cpG hq (h.verifyScalars hvw hu1 hu2)
  obtain ⟨x, y, hR, hr⟩ := h.first
  cases hp.symm.trans hR
  rw [verifySig_equation h.r_accepted h.v_accepted (scalarMul_curve hq),
    verifyEquation_eq hw hvw hu1 hu2 hg1 hq2 hsum, sumResult, if_pos hr]

end Sys2Proof.Machine

open Sys2Proof Sys2Proof.Machine Sys2Proof.Config

/-- Settles O60: what SIGN writes is a signature (`exec_sign_success`), and its sum in VERIFY is the nonce's multiple of
the generator (`pAdd_scalarMul_cpG`). -/
theorem verifyAcceptsWhatSignLeaves : Obligations.VerifyAcceptsWhatSignLeaves := by
  unfold Obligations.VerifyAcceptsWhatSignLeaves
  intro s t kr ks kz kd kz' pq z d q hz hd hq hQ h hreq hcc hz'
  obtain ⟨k, r, v, rest, hne, hsig, rfl⟩ := exec_sign_success hz hd h hreq hcc
  have hr : (((s.withDraws rest).writeK kr r).writeK ks v).complete.readK kr = .ok r := by
    rw [readK_congr (State.complete_k _), readK_writeK, if_neg hne, readK_writeK_self]
  have hv : (((s.withDraws rest).writeK kr r).writeK ks v).complete.readK ks = .ok v := by
    rw [readK_congr (State.complete_k _), readK_writeK_self]
  rw [exec_verify hz' hr hv hq, finish_bind_ok (hsig.verifySig_valid hQ)]
  rfl

end
